-- ==== Sys2Proof/Word.lean ====
section
/-! DEFINITION. Sys2Proof/Word.lean: the plain words of the unit (spec/30_encoding.md rules R90, R91, R93, R96, R100).

A sample, a host command word, a response word, an allocator word and a stage word are what the spec treats as bits,
so each is a bit vector of the width the spec gives. A ring number is an index below twelve (spec/00_scope.md R6). -/

namespace Sys2Proof

/-- One binary32 sample, as its 32-bit pattern (R90); also a 32-bit register and an int32 index (R8). -/
abbrev Sample := BitVec 32

/-- A host command word `HC` (R91). -/
abbrev HostWord := BitVec 36

/-- A host response word `HR` (R93). -/
abbrev ResponseWord := BitVec 68

/-- An allocator request word `AQ` or answer word `AR` (R96). -/
abbrev AllocWord := BitVec 33

/-- A stage word of the schedule ROM (R100). -/
abbrev StageWord := BitVec 32

/-- A 4-bit index field of a stage word: a wire, a unit or a table index (R102). -/
abbrev Nibble := BitVec 4

/-- A ring id, 0 to 11 (R6). -/
abbrev RingId := Fin 12

/-- `+0.0` (R90). -/
abbrev plusZero : Sample := 0x00000000#32

/-- `1.0` (R90). -/
abbrev oneSample : Sample := 0x3F800000#32

/-- The twelve ring ids in the order CONSTRUCT allocates them (R133). -/
def allRings : List RingId := [0, 1, 2, 3, 4, 5, 6, 7, 8, 9, 10, 11]

end Sys2Proof
end

