-- ==== Sys2Proof/Config.lean ====
section
/-! DEFINITION. Sys2Proof/Config.lean: what is fixed for the machine and what the spec leaves open.

The implementation parameters of spec/00_scope.md R5 as one record, which State carries so that a claim can name the
default or quantify over them, and that default (R5, R6, R7); the schedule ROM's contents of spec/30_encoding.md R106;
and the free values, constants with no body, so that no proof can see what they are. -/

namespace Sys2Proof

/-- One row of the `Topology` ring table (R6), but for the coefficient, which only some rings have. -/
structure RingRow where
  maxDelayS : Sample
  delayS : Sample
deriving DecidableEq, Repr

/-- One row of the tap table `T` (R7). -/
structure TapRow where
  offsetS : Sample
  gain : Sample
deriving DecidableEq, Repr

/-- The `Topology` record (R6, R7). Which rings exist and their kinds are fixed (R5, R6), so the coefficients stand by
allpass: `apK` by `AP` unit, `vapK` by `VAP` unit (R102). -/
structure Topology where
  rings : Vector RingRow 12
  apK : Vector Sample 6
  vapK : Vector Sample 2
  consts : Vector Sample 4
  taps : Vector TapRow 8
deriving DecidableEq, Repr

/-- The implementation parameters that are numbers (R5). -/
structure Params where
  topology : Topology
  /-- `LFO_FREQ_HZ` -/
  lfoFreqHz : Sample
  /-- `TWOPI` -/
  twoPi : Sample
  /-- `DCB_K` -/
  dcbK : Sample
  /-- `HSH_K` -/
  hshK : Sample
  /-- `CAP_MAX_LOG2` -/
  capMaxLog2 : Nat
  /-- `DM_ADDR_W` -/
  dmAddrW : Nat
deriving DecidableEq, Repr

namespace Config

/-- The spec's default `Topology`: rings E1 to D4 and the coefficients (R6), constants MOD1, MOD2, ATT1, ATT2 and the
eight taps (R7). -/
def topology : Topology where
  rings := #v[
    ⟨0x3CA3D70A#32, 0x3B656042#32⟩, ⟨0x3CA3D70A#32, 0x3BA3D70A#32⟩, ⟨0x3CA3D70A#32, 0x3C03126F#32⟩,
    ⟨0x3CA3D70A#32, 0x3C271DE7#32⟩, ⟨0x3D4CCCCD#32, 0x3CCCCCCD#32⟩, ⟨0x3D4CCCCD#32, 0x3D408312#32⟩,
    ⟨0x3D4CCCCD#32, 0x3CFDF3B6#32⟩, ⟨0x3E4CCCCD#32, 0x3DF7CED9#32⟩, ⟨0x3D4CCCCD#32, 0x3D27EF9E#32⟩,
    ⟨0x3DCCCCCD#32, 0x3DA9FBE7#32⟩, ⟨0x3DCCCCCD#32, 0x3D89374C#32⟩, ⟨0x3E4CCCCD#32, 0x3E374BC7#32⟩]
  apK := #v[0x3F3851EC#32, 0x3F2147AE#32, 0x3F4F5C29#32, 0x3F1C28F6#32, 0x3F2147AE#32, 0x3F2147AE#32]
  vapK := #v[0x3F0CCCCD#32, 0x3F0CCCCD#32]
  consts := #v[0x3A03126F#32, 0x399D4952#32, 0x3F4CCCCD#32, 0x3F4CCCCD#32]
  taps := #v[
    ⟨0x3951B717#32, 0x3F000000#32⟩, ⟨0x39EBEDFA#32, 0x3ECCCCCD#32⟩,
    ⟨0x399D4952#32, 0x3EE66666#32⟩, ⟨0x391D4952#32, 0x3EB33333#32⟩,
    ⟨0x399D4952#32, 0x3EE66666#32⟩, ⟨0x3A5ED289#32, 0x3EB33333#32⟩,
    ⟨0x3A378034#32, 0x3F000000#32⟩, ⟨0x3A79096C#32, 0x3ECCCCCD#32⟩]

/-- The default of every parameter (R5): 0.5 Hz, the binary32 nearest 2π, 0.99, 0.3, rings of up to 2^24 cells, and
32 address bits. -/
def defaults : Params where
  topology := topology
  lfoFreqHz := 0x3F000000#32
  twoPi := 0x40C90FDB#32
  dcbK := 0x3F7D70A4#32
  hshK := 0x3E99999A#32
  capMaxLog2 := 24
  dmAddrW := 32

/-- The contents of the schedule ROM, slots 0 to 34 (R106). -/
def scheduleRom : Vector StageWord 35 := #v[
  0xB0000000#32, 0x10102000#32, 0x20110000#32, 0x20220100#32, 0x70000000#32, 0x71000000#32, 0x72000000#32,
  0x73000000#32, 0x30000000#32, 0x40000000#32, 0x80001000#32, 0x60000000#32, 0x74000000#32, 0x61000000#32,
  0x50000000#32, 0x20000200#32, 0x81002000#32, 0x62000000#32, 0x75000000#32, 0x63000000#32, 0x51000000#32,
  0x20000300#32, 0xA0000000#32, 0xD0300000#32, 0x90300000#32, 0x91300100#32, 0x92300200#32, 0x93300300#32,
  0xD0400000#32, 0x90400400#32, 0x91400500#32, 0x92400600#32, 0x93400700#32, 0xC0034000#32, 0x00000000#32]

/-- FREE VALUE (R9, 92_eei_decisions.md D3): sign (bit 22) and payload of the quiet NaN that draw number `n` produces. -/
opaque nanBits : Nat → BitVec 23

/-- FREE VALUE (R36): the 32-bit word an element holds where the spec calls it unspecified, by draw number. -/
opaque unspecifiedWord : Nat → BitVec 32

/-- FREE VALUE (R132): what the external allocator proposes at draw number `n` when State's queue of its coming
answers is empty: a base address, or nothing (exhausted). -/
opaque allocChoice : Nat → Option (BitVec 32)

/-- FREE VALUE (R131, R132): the allocator's coming answers after a `FREE` of a base that no held region has, by draw
number: what `free` makes of the allocator's state is not stated there. -/
opaque answersAfterFree : Nat → List (Option (BitVec 32))

end Config
end Sys2Proof
end

