-- ==== Sys2Proof/Syntax.lean ====
section
/-! DEFINITION. Sys2Proof/Syntax.lean: the instructions, one constructor per row of spec/opcode_table.json.

Fourteen stage words (spec/30_encoding.md R101), six host commands (R92), two allocator requests (R96). A field is
the 4-bit index or the 32-bit operand the encoding gives it; which values are legal is WellFormed's. -/

namespace Sys2Proof

/-- One instruction of the unit: a stage of the schedule, a command of the host or a request to the allocator. -/
inductive Instr where
  /-- `END`: end of the per-sample call (R216). -/
  | end_
  /-- `LFO wd, wd2`: one oscillator step; cosine to `rd`, sine to `rb` (R152). -/
  | lfo (rd rb : Nibble)
  /-- `MULC wd, wa, #ki` (R211). -/
  | mulc (rd ra ki : Nibble)
  /-- `ADDF wd, wa` (R212). -/
  | addf (rd ra : Nibble)
  /-- `DCB.u wd, wa` (R161). -/
  | dcb (unit rd ra : Nibble)
  /-- `HSH.u wd, wa` (R163). -/
  | hsh (unit rd ra : Nibble)
  /-- `DLY.u wd, wa` (R176). -/
  | dly (unit rd ra : Nibble)
  /-- `AP.u wd, wa` (R191). -/
  | ap (unit rd ra : Nibble)
  /-- `VAP.u wd, wa, wb` (R196). -/
  | vap (unit rd ra rb : Nibble)
  /-- `TAP.u wd, #ki` (R178). -/
  | tap (unit rd ki : Nibble)
  /-- `STF wa` (R213). -/
  | stf (ra : Nibble)
  /-- `IN wd` (R210). -/
  | in_ (rd : Nibble)
  /-- `OUT wa, wb` (R215). -/
  | out (ra rb : Nibble)
  /-- `CLR wd` (R214). -/
  | clr (rd : Nibble)
  /-- Host command `NOP` (R136). -/
  | nop
  /-- Host command `CONSTRUCT sample_rate` (R133). -/
  | construct (rate : Sample)
  /-- Host command `PROCESS x` (R139). -/
  | process (x : Sample)
  /-- Host command `DESTROY` (R135). -/
  | destroy
  /-- Host command `SETBS value` (R137). -/
  | setbs (value : BitVec 32)
  /-- Host command `RDCSR n` (R138). -/
  | rdcsr (n : Nibble)
  /-- Allocator request `ALLOC size`, a size in bytes (R130). -/
  | alloc (size : BitVec 32)
  /-- Allocator request `FREE base`, a word address (R131). -/
  | free (base : BitVec 32)
deriving DecidableEq, Repr

/-- A word at one of the three places the unit takes instructions from: the schedule ROM, the host command port and
the allocator port. The three encodings are separate spaces (R91, R96, R100). -/
inductive PortWord where
  | stage (w : StageWord)
  | host (w : HostWord)
  | alloc (w : AllocWord)
deriving DecidableEq, Repr

end Sys2Proof
end

