-- ==== Sys2Proof/WellFormed.lean ====
section
/-! DEFINITION. Sys2Proof/WellFormed.lean: which instructions the encoding admits: the `UNIT` and `KI` ranges of
spec/30_encoding.md R101 and the CSR numbers of R94. Every other field admits all its values. -/

namespace Sys2Proof

/-- The field ranges of R101 and R94. -/
def Instr.wellFormed : Instr → Bool
  | .mulc _ _ ki => ki.toNat ≤ 3
  | .dcb unit _ _ => unit.toNat = 0
  | .hsh unit _ _ => unit.toNat ≤ 1
  | .dly unit _ _ => unit.toNat ≤ 3
  | .ap unit _ _ => unit.toNat ≤ 5
  | .vap unit _ _ _ => unit.toNat ≤ 1
  | .tap unit _ ki => unit.toNat ≤ 3 && ki.toNat ≤ 7
  | .rdcsr n => n.toNat ≤ 2
  | .end_ => true
  | .lfo _ _ => true
  | .addf _ _ => true
  | .stf _ => true
  | .in_ _ => true
  | .out _ _ => true
  | .clr _ => true
  | .nop => true
  | .construct _ => true
  | .process _ => true
  | .destroy => true
  | .setbs _ => true
  | .alloc _ => true
  | .free _ => true

end Sys2Proof
end

