-- ==== Sys2Proof/Decode.lean ====
section
/-! DEFINITION. Sys2Proof/Decode.lean: from words to instructions and back (spec/30_encoding.md R91 to R96, R100 to
R105). Decoding is total; a reserved encoding is rejected by name. The encoder below it is written from the same
tables. -/

namespace Sys2Proof

/-- Why a word encodes nothing (R95, R105). -/
inductive DecodeReject where
  /-- Stage `OP` 14 or 15 (R105). -/
  | reservedStageOp
  /-- The field `Z` is not 0 (R105). -/
  | nonzeroZ
  /-- A field outside the stage's "Uses" is not 0 (R105). -/
  | nonzeroUnusedField
  /-- `UNIT` or `KI` outside its range (R105). -/
  | indexOutOfRange
  /-- `HOP` 6 to 15 (R95). -/
  | reservedHostOp
  /-- `NOP` or `DESTROY` with `DATA ≠ 0` (R95). -/
  | nonzeroHostData
  /-- `RDCSR` with `DATA[31:4] ≠ 0` or a CSR number above 2 (R95). -/
  | reservedCsr
deriving DecidableEq, Repr

/-- The six index fields of a stage word in format S (R100). -/
structure StageFields where
  op : Nibble
  unit : Nibble
  rd : Nibble
  ra : Nibble
  rb : Nibble
  ki : Nibble
deriving DecidableEq, Repr

/-- `OP`, `UNIT`, `RD`, `RA`, `RB`, `KI` of a stage word (R100). -/
def stageFields (w : StageWord) : StageFields where
  op := w.extractLsb' 28 4
  unit := w.extractLsb' 24 4
  rd := w.extractLsb' 20 4
  ra := w.extractLsb' 16 4
  rb := w.extractLsb' 12 4
  ki := w.extractLsb' 8 4

/-- The field `Z`, bits 7:0 (R100). -/
def stageZ (w : StageWord) : BitVec 8 := w.extractLsb' 0 8

/-- A decoded instruction, if the fields it does not use are zero and its indexes are in range (R101, R105). -/
def withUnusedZero (unused : List Nibble) (i : Instr) : Except DecodeReject Instr :=
  if unused.all (· == 0#4) then
    if i.wellFormed then .ok i else .error .indexOutOfRange
  else .error .nonzeroUnusedField

/-- The stage opcode map (R101); the fields listed first are the ones the stage does not use. -/
def decodeFields (f : StageFields) : Except DecodeReject Instr :=
  match f.op.toNat with
  | 0x0 => withUnusedZero [f.unit, f.rd, f.ra, f.rb, f.ki] .end_
  | 0x1 => withUnusedZero [f.unit, f.ra, f.ki] (.lfo f.rd f.rb)
  | 0x2 => withUnusedZero [f.unit, f.rb] (.mulc f.rd f.ra f.ki)
  | 0x3 => withUnusedZero [f.unit, f.rb, f.ki] (.addf f.rd f.ra)
  | 0x4 => withUnusedZero [f.rb, f.ki] (.dcb f.unit f.rd f.ra)
  | 0x5 => withUnusedZero [f.rb, f.ki] (.hsh f.unit f.rd f.ra)
  | 0x6 => withUnusedZero [f.rb, f.ki] (.dly f.unit f.rd f.ra)
  | 0x7 => withUnusedZero [f.rb, f.ki] (.ap f.unit f.rd f.ra)
  | 0x8 => withUnusedZero [f.ki] (.vap f.unit f.rd f.ra f.rb)
  | 0x9 => withUnusedZero [f.ra, f.rb] (.tap f.unit f.rd f.ki)
  | 0xA => withUnusedZero [f.unit, f.rd, f.rb, f.ki] (.stf f.ra)
  | 0xB => withUnusedZero [f.unit, f.ra, f.rb, f.ki] (.in_ f.rd)
  | 0xC => withUnusedZero [f.unit, f.rd, f.ki] (.out f.ra f.rb)
  | 0xD => withUnusedZero [f.unit, f.ra, f.rb, f.ki] (.clr f.rd)
  | _ => .error .reservedStageOp

/-- A stage word (R100, R101, R105). -/
def decodeStage (w : StageWord) : Except DecodeReject Instr :=
  if stageZ w = 0#8 then decodeFields (stageFields w) else .error .nonzeroZ

/-- `HOP`, bits 35:32 (R91). -/
def hostOp (w : HostWord) : Nibble := w.extractLsb' 32 4

/-- `DATA`, bits 31:0 (R91). -/
def hostData (w : HostWord) : BitVec 32 := w.extractLsb' 0 32

/-- A host command word (R92, R94, R95). -/
def decodeHost (w : HostWord) : Except DecodeReject Instr :=
  match (hostOp w).toNat with
  | 0x0 => if hostData w = 0#32 then .ok .nop else .error .nonzeroHostData
  | 0x1 => .ok (.construct (hostData w))
  | 0x2 => .ok (.process (hostData w))
  | 0x3 => if hostData w = 0#32 then .ok .destroy else .error .nonzeroHostData
  | 0x4 => .ok (.setbs (hostData w))
  | 0x5 => if (hostData w).toNat ≤ 2 then .ok (.rdcsr ((hostData w).setWidth 4)) else .error .reservedCsr
  | _ => .error .reservedHostOp

/-- `KIND`, bit 32 of an allocator request (R96). -/
def allocKind (w : AllocWord) : BitVec 1 := w.extractLsb' 32 1

/-- `ARG`, bits 31:0 of an allocator request (R96). -/
def allocArg (w : AllocWord) : BitVec 32 := w.extractLsb' 0 32

/-- An allocator request word (R96): every word is a request. -/
def decodeAlloc (w : AllocWord) : Except DecodeReject Instr :=
  if allocKind w = 0#1 then .ok (.alloc (allocArg w)) else .ok (.free (allocArg w))

/-- The word at one of the three places, decoded in that place's encoding. -/
def decode : PortWord → Except DecodeReject Instr
  | .stage w => decodeStage w
  | .host w => decodeHost w
  | .alloc w => decodeAlloc w

/-- A stage word from its fields, format S with `Z = 0` (R100). -/
def stageWordOf (f : StageFields) : StageWord :=
  f.op ++ f.unit ++ f.rd ++ f.ra ++ f.rb ++ f.ki ++ 0#8

/-- A host word from `HOP` and `DATA`, format H (R91). -/
def hostWordOf (hop : Nibble) (data : BitVec 32) : HostWord := hop ++ data

/-- An allocator request word from `KIND` and `ARG`, format A (R96). -/
def allocWordOf (kind : BitVec 1) (arg : BitVec 32) : AllocWord := kind ++ arg

/-- The word of an instruction, at the place the unit takes it from (R92, R96, R101). -/
def encode : Instr → PortWord
  | .end_ => .stage (stageWordOf ⟨0x0#4, 0#4, 0#4, 0#4, 0#4, 0#4⟩)
  | .lfo rd rb => .stage (stageWordOf ⟨0x1#4, 0#4, rd, 0#4, rb, 0#4⟩)
  | .mulc rd ra ki => .stage (stageWordOf ⟨0x2#4, 0#4, rd, ra, 0#4, ki⟩)
  | .addf rd ra => .stage (stageWordOf ⟨0x3#4, 0#4, rd, ra, 0#4, 0#4⟩)
  | .dcb unit rd ra => .stage (stageWordOf ⟨0x4#4, unit, rd, ra, 0#4, 0#4⟩)
  | .hsh unit rd ra => .stage (stageWordOf ⟨0x5#4, unit, rd, ra, 0#4, 0#4⟩)
  | .dly unit rd ra => .stage (stageWordOf ⟨0x6#4, unit, rd, ra, 0#4, 0#4⟩)
  | .ap unit rd ra => .stage (stageWordOf ⟨0x7#4, unit, rd, ra, 0#4, 0#4⟩)
  | .vap unit rd ra rb => .stage (stageWordOf ⟨0x8#4, unit, rd, ra, rb, 0#4⟩)
  | .tap unit rd ki => .stage (stageWordOf ⟨0x9#4, unit, rd, 0#4, 0#4, ki⟩)
  | .stf ra => .stage (stageWordOf ⟨0xA#4, 0#4, 0#4, ra, 0#4, 0#4⟩)
  | .in_ rd => .stage (stageWordOf ⟨0xB#4, 0#4, rd, 0#4, 0#4, 0#4⟩)
  | .out ra rb => .stage (stageWordOf ⟨0xC#4, 0#4, 0#4, ra, rb, 0#4⟩)
  | .clr rd => .stage (stageWordOf ⟨0xD#4, 0#4, rd, 0#4, 0#4, 0#4⟩)
  | .nop => .host (hostWordOf 0x0#4 0#32)
  | .construct rate => .host (hostWordOf 0x1#4 rate)
  | .process x => .host (hostWordOf 0x2#4 x)
  | .destroy => .host (hostWordOf 0x3#4 0#32)
  | .setbs value => .host (hostWordOf 0x4#4 value)
  | .rdcsr n => .host (hostWordOf 0x5#4 (n.setWidth 32))
  | .alloc size => .alloc (allocWordOf 0#1 size)
  | .free base => .alloc (allocWordOf 1#1 base)

/-- Which place a word of the opcode table's width goes to: 32 bits the schedule ROM, 36 (40 in whole bytes) the host
port, 33 the allocator port; any other width is none of them. Assumption log 14. -/
def portWordOfTable (nbits w : Nat) : Option PortWord :=
  match nbits with
  | 32 => some (.stage (BitVec.ofNat 32 w))
  | 33 => some (.alloc (BitVec.ofNat 33 w))
  | 36 => some (.host (BitVec.ofNat 36 w))
  | 40 => some (.host (BitVec.ofNat 36 w))
  | _ => none

/-- The instruction the decoder reads from a word numbered as spec/opcode_table.json numbers its bits. -/
def decodeTableWord (nbits w : Nat) : Option Instr :=
  match portWordOfTable nbits w with
  | some p =>
    match decode p with
    | .ok i => some i
    | .error _ => none
  | none => none

end Sys2Proof
end

