-- ==== Sys2Proof/Machine/State.lean ====
section
/-! DEFINITION. Sys2Proof/Machine/State.lean: the unit's state (spec/10_state.md R20), the reasons a step can stop, and
the state after power-on reset (R36, R280). Every field is plain data. -/

namespace Sys2Proof
namespace Machine

/-- The lifecycle state `LS` (R26). -/
inductive Lifecycle where
  | empty
  | ready
deriving DecidableEq, Repr

/-- The oscillator: coefficient and the (cosine, sine) pair (R27). -/
structure Lfo where
  k : Sample
  cos : Sample
  sin : Sample
deriving DecidableEq, Repr

/-- The DC blocker: previous input and previous output (R28). -/
structure DcBlocker where
  x1 : Sample
  y1 : Sample
deriving DecidableEq, Repr

/-- A ring descriptor (R30); the integers are int32 words (R8). -/
structure Ring where
  base : BitVec 32
  capacity : BitVec 32
  mask : BitVec 32
  cursor : BitVec 32
  delayS : Sample
  delaySamples : BitVec 32
deriving DecidableEq, Repr

/-- The delay memory `DM` (R60): the cells that do not read as `unlisted`, by word address, in strictly rising order.
The cell is the 32-bit word, the smallest unit the spec addresses (R63, R64). -/
abbrev DelayMemory := List (Nat × Sample)

/-- A region of delay memory handed out by the allocator: its first word address and its number of words (R130). -/
structure Region where
  base : BitVec 32
  words : Nat
deriving DecidableEq, Repr

/-- A request word the unit sent on the allocator port and, for an ALLOC, the answer word (R96). -/
structure AllocEvent where
  request : AllocWord
  answer : Option AllocWord
deriving DecidableEq, Repr

/-- A command word the host will issue. `waits`: it is issued only after the response of the command before it, as
the protocol asks (R141); a word with `waits = false` is issued while the command before it is still in progress. The
first word of all has none before it. -/
structure HostIssue where
  word : HostWord
  waits : Bool
deriving DecidableEq, Repr

/-- Why the model faults. -/
inductive Fault where
  /-- A stage in `slot` read `wire`, which holds no value: raised by the meanings of the stages that read a wire. The
  spec's own fault of the model (R11, R37, U15). Safe: the machine stops where no result is defined. -/
  | wireHoldsNoValue (slot : BitVec 6) (wire : Nibble)
  /-- The stage counter is above 34, a slot that does not exist (R22): raised by the fetch. Safe: it stops, and no run
  with the schedule of R106 gets there. -/
  | slotDoesNotExist (slot : BitVec 6)
deriving DecidableEq, Repr

/-- Why the model gives a step no meaning. -/
inductive Refusal where
  /-- An instruction that has no meaning in the model: raised by exec's arms only. Safe. -/
  | notModelled (mnemonic : String)
  /-- A reserved word (R95, R105, U9, U10): raised by the step when the decoder rejects the word, and by a meaning
  given a `UNIT`, `KI` or CSR number no word encodes. Safe: the spec gives it no behaviour. -/
  | reservedEncoding (reason : DecodeReject)
  /-- `trunc_i32` or `floor_i32` of a NaN, an infinity or a magnitude of 2^31 or more (R10, U3): raised by TAP, VAP
  and CONSTRUCT. Safe: the spec's own refusal. -/
  | conversionUndefined
  /-- CONSTRUCT with a `sample_rate` that is not admitted (R133, U17). Safe: the spec's own refusal. -/
  | sampleRateNotAdmitted
  /-- CONSTRUCT, PROCESS or DESTROY in the lifecycle state where it is a protocol violation (R140, U12). Safe: the
  spec's own refusal. -/
  | protocolViolation (ls : Lifecycle)
  /-- A host command issued while another is in progress (R141, R290, U12): raised by the meanings of the six host
  commands. Safe: the spec's own refusal. -/
  | commandInProgress
deriving DecidableEq, Repr

/-- The state of one unit, of the two ports it is driven through and of the allocator's live set (R20). -/
structure State where
  /-- `LS` (R26); `STATUS.RDY` is its view. -/
  ls : Lifecycle
  /-- A PROCESS is in progress (R22, R280). -/
  inProgress : Bool
  /-- The stage counter (R22). -/
  spc : BitVec 6
  /-- The schedule ROM (R60, R106). -/
  rom : Vector StageWord 35
  /-- MODEL: the implementation parameters (R5), which nothing writes; a field so that a claim can quantify over them. -/
  params : Params
  /-- The wire file; a wire may hold no value (R21, R37). -/
  wires : Vector (Option Sample) 16
  /-- `STATUS.AF` (R23). -/
  af : Bool
  /-- `STATUS.AFRING` (R23). -/
  afring : Nibble
  /-- `SAMPLE_RATE` (R24). -/
  sampleRate : Sample
  /-- `BUFFER_SIZE` (R25). -/
  bufferSize : BitVec 32
  /-- The oscillator (R27). -/
  lfo : Lfo
  /-- The DC blocker (R28). -/
  dcb : DcBlocker
  /-- `hsh[0].x1`, `hsh[1].x1` (R29). -/
  hsh : Vector Sample 2
  /-- The ring descriptors (R30). -/
  rings : Vector Ring 12
  /-- The delay memory with the ring contents (R31, R60). -/
  dm : DelayMemory
  /-- The feedback scalar (R32). -/
  fb : Sample
  /-- `in_latch` (R33). -/
  inLatch : Sample
  /-- `out_l` (R33). -/
  outL : Sample
  /-- `out_r` (R33). -/
  outR : Sample
  /-- The allocator's live set: regions granted and not yet freed, newest first (R34). -/
  live : List Region
  /-- MODEL: the commands the host will issue, first one first (R141). -/
  hostQueue : List HostIssue
  /-- MODEL: the response word of the last command, none while it is still due (R93). -/
  hostResponse : Option ResponseWord
  /-- An allocator request outstanding on the port (R280). -/
  allocRequest : Option AllocWord
  /-- MODEL: what passed on the allocator port since the last host command was taken, oldest first (R96). -/
  allocTraffic : List AllocEvent
  /-- MODEL: the allocator's coming answers: a proposed base, or none for exhaustion (R132). -/
  allocQueue : List (Option (BitVec 32))
  /-- MODEL: how many draws of free values were made. -/
  draws : Nat
deriving DecidableEq, Repr

/-- A ring descriptor with every field zero, the named reset value (assumption log 3). -/
def Ring.zero : Ring := ⟨0#32, 0#32, 0#32, 0#32, 0#32, 0#32⟩

/-- The state after power-on reset (R36, R280): `LS = EMPTY`, `STATUS`, `BUFFER_SIZE` and `spc` zero, wires without a
value, no region held, nothing in progress. The elements the spec leaves unspecified are zero (assumption log 3), and
the parameters are the defaults of R5 (assumption log 15). -/
def State.reset : State where
  ls := .empty
  inProgress := false
  spc := 0#6
  rom := Config.scheduleRom
  params := Config.defaults
  wires := Vector.replicate 16 none
  af := false
  afring := 0#4
  sampleRate := 0#32
  bufferSize := 0#32
  lfo := ⟨0#32, 0#32, 0#32⟩
  dcb := ⟨0#32, 0#32⟩
  hsh := Vector.replicate 2 0#32
  rings := Vector.replicate 12 Ring.zero
  dm := []
  fb := 0#32
  inLatch := 0#32
  outL := 0#32
  outR := 0#32
  live := []
  hostQueue := []
  hostResponse := none
  allocRequest := none
  allocTraffic := []
  allocQueue := []
  draws := 0

end Machine
end Sys2Proof
end

