-- ==== Sys2Proof/Machine/Flags.lean ====
section
/-! DEFINITION. Sys2Proof/Machine/Flags.lean: the status flags (spec/10_state.md R23). The unit has no condition codes;
its only flags are the three fields of STATUS, of which `RDY` is the view of `LS` (R26). -/

namespace Sys2Proof
namespace Machine

/-- `STATUS.RDY`: 1 exactly when `LS = READY` (R23). -/
def Lifecycle.rdy : Lifecycle → Bool
  | .empty => false
  | .ready => true

/-- `STATUS = zext_32(AFRING) << 4 | AF << 1 | RDY` (R138); bits 3:2 and 31:8 read as 0 (R23). -/
def State.status (s : State) : BitVec 32 :=
  (s.afring.setWidth 32 <<< 4) ||| ((BitVec.ofBool s.af).setWidth 32 <<< 1) ||| (BitVec.ofBool s.ls.rdy).setWidth 32

/-- A successful CONSTRUCT sets `RDY` and clears `AF` and `AFRING` (R23, R133). -/
def State.flagsConstructed (s : State) : State := { s with ls := .ready, af := false, afring := 0#4 }

/-- A failed CONSTRUCT clears `RDY`, sets `AF` and records the ring in `AFRING` (R23, R251). -/
def State.flagsFailed (s : State) (r : RingId) : State :=
  { s with ls := .empty, af := true, afring := BitVec.ofNat 4 r.val }

/-- DESTROY clears `RDY` and does not change `AF` or `AFRING` (R23, R135). -/
def State.flagsDestroyed (s : State) : State := { s with ls := .empty }

end Machine
end Sys2Proof
end

