-- ==== Sys2Proof/Machine/Float.lean ====
section
/-! DEFINITION. Sys2Proof/Machine/Float.lean: binary32 arithmetic (spec/00_scope.md R9, R10; the layout is
spec/30_encoding.md R90). Operands become exact integers times a power of two, the exact result is computed, and one
rounding to nearest, ties to even, ends it. A result that is a NaN is the quiet NaN of the draw number the caller
passes (R9: "a draw (any quiet NaN)"). -/

namespace Sys2Proof
namespace Machine

/-- What a binary32 pattern stands for (R90): a finite value is `(-1)^neg * m * 2^e`. -/
inductive FloatClass where
  | nan
  | inf (neg : Bool)
  | finite (neg : Bool) (m : Nat) (e : Int)
deriving DecidableEq, Repr

/-- The biased exponent, bits 30:23 (R90). -/
def expField (x : Sample) : Nat := (x.extractLsb' 23 8).toNat

/-- The fraction, bits 22:0 (R90). -/
def fracField (x : Sample) : Nat := (x.extractLsb' 0 23).toNat

/-- The value of a pattern by the five cases of R90. -/
def classify (x : Sample) : FloatClass :=
  if expField x = 255 then
    if fracField x = 0 then .inf x.msb else .nan
  else if expField x = 0 then .finite x.msb (fracField x) (-149)
  else .finite x.msb (2 ^ 23 + fracField x) ((expField x : Int) - 150)

/-- The quiet NaN of draw number `n`: sign and payload free, bit 22 set (R9, R90). -/
def quietNaN (n : Nat) : Sample :=
  (Config.nanBits n).extractLsb' 22 1 ++ 0xFF#8 ++ 1#1 ++ (Config.nanBits n).extractLsb' 0 22

/-- `m / 2^k` rounded to the nearest integer, ties to even (R9). -/
def roundShift (m k : Nat) : Nat :=
  let low := m % 2 ^ k
  let high := m / 2 ^ k
  if 2 ^ k < 2 * low ∨ (2 * low = 2 ^ k ∧ high % 2 = 1) then high + 1 else high

/-- The exponent of the last place of the binary32 nearest `m * 2^e` (`m` not 0): 24 significant bits, or the
subnormal spacing 2^-149 (R90). -/
def lastPlace (m : Nat) (e : Int) : Int := max ((Nat.log2 m : Int) + e - 23) (-149)

/-- `m * 2^e` in units of `2^q`, rounded. -/
def significand (m : Nat) (e q : Int) : Nat :=
  if q ≤ e then m * 2 ^ (e - q).toNat else roundShift m (q - e).toNat

/-- The pattern, without the sign bit, of the binary32 nearest the magnitude `m * 2^e`; overflow gives infinity. -/
def roundMagnitude (m : Nat) (e : Int) : Nat :=
  if m = 0 then 0
  else min ((lastPlace m e + 149).toNat * 2 ^ 23 + significand m e (lastPlace m e)) 0x7F800000

/-- A pattern from its sign bit and the 31 bits below it (R90). -/
def packSign (neg : Bool) (magnitude : Nat) : Sample :=
  BitVec.ofNat 32 (magnitude + if neg then 2 ^ 31 else 0)

/-- An infinity (R90). -/
def infinity (neg : Bool) : Sample := packSign neg 0x7F800000

/-- The integer `(-1)^neg * m`. -/
def signed (neg : Bool) (m : Nat) : Int := if neg then -(m : Int) else m

/-- `fneg(a)`: `a` with its sign bit inverted (R9). -/
def fneg (a : Sample) : Sample := a ^^^ 0x80000000#32

/-- The exact sum of two finite values, rounded once; an exact zero is `-0.0` only when both operands are negative
zeros (R9). -/
def addFinite (sa : Bool) (ma : Nat) (ea : Int) (sb : Bool) (mb : Nat) (eb : Int) : Sample :=
  let e := min ea eb
  let sum := signed sa ma * 2 ^ (ea - e).toNat + signed sb mb * 2 ^ (eb - e).toNat
  if sum = 0 then packSign (sa && sb) 0 else packSign (sum < 0) (roundMagnitude sum.natAbs e)

/-- `fadd(a, b)`: the binary32 nearest `a + b` (R9). -/
def fadd (n : Nat) (a b : Sample) : Sample :=
  match classify a, classify b with
  | .nan, _ => quietNaN n
  | _, .nan => quietNaN n
  | .inf s, .inf t => if s = t then infinity s else quietNaN n
  | .inf s, .finite _ _ _ => infinity s
  | .finite _ _ _, .inf t => infinity t
  | .finite sa ma ea, .finite sb mb eb => addFinite sa ma ea sb mb eb

/-- `fsub(a, b)`: the binary32 nearest `a - b` (R9). -/
def fsub (n : Nat) (a b : Sample) : Sample := fadd n a (fneg b)

/-- `fmul(a, b)`: the binary32 nearest `a * b` (R9). -/
def fmul (n : Nat) (a b : Sample) : Sample :=
  match classify a, classify b with
  | .nan, _ => quietNaN n
  | _, .nan => quietNaN n
  | .inf s, .inf t => infinity (s ^^ t)
  | .inf s, .finite t m _ => if m = 0 then quietNaN n else infinity (s ^^ t)
  | .finite s m _, .inf t => if m = 0 then quietNaN n else infinity (s ^^ t)
  | .finite sa ma ea, .finite sb mb eb => packSign (sa ^^ sb) (roundMagnitude (ma * mb) (ea + eb))

/-- The quotient `ma / mb` to 64 more bits than the integers have, with a last bit that is 1 when the division leaves
a remainder: enough for one correct rounding. -/
def quotient (ma mb : Nat) : Nat :=
  2 * (ma * 2 ^ 64 / mb) + if ma * 2 ^ 64 % mb = 0 then 0 else 1

/-- `fdiv(a, b)`: the binary32 nearest `a / b` (R9). -/
def fdiv (n : Nat) (a b : Sample) : Sample :=
  match classify a, classify b with
  | .nan, _ => quietNaN n
  | _, .nan => quietNaN n
  | .inf _, .inf _ => quietNaN n
  | .inf s, .finite t _ _ => infinity (s ^^ t)
  | .finite s _ _, .inf t => packSign (s ^^ t) 0
  | .finite sa ma ea, .finite sb mb eb =>
    if mb = 0 then
      if ma = 0 then quietNaN n else infinity (sa ^^ sb)
    else packSign (sa ^^ sb) (roundMagnitude (quotient ma mb) (ea - eb - 65))

/-- `i2f(i)`: the binary32 nearest the int32 `i` (R10). -/
def i2f (i : BitVec 32) : Sample := packSign i.msb (roundMagnitude i.toInt.natAbs 0)

/-- The integer part of the magnitude `m * 2^e`. -/
def wholePart (m : Nat) (e : Int) : Nat :=
  if 0 ≤ e then m * 2 ^ e.toNat else m / 2 ^ (-e).toNat

/-- The least integer not below the magnitude `m * 2^e`. -/
def ceilPart (m : Nat) (e : Int) : Nat :=
  if 0 ≤ e then m * 2 ^ e.toNat else (m + 2 ^ (-e).toNat - 1) / 2 ^ (-e).toNat

/-- `trunc_i32(x)`: the fraction discarded, toward zero; nothing outside the domain of R10. -/
def truncI32 (x : Sample) : Option (BitVec 32) :=
  match classify x with
  | .finite neg m e =>
    if wholePart m e < 2 ^ 31 then some (BitVec.ofInt 32 (signed neg (wholePart m e))) else none
  | .inf _ => none
  | .nan => none

/-- `floor_i32(x)`: the greatest int32 not above `x`; nothing outside the domain of R10. -/
def floorI32 (x : Sample) : Option (BitVec 32) :=
  match classify x with
  | .finite neg m e =>
    if wholePart m e < 2 ^ 31 then
      some (BitVec.ofInt 32 (signed neg (if neg then ceilPart m e else wholePart m e)))
    else none
  | .inf _ => none
  | .nan => none

end Machine
end Sys2Proof
end

