-- ==== Sys2Proof/Machine/Operands.lean ====
section
/-! DEFINITION. Sys2Proof/Machine/Operands.lean: what a stage word's fields select: the instance tables of
spec/30_encoding.md R102 and the parameters they lead to; and the sizes a ring gets from the parameters at a sample rate
(spec/43_ring_delay.md R171, R174; spec/40_lifecycle_allocator.md R133). -/

namespace Sys2Proof
namespace Machine

/-- `DLY` and `TAP` unit to ring (R102). -/
def dlyOperand (unit : Nibble) : Option RingId :=
  match unit.toNat with
  | 0 => some 5
  | 1 => some 7
  | 2 => some 9
  | 3 => some 11
  | _ => none

/-- `HSH` unit to filter instance (R102). -/
def hshOperand (unit : Nibble) : Option (Fin 2) :=
  match unit.toNat with
  | 0 => some 0
  | 1 => some 1
  | _ => none

/-- The binary32 product `sample_rate × seconds` of R171 and R174. Its draw number never matters: a product that is a
NaN is not admitted (R133) and has no conversion (R10), whatever its payload. -/
def rateProduct (rate seconds : Sample) : Sample := fmul 0 rate seconds

/-- The least integer not below a binary32; 0 for one at or below 0 (R171: such a product gives capacity 1). -/
def ceilNat (x : Sample) : Nat :=
  match classify x with
  | .finite neg m e => if neg then 0 else ceilPart m e
  | .inf _ => 0
  | .nan => 0

/-- The least power of two not below `n`, at least 1 (R171). -/
def leastPowerOfTwo (n : Nat) : Nat := if n ≤ 1 then 1 else 2 ^ (Nat.log2 (n - 1) + 1)

/-- `Capacity(sr, maxd)` (R171). -/
def capacityOf (rate maxDelayS : Sample) : Nat := leastPowerOfTwo (ceilNat (rateProduct rate maxDelayS))

/-- `DelaySamples(sr, d)` (R174). -/
def delaySamplesOf (rate delayS : Sample) : Option (BitVec 32) := truncI32 (rateProduct rate delayS)

/-- The binary32 is finite and above 0. -/
def isPositive (x : Sample) : Bool :=
  match classify x with
  | .finite neg m _ => !neg && m != 0
  | .inf _ => false
  | .nan => false

/-- The binary32 is finite and at most `bound`. -/
def atMost (x : Sample) (bound : Nat) : Bool :=
  match classify x with
  | .finite neg m e => neg || ceilPart m e ≤ bound
  | .inf _ => false
  | .nan => false

end Machine

open Machine

/-- The Topology row of a ring (R6). -/
def Params.row (p : Params) (r : RingId) : RingRow := p.topology.rings[r]

/-- `AP` unit to ring and coefficient (R102, R190). -/
def Params.apOperand (p : Params) (unit : Nibble) : Option (RingId × Sample) :=
  match unit.toNat with
  | 0 => some (0, p.topology.apK[0])
  | 1 => some (1, p.topology.apK[1])
  | 2 => some (2, p.topology.apK[2])
  | 3 => some (3, p.topology.apK[3])
  | 4 => some (6, p.topology.apK[4])
  | 5 => some (10, p.topology.apK[5])
  | _ => none

/-- `VAP` unit to ring and coefficient (R102). -/
def Params.vapOperand (p : Params) (unit : Nibble) : Option (RingId × Sample) :=
  match unit.toNat with
  | 0 => some (4, p.topology.vapK[0])
  | 1 => some (8, p.topology.vapK[1])
  | _ => none

/-- `C[KI]` (R7, R102). -/
def Params.constOperand (p : Params) (ki : Nibble) : Option Sample := p.topology.consts[ki.toNat]?

/-- `T[KI]` (R7, R102). -/
def Params.tapOperand (p : Params) (ki : Nibble) : Option TapRow := p.topology.taps[ki.toNat]?

/-- The word an address names: the low `DM_ADDR_W` bits of it (R5, R60). -/
def Params.wordAddress (p : Params) (a : BitVec 32) : Nat := a.toNat % 2 ^ p.dmAddrW

/-- How many words a region can lie in: `2^DM_ADDR_W` (R60), of which the 32 bits of `BASE` (R96) reach `2^32`. -/
def Params.addressSpace (p : Params) : Nat := 2 ^ min p.dmAddrW 32

/-- The admitted sample rates (R133): finite, above 0, and `fmul(sample_rate, max_delay_s[r]) ≤ 2^CAP_MAX_LOG2` for
every ring. -/
def Params.admittedRate (p : Params) (rate : Sample) : Bool :=
  isPositive rate && allRings.all fun r => atMost (rateProduct rate (p.row r).maxDelayS) (2 ^ p.capMaxLog2)

/-- The capacity of a ring at a sample rate (R133, R171). -/
def Params.ringCapacity (p : Params) (rate : Sample) (r : RingId) : Nat := capacityOf rate (p.row r).maxDelayS

/-- The delay of a ring in samples at a sample rate (R133, R174). -/
def Params.ringDelaySamples (p : Params) (rate : Sample) (r : RingId) : Option (BitVec 32) :=
  delaySamplesOf rate (p.row r).delayS

end Sys2Proof
end

