-- ==== Sys2Proof/Machine/Ops.lean ====
section
/-! DEFINITION. Sys2Proof/Machine/Ops.lean: the named operations the meanings share: the delay memory, the wires, the
ring primitives, the allocator port, the response port, and taking the one exception, AllocationFailed. -/

namespace Sys2Proof
namespace Machine

/-- How an instruction ends. -/
abbrev Result := Host.Outcome State Fault Refusal

/-! ### Delay memory (spec/20_memory.md) -/

/-- What a word address that is not listed reads as: `+0.0` (assumption log 4). -/
def unlisted : Sample := plusZero

/-- The word at an address. -/
def DelayMemory.read : DelayMemory → Nat → Sample
  | [], _ => unlisted
  | (k, v) :: rest, a => if k = a then v else DelayMemory.read rest a

/-- The cells from address `a` on with `v` put at `a`; no cell is listed with the unlisted value. -/
def DelayMemory.put (a : Nat) (v : Sample) (rest : DelayMemory) : DelayMemory :=
  if v = unlisted then rest else (a, v) :: rest

/-- The memory with the word `v` stored at an address, in canonical form. -/
def DelayMemory.write : DelayMemory → Nat → Sample → DelayMemory
  | [], a, v => DelayMemory.put a v []
  | (k, w) :: rest, a, v =>
    if a < k then DelayMemory.put a v ((k, w) :: rest)
    else if a = k then DelayMemory.put a v rest
    else (k, w) :: DelayMemory.write rest a v

/-- The memory with `n` words from address `a` on cleared to `+0.0`: the zero-fill of CONSTRUCT (R133). -/
def DelayMemory.zeroFill (m : DelayMemory) (a n : Nat) : DelayMemory :=
  m.filter fun c => !(a ≤ c.1 && c.1 < a + n)

/-- The canonical form: addresses at or above `low`, strictly rising, below 2^32, and no cell with the unlisted value. -/
def DelayMemory.wfFrom : DelayMemory → Nat → Bool
  | [], _ => true
  | (k, v) :: rest, low => low ≤ k && k < 2 ^ 32 && v != unlisted && DelayMemory.wfFrom rest (k + 1)

/-- The canonical form of the delay memory. -/
def Memory.wf (m : DelayMemory) : Bool := DelayMemory.wfFrom m 0

/-- `MemRead(addr, 4)` (R11): the word at a word address. -/
def State.memRead (s : State) (a : BitVec 32) : Sample := DelayMemory.read s.dm (s.params.wordAddress a)

/-- `MemWrite(addr, 4, v)` (R11): the store of one word at a word address. -/
def State.memWrite (s : State) (a : BitVec 32) (v : Sample) : State :=
  { s with dm := DelayMemory.write s.dm (s.params.wordAddress a) v }

/-! ### Wires and the stage counter -/

/-- `w[i]` (R11, R21): none where the wire holds no value (R37). -/
def State.wire (s : State) (i : Nibble) : Option Sample := s.wires[i.toNat]'(i.isLt)

/-- `w[i] <- v` (R11). -/
def State.setWire (s : State) (i : Nibble) (v : Sample) : State :=
  { s with wires := s.wires.set i.toNat (some v) i.isLt }

/-- Every wire without a value (R37). -/
def noWires : Vector (Option Sample) 16 := Vector.replicate 16 none

/-- A stage's read of a source wire: the stage goes on with the value, or the model faults naming the slot (R37). -/
def State.withWire (s : State) (i : Nibble) (next : Sample → Result) : Result :=
  match s.wire i with
  | some v => next v
  | none => .fault (.wireHoldsNoValue s.spc i)

/-- `spc <- spc + 1` (R22), the end of every stage but `END`. -/
def State.advance (s : State) : State := { s with spc := s.spc + 1#6 }

/-- `n` draws of free values made. -/
def State.drawn (s : State) (n : Nat) : State := { s with draws := s.draws + n }

/-! ### Rings (spec/43_ring_delay.md) -/

/-- A ring's descriptor. -/
def State.ring (s : State) (r : RingId) : Ring := s.rings[r]

/-- A ring's descriptor replaced. -/
def State.setRing (s : State) (r : RingId) (d : Ring) : State := { s with rings := s.rings.set r d }

/-- `EA(r, i) = ring[r].base + (i & ring[r].mask)` (R62). -/
def Ring.address (d : Ring) (i : BitVec 32) : BitVec 32 := d.base + (i &&& d.mask)

/-- `RingRead(r, i)` (R172). -/
def State.ringRead (s : State) (r : RingId) (i : BitVec 32) : Sample := s.memRead ((s.ring r).address i)

/-- The address `RingWriteAdvance` stores to: `ring[r].base + ring[r].cursor` (R173). -/
def Ring.writeAddress (d : Ring) : BitVec 32 := d.base + d.cursor

/-- `ring[r].cursor <- (ring[r].cursor + 1) & ring[r].mask` (R173). -/
def Ring.advanced (d : Ring) : Ring := { d with cursor := (d.cursor + 1#32) &&& d.mask }

/-- `RingWriteAdvance(r, v)` (R173): write, then advance. -/
def State.ringWriteAdvance (s : State) (r : RingId) (v : Sample) : State :=
  (s.memWrite (s.ring r).writeAddress v).setRing r (s.ring r).advanced

/-! ### The response port -/

/-- The response word `HR = CODE ++ LEFT ++ RIGHT` (R93). -/
def responseWord (code : Nibble) (left right : BitVec 32) : ResponseWord := code ++ left ++ right

/-- The response sent to the host. -/
def State.respond (s : State) (code : Nibble) (left right : BitVec 32) : State :=
  { s with hostResponse := some (responseWord code left right) }

/-! ### The allocator port (spec/40_lifecycle_allocator.md) -/

/-- The region a base and a size in bytes stand for: `size/4` words (R130). -/
def regionOf (base size : BitVec 32) : Region := ⟨base, size.toNat / 4⟩

/-- Two regions share no word. -/
def Region.disjoint (a b : Region) : Bool :=
  a.base.toNat + a.words ≤ b.base.toNat || b.base.toNat + b.words ≤ a.base.toNat

/-- The allocator contract (R61, R132): a granted region lies in the address space of `space` words and shares no word,
and no base, with any region granted and not yet freed. -/
def grantable (space : Nat) (live : List Region) (g : Region) : Bool :=
  g.base.toNat + g.words ≤ space && live.all fun h => g.disjoint h && g.base != h.base

/-- What the allocator proposes next: the head of its coming answers, or a free choice when none is listed. -/
def State.allocProposal (s : State) : Option (BitVec 32) :=
  match s.allocQueue with
  | c :: _ => c
  | [] => Config.allocChoice s.draws

/-- The allocator's answer to `ALLOC size`: the proposed base if its contract lets it grant that region, else the
null result (R130, R132). -/
def State.allocAnswer (s : State) (size : BitVec 32) : Option (BitVec 32) :=
  match s.allocProposal with
  | some base => if grantable s.params.addressSpace s.live (regionOf base size) then some base else none
  | none => none

/-- The answer word `AR` (R96); `BASE` has no meaning in a null result, and is then a free value. -/
def answerWord (n : Nat) : Option (BitVec 32) → AllocWord
  | some base => 1#1 ++ base
  | none => 0#1 ++ Config.unspecifiedWord n

/-- `ALLOC size` with its answer (R130): the live set, the traffic and the answers still to come. -/
def State.allocate (s : State) (size : BitVec 32) : State :=
  { s with
    live := match s.allocAnswer size with
      | some base => regionOf base size :: s.live
      | none => s.live
    allocTraffic := s.allocTraffic ++ [⟨allocWordOf 0#1 size, some (answerWord s.draws (s.allocAnswer size))⟩]
    allocQueue := s.allocQueue.tail
    draws := s.draws + 1 }

/-- A region with this base is held (R131). -/
def State.holds (s : State) (base : BitVec 32) : Bool := s.live.any (·.base == base)

/-- `FREE base` (R131): the region returns to the allocator; there is no answer. Of a base that no held region has the
spec states no result: no region returns, and what the allocator will answer from then on is a free value (assumption
log 10). -/
def State.release (s : State) (base : BitVec 32) : State :=
  { s with
    live := s.live.eraseP (·.base == base)
    allocTraffic := s.allocTraffic ++ [⟨allocWordOf 1#1 base, none⟩]
    allocQueue := if s.holds base then s.allocQueue else Config.answersAfterFree s.draws
    draws := if s.holds base then s.draws else s.draws + 1 }

/-- `FREE(ring[j].base)` for the listed rings in order: the clean-up of a failed CONSTRUCT (R133) and the loop of DESTROY
(R135). -/
def State.releaseRings (s : State) : List RingId → State
  | [] => s
  | r :: rs => State.releaseRings (s.release (s.ring r).base) rs

/-! ### Unspecified component state and the exception -/

/-- The ring descriptor whose six fields are unspecified (R36), from draw number `n` on. -/
def Ring.unspecified (n : Nat) : Ring where
  base := Config.unspecifiedWord n
  capacity := Config.unspecifiedWord (n + 1)
  mask := Config.unspecifiedWord (n + 2)
  cursor := Config.unspecifiedWord (n + 3)
  delayS := Config.unspecifiedWord (n + 4)
  delaySamples := Config.unspecifiedWord (n + 5)

/-- The port latches unspecified (R33, R36): after every CONSTRUCT and after DESTROY. -/
def State.latchesUnspecified (s : State) : State :=
  { s with
    inLatch := Config.unspecifiedWord s.draws
    outL := Config.unspecifiedWord (s.draws + 1)
    outR := Config.unspecifiedWord (s.draws + 2)
    draws := s.draws + 3 }

/-- Every component state unspecified (R36, U14): oscillator, filters, ring descriptors, `fb`, latches. -/
def State.componentsUnspecified (s : State) : State :=
  { s.latchesUnspecified with
    lfo := ⟨Config.unspecifiedWord (s.draws + 3), Config.unspecifiedWord (s.draws + 4),
      Config.unspecifiedWord (s.draws + 5)⟩
    dcb := ⟨Config.unspecifiedWord (s.draws + 6), Config.unspecifiedWord (s.draws + 7)⟩
    hsh := #v[Config.unspecifiedWord (s.draws + 8), Config.unspecifiedWord (s.draws + 9)]
    fb := Config.unspecifiedWord (s.draws + 10)
    rings := Vector.ofFn fun r => Ring.unspecified (s.draws + 11 + 6 * r.val)
    draws := s.draws + 83 }

/-- `raise AllocationFailed(r)` (R251, R257), the unit's one exception, after its clean-up: `AF`, `AFRING` and `RDY`,
`LS = EMPTY`, `spc = 0`, wires without a value, component state unspecified, and control back to the host with
`CODE = 1` and the ring id. -/
def State.raiseAllocationFailed (s : State) (r : RingId) : State :=
  ({ (s.flagsFailed r).componentsUnspecified with spc := 0#6, wires := noWires }).respond 1#4 0#32
    (BitVec.ofNat 32 r.val)

end Machine
end Sys2Proof
end

