-- ==== Sys2Proof/Machine/Delay.lean ====
section
/-! DEFINITION. Sys2Proof/Machine/Delay.lean: the fixed delay line and its taps (spec/43_ring_delay.md): DLY and TAP. -/

namespace Sys2Proof
namespace Machine

/-- The fixed read index `cursor - delay_samples` (R176, R191). -/
def Ring.delayIndex (d : Ring) : BitVec 32 := d.cursor - d.delaySamples

/-- The tap read index `cursor - capacity - ts` (R178). -/
def Ring.tapIndex (d : Ring) (ts : BitVec 32) : BitVec 32 := d.cursor - d.capacity - ts

/-- `ts = trunc_i32(fmul(SAMPLE_RATE, offset_s))` (R178); draw `n`. -/
def tapSamples (n : Nat) (rate offsetS : Sample) : Option (BitVec 32) := truncI32 (fmul n rate offsetS)

/-- The accumulated word `fadd(acc, fmul(gain, v))` (R178); draws `n` and `n + 1`. -/
def tapOutput (n : Nat) (acc gain v : Sample) : Sample := fadd (n + 1) acc (fmul n gain v)

/-- `DLY.u wd, wa` (R176): the read comes before the write. -/
def execDly (unit rd ra : Nibble) (s : State) : Result :=
  match dlyOperand unit with
  | some r =>
    s.withWire ra fun x =>
      .next (((s.ringWriteAdvance r x).setWire rd (s.ringRead r (s.ring r).delayIndex)).advance)
  | none => .refused (.reservedEncoding .indexOutOfRange)

/-- `TAP.u wd, #ki` (R178): the accumulator wire is read and written; the ring is only read. Where the accumulator wire
holds no value AND `ts` is undefined both stops apply and the spec names no first one: the model takes the wire's fault,
its own choice (assumption log 23). -/
def execTap (unit rd ki : Nibble) (s : State) : Result :=
  match dlyOperand unit, s.params.tapOperand ki with
  | some r, some t =>
    s.withWire rd fun acc =>
      match tapSamples s.draws s.sampleRate t.offsetS with
      | some ts =>
        let v := s.ringRead r ((s.ring r).tapIndex ts)
        .next (((s.setWire rd (tapOutput (s.draws + 1) acc t.gain v)).drawn 3).advance)
      | none => .refused .conversionUndefined
  | _, _ => .refused (.reservedEncoding .indexOutOfRange)

end Machine
end Sys2Proof
end

