-- ==== Sys2Proof/Machine/Allpass.lean ====
section
/-! DEFINITION. Sys2Proof/Machine/Allpass.lean: the Schroeder allpass and the modulated allpass with its interpolator
(spec/44_allpass.md): AP and VAP. -/

namespace Sys2Proof
namespace Machine

/-- The word an allpass stores, `w = x + k * d` (R191); draws `n` and `n + 1`. -/
def allpassWritten (n : Nat) (k x d : Sample) : Sample := fadd (n + 1) x (fmul n k d)

/-- An allpass's output, `-k * w + d` (R191); draws `n` and `n + 1`. -/
def allpassOutput (n : Nat) (k w d : Sample) : Sample := fadd (n + 1) (fmul n (fneg k) w) d

/-- `ReadPosition(r, offset)` (R193); draws `n` to `n + 2`. -/
def readPosition (n : Nat) (d : Ring) (offset rate : Sample) : Sample :=
  fsub (n + 2) (i2f d.cursor) (fmul (n + 1) (fadd n d.delayS offset) rate)

/-- The blend of the four cells around the position (R194): linear between the two middle ones; the outer two are read
and not used (R195). Draws `n` to `n + 2`. -/
def blend (n : Nat) (_y0 y1 y2 _y3 frac : Sample) : Sample :=
  fadd (n + 2) y1 (fmul (n + 1) frac (fsub n y2 y1))

/-- `Interpolate(r, pos)` where `i = floor_i32(pos)` (R194); draws `n` to `n + 3`. -/
def State.interpolate (s : State) (n : Nat) (r : RingId) (pos : Sample) (i : BitVec 32) : Sample :=
  let frac := fsub n pos (i2f i)
  blend (n + 1) (s.ringRead r (i - 1#32)) (s.ringRead r i) (s.ringRead r (i + 1#32)) (s.ringRead r (i + 2#32)) frac

/-- The end of both allpass stages: from the input `x` and the delayed word `d`, the write, the advance and the
output (R191, R196); draws `n` to `n + 3`. -/
def State.allpass (s : State) (n : Nat) (r : RingId) (k x d : Sample) (rd : Nibble) : State :=
  let w := allpassWritten n k x d
  (s.ringWriteAdvance r w).setWire rd (allpassOutput (n + 2) k w d)

/-- `AP.u wd, wa` (R191). -/
def execAp (unit rd ra : Nibble) (s : State) : Result :=
  match s.params.apOperand unit with
  | some (r, k) =>
    s.withWire ra fun x =>
      .next (((s.allpass s.draws r k x (s.ringRead r (s.ring r).delayIndex) rd).drawn 4).advance)
  | none => .refused (.reservedEncoding .indexOutOfRange)

/-- `VAP.u wd, wa, wb` (R196): all reads before the write; refused where the floor of the position is undefined. -/
def execVap (unit rd ra rb : Nibble) (s : State) : Result :=
  match s.params.vapOperand unit with
  | some (r, k) =>
    s.withWire ra fun x =>
      s.withWire rb fun offset =>
        let pos := readPosition s.draws (s.ring r) offset s.sampleRate
        match floorI32 pos with
        | some i =>
          let d := s.interpolate (s.draws + 3) r pos i
          .next (((s.allpass (s.draws + 7) r k x d rd).drawn 11).advance)
        | none => .refused .conversionUndefined
  | none => .refused (.reservedEncoding .indexOutOfRange)

end Machine
end Sys2Proof
end

