-- ==== Sys2Proof/Machine/Allocator.lean ====
section
/-! DEFINITION. Sys2Proof/Machine/Allocator.lean: the two allocator requests (spec/40_lifecycle_allocator.md): ALLOC and
FREE, as the external allocator serves them, and their use by CONSTRUCT and DESTROY. -/

namespace Sys2Proof
namespace Machine

/-- `ALLOC size` (R130): a region is granted, or the null result is answered. -/
def execAlloc (size : BitVec 32) (s : State) : Result := .next (s.allocate size)

/-- `FREE base` (R131): the region returns to the allocator; there is no answer. -/
def execFree (base : BitVec 32) (s : State) : Result := .next (s.release base)

/-- The size in bytes CONSTRUCT requests for a ring: `4 * capacity` (R133). -/
def State.ringBytes (s : State) (r : RingId) : BitVec 32 :=
  BitVec.ofNat 32 (4 * s.params.ringCapacity s.sampleRate r)

/-- A granted ring set up: its descriptor, and every cell `+0.0` (R133). -/
def State.installRing (s : State) (r : RingId) (base delaySamples : BitVec 32) : State :=
  let capacity := s.params.ringCapacity s.sampleRate r
  let d : Ring :=
    { base := base
      capacity := BitVec.ofNat 32 capacity
      mask := BitVec.ofNat 32 capacity - 1#32
      cursor := 0#32
      delayS := (s.params.row r).delayS
      delaySamples := delaySamples }
  { s.setRing r d with dm := DelayMemory.zeroFill s.dm (s.params.wordAddress base) capacity }

/-- How the loop of CONSTRUCT over the rings ends. -/
inductive Granting where
  /-- Every ring is granted and set up. -/
  | built (s : State)
  /-- The request of ring `r` was refused, and the rings before it are released. -/
  | refusedAt (r : RingId) (s : State)
  /-- A granted ring's delay in samples has no defined value (R10). -/
  | undefined
deriving DecidableEq, Repr

/-- The loop of CONSTRUCT over the listed rings (R133). `done` lists the rings granted so far, the last one first: the
order in which a refused request releases them. -/
def grantRings : List RingId → List RingId → State → Granting
  | [], _, s => .built s
  | r :: rs, done, s =>
    match s.allocAnswer (s.ringBytes r) with
    | none => .refusedAt r ((s.allocate (s.ringBytes r)).releaseRings done)
    | some base =>
      match s.params.ringDelaySamples s.sampleRate r with
      | some ds => grantRings rs (r :: done) ((s.allocate (s.ringBytes r)).installRing r base ds)
      | none => .undefined

end Machine
end Sys2Proof
end

