-- ==== Sys2Proof/Machine/Oscillator.lean ====
section
/-! DEFINITION. Sys2Proof/Machine/Oscillator.lean: the quadrature oscillator (spec/41_lfo.md): set-frequency, a step of
CONSTRUCT, and the stage LFO. -/

namespace Sys2Proof
namespace Machine

/-- `SetFrequency(f, sr) = fdiv(fmul(TWOPI, f), sr)` (R150); draws `n` and `n + 1`. -/
def setFrequency (n : Nat) (twoPi f sr : Sample) : Sample := fdiv (n + 1) (fmul n twoPi f) sr

/-- One oscillator step, the sine from the NEW cosine (R152); draws `n` to `n + 3`. -/
def lfoStep (n : Nat) (o : Lfo) : Lfo :=
  let c := fsub (n + 1) o.cos (fmul n o.k o.sin)
  let s := fadd (n + 3) o.sin (fmul (n + 2) o.k c)
  { k := o.k, cos := c, sin := s }

/-- `LFO wd, wd2` (R152): the cosine is written first, then the sine (R105). -/
def execLfo (rd rb : Nibble) (s : State) : Result :=
  let o := lfoStep s.draws s.lfo
  .next (((({ s with lfo := o }.setWire rd o.cos).setWire rb o.sin).drawn 4).advance)

end Machine
end Sys2Proof
end

