-- ==== Sys2Proof/Machine/Commands.lean ====
section
/-! DEFINITION. Sys2Proof/Machine/Commands.lean: the six host commands (spec/40_lifecycle_allocator.md): NOP, SETBS,
RDCSR, CONSTRUCT, DESTROY and PROCESS, with the lifecycle table of R140. -/

namespace Sys2Proof
namespace Machine

/-- A command issued while a PROCESS is in progress has no meaning (R141). -/
def State.whenIdle (s : State) (next : Result) : Result :=
  if s.inProgress then .refused .commandInProgress else next

/-- The host's next word does not wait for the response of the command that executes now: it is issued while that
command is in progress. -/
def State.overlapped (s : State) : Bool :=
  match s.hostQueue with
  | h :: _ => !h.waits
  | [] => false

/-- The gate of the commands that take one step, which is all the time they are in progress: two overlapping commands
have no meaning (R141, R290), whether the other one is a PROCESS or the next word of the host (assumption log 12). -/
def State.whenAlone (s : State) (next : Result) : Result :=
  s.whenIdle (if s.overlapped then .refused .commandInProgress else next)

/-- A command that is legal in one lifecycle state only (R140). -/
def State.whenLifecycle (s : State) (ls : Lifecycle) (next : Result) : Result :=
  if s.ls = ls then next else .refused (.protocolViolation s.ls)

/-- `NOP` (R136). -/
def execNop (s : State) : Result := s.whenAlone (.next (s.respond 0#4 0#32 0#32))

/-- `SETBS value` (R137). -/
def execSetbs (value : BitVec 32) (s : State) : Result :=
  s.whenAlone (.next ({ s with bufferSize := value }.respond 0#4 0#32 0#32))

/-- The value of a CSR by number (R94, R138). -/
def State.csr (s : State) (n : Nibble) : Option (BitVec 32) :=
  match n.toNat with
  | 0 => some s.sampleRate
  | 1 => some s.bufferSize
  | 2 => some s.status
  | _ => none

/-- `RDCSR n` (R138). -/
def execRdcsr (n : Nibble) (s : State) : Result :=
  s.whenAlone
    (match s.csr n with
    | some v => .next (s.respond 0#4 0#32 v)
    | none => .refused (.reservedEncoding .reservedCsr))

/-- CONSTRUCT after the last grant (R133): the signal state's initial values, the flags, READY, and the response. The
latches are unspecified then (R36). -/
def State.constructed (s : State) : State :=
  ({ (s.flagsConstructed.latchesUnspecified.drawn 2) with
    lfo := ⟨setFrequency s.draws s.params.twoPi s.params.lfoFreqHz s.sampleRate, oneSample, plusZero⟩
    dcb := ⟨plusZero, plusZero⟩
    hsh := #v[plusZero, plusZero]
    fb := plusZero
    wires := noWires
    spc := 0#6 }).respond 0#4 0#32 0#32

/-- `CONSTRUCT sample_rate` (R133): all twelve rings granted, or AllocationFailed at the first refused one. -/
def execConstruct (rate : Sample) (s : State) : Result :=
  s.whenAlone <| s.whenLifecycle .empty <|
    if s.params.admittedRate rate then
      match grantRings allRings [] { s with sampleRate := rate } with
      | .built t => .next t.constructed
      | .refusedAt r t => .next (t.raiseAllocationFailed r)
      | .undefined => .refused .conversionUndefined
    else .refused .sampleRateNotAdmitted

/-- DESTROY after the last release (R135): `RDY`, EMPTY, `spc`, component state unspecified, and the response. -/
def State.destroyed (s : State) : State :=
  ({ s.flagsDestroyed.componentsUnspecified with spc := 0#6 }).respond 0#4 0#32 0#32

/-- `DESTROY` (R135): every region released, rings 11 to 0. -/
def execDestroy (s : State) : Result :=
  s.whenAlone <| s.whenLifecycle .ready <| .next (s.releaseRings allRings.reverse).destroyed

/-- `PROCESS x` (R139): the operand latched, the wires cleared, and the schedule started at slot 0. The 35 stages are
the steps that follow (R293), and `END` sends the response; a word that overlaps it is refused at one of them. -/
def execProcess (x : Sample) (s : State) : Result :=
  s.whenIdle <| s.whenLifecycle .ready <|
    .next { s with inLatch := x, wires := noWires, spc := 0#6, inProgress := true, hostResponse := none }

end Machine
end Sys2Proof
end

