-- ==== Sys2Proof/Machine/Filters.lean ====
section
/-! DEFINITION. Sys2Proof/Machine/Filters.lean: the tone-shaping filter bank (spec/42_filters.md): DCB and HSH. -/

namespace Sys2Proof
namespace Machine

/-- The DC blocker's output `(x - x1) + (k * y1)` (R161); draws `n` to `n + 2`. -/
def dcbOutput (n : Nat) (k x : Sample) (d : DcBlocker) : Sample :=
  fadd (n + 2) (fsub n x d.x1) (fmul (n + 1) k d.y1)

/-- The HiShelf's output `((1 - k) * x) + (k * x1)` (R163); draws `n` to `n + 3`. -/
def hshOutput (n : Nat) (k x x1 : Sample) : Sample :=
  fadd (n + 3) (fmul (n + 1) (fsub n oneSample k) x) (fmul (n + 2) k x1)

/-- `DCB.u wd, wa` (R161). -/
def execDcb (unit rd ra : Nibble) (s : State) : Result :=
  if unit = 0#4 then
    s.withWire ra fun x =>
      let y := dcbOutput s.draws s.params.dcbK x s.dcb
      .next ((({ s with dcb := ⟨x, y⟩ }.setWire rd y).drawn 3).advance)
  else .refused (.reservedEncoding .indexOutOfRange)

/-- `HSH.u wd, wa` (R163). -/
def execHsh (unit rd ra : Nibble) (s : State) : Result :=
  match hshOperand unit with
  | some u =>
    s.withWire ra fun x =>
      let y := hshOutput s.draws s.params.hshK x s.hsh[u]
      .next ((({ s with hsh := s.hsh.set u x }.setWire rd y).drawn 4).advance)
  | none => .refused (.reservedEncoding .indexOutOfRange)

end Machine
end Sys2Proof
end

