-- ==== Sys2Proof/Machine/Glue.lean ====
section
/-! DEFINITION. Sys2Proof/Machine/Glue.lean: the seven glue stages (spec/45_reverb_unit.md): IN, MULC, ADDF, STF, CLR,
OUT and END. -/

namespace Sys2Proof
namespace Machine

/-- `IN wd` (R210): the word is copied unchanged. -/
def execIn (rd : Nibble) (s : State) : Result := .next ((s.setWire rd s.inLatch).advance)

/-- `MULC wd, wa, #ki` (R211). -/
def execMulc (rd ra ki : Nibble) (s : State) : Result :=
  match s.params.constOperand ki with
  | some c => s.withWire ra fun x => .next (((s.setWire rd (fmul s.draws x c)).drawn 1).advance)
  | none => .refused (.reservedEncoding .indexOutOfRange)

/-- `ADDF wd, wa` (R212): `fb` is read, not changed. -/
def execAddf (rd ra : Nibble) (s : State) : Result :=
  s.withWire ra fun x => .next (((s.setWire rd (fadd s.draws x s.fb)).drawn 1).advance)

/-- `STF wa` (R213): the word is copied unchanged. -/
def execStf (ra : Nibble) (s : State) : Result := s.withWire ra fun x => .next ({ s with fb := x }.advance)

/-- `CLR wd` (R214). -/
def execClr (rd : Nibble) (s : State) : Result := .next ((s.setWire rd plusZero).advance)

/-- `OUT wa, wb` (R215). -/
def execOut (ra rb : Nibble) (s : State) : Result :=
  s.withWire ra fun l => s.withWire rb fun r => .next ({ s with outL := l, outR := r }.advance)

/-- `END` (R216): `spc <- 0`, and the PROCESS in progress completes with its response (R139). `in_latch`, which outside a
PROCESS is any value (U14), and the wires keep what they held: the model's choice (assumption log 18). -/
def execEnd (s : State) : Result :=
  .next ({ s with spc := 0#6, inProgress := false }.respond 0#4 s.outL s.outR)

end Machine
end Sys2Proof
end

