-- ==== Sys2Proof/Machine/Dispatch.lean ====
section
/-! DEFINITION. Sys2Proof/Machine/Dispatch.lean: one arm per instruction, each one call of its meaning. -/

namespace Sys2Proof
namespace Machine

def exec (i : Instr) (s : State) : Host.Outcome State Fault Refusal :=
  match i with
  | .end_ => Sys2Proof.Machine.execEnd s
  | .lfo rd rb => Sys2Proof.Machine.execLfo rd rb s
  | .mulc rd ra ki => Sys2Proof.Machine.execMulc rd ra ki s
  | .addf rd ra => Sys2Proof.Machine.execAddf rd ra s
  | .dcb unit rd ra => Sys2Proof.Machine.execDcb unit rd ra s
  | .hsh unit rd ra => Sys2Proof.Machine.execHsh unit rd ra s
  | .dly unit rd ra => Sys2Proof.Machine.execDly unit rd ra s
  | .ap unit rd ra => Sys2Proof.Machine.execAp unit rd ra s
  | .vap unit rd ra rb => Sys2Proof.Machine.execVap unit rd ra rb s
  | .tap unit rd ki => Sys2Proof.Machine.execTap unit rd ki s
  | .stf ra => Sys2Proof.Machine.execStf ra s
  | .in_ rd => Sys2Proof.Machine.execIn rd s
  | .out ra rb => Sys2Proof.Machine.execOut ra rb s
  | .clr rd => Sys2Proof.Machine.execClr rd s
  | .nop => Sys2Proof.Machine.execNop s
  | .construct rate => Sys2Proof.Machine.execConstruct rate s
  | .process x => Sys2Proof.Machine.execProcess x s
  | .destroy => Sys2Proof.Machine.execDestroy s
  | .setbs value => Sys2Proof.Machine.execSetbs value s
  | .rdcsr n => Sys2Proof.Machine.execRdcsr n s
  | .alloc size => Sys2Proof.Machine.execAlloc size s
  | .free base => Sys2Proof.Machine.execFree base s

end Machine
end Sys2Proof
end

