-- ==== Sys2Proof/Machine/Fetch.lean ====
section
/-! DEFINITION. Sys2Proof/Machine/Fetch.lean: where the next instruction word comes from: an outstanding allocator
request, the next host command, or the schedule ROM at `spc` (spec/20_memory.md R60, spec/45_reverb_unit.md R239). -/

namespace Sys2Proof
namespace Machine

/-- What the unit takes next. -/
inductive Fetched where
  /-- A word, and the state once it is taken. -/
  | word (w : PortWord) (s : State)
  /-- Nothing to do: the unit waits for a host command (R280). -/
  | waiting
  /-- A PROCESS is in progress at a slot that does not exist (R22). -/
  | noSlot (slot : BitVec 6)
deriving DecidableEq, Repr

/-- The stage word at `spc` (R106); slots 35 to 63 do not exist (R22). -/
def State.stageWord (s : State) : Option StageWord := s.rom[s.spc.toNat]?

/-- The host command issued now: the next one, unless it waits for a response that is still due (R141). One that does not
wait is taken while the PROCESS is in progress, and refused by its meaning; one that overlaps a command of one step is
refused together with it (`State.whenAlone`). -/
def State.hostIssue (s : State) : Option HostIssue :=
  match s.hostQueue with
  | h :: _ => if s.inProgress && h.waits then none else some h
  | [] => none

/-- A host command taken from the port: no response yet, and nothing passed on the allocator port. -/
def State.takeHost (s : State) : State :=
  { s with hostQueue := s.hostQueue.tail, hostResponse := none, allocTraffic := [] }

/-- An outstanding allocator request taken from the port. -/
def State.takeRequest (s : State) : State := { s with allocRequest := none }

/-- The next word: an outstanding allocator request first, then a host command, then the stage at `spc` while a
PROCESS is in progress. -/
def State.fetch (s : State) : Fetched :=
  match s.allocRequest with
  | some w => .word (.alloc w) s.takeRequest
  | none =>
    match s.hostIssue with
    | some h => .word (.host h.word) s.takeHost
    | none =>
      if s.inProgress then
        match s.stageWord with
        | some w => .word (.stage w) s
        | none => .noSlot s.spc
      else .waiting

/-- The slot a stage word is put in so that it is fetched next: `spc`, or slot 0 where `spc` names no slot. -/
def State.fetchSlot (s : State) : Fin 35 := if h : s.spc.toNat < 35 then ⟨s.spc.toNat, h⟩ else 0

/-- The coming commands, each one waiting for the response before it (R141). -/
def State.waitingQueue (s : State) : List HostIssue := s.hostQueue.map fun h => { h with waits := true }

/-- The state with a word placed where the fetch takes it next (assumption log 13). -/
def State.placeWord (s : State) : PortWord → State
  | .alloc w => { s with allocRequest := some w }
  | .host w =>
    { s with hostQueue := ⟨w, true⟩ :: s.waitingQueue, allocRequest := none, inProgress := false }
  | .stage w =>
    { s with
      rom := s.rom.set s.fetchSlot w
      spc := BitVec.ofNat 6 s.fetchSlot.val
      inProgress := true
      allocRequest := none
      hostQueue := s.waitingQueue }

end Machine
end Sys2Proof
end

