-- ==== Sys2Proof/Machine/Step.lean ====
section
/-! DEFINITION. Sys2Proof/Machine/Step.lean: one step: fetch, decode, execute (spec/45_reverb_unit.md R239). -/

namespace Sys2Proof
namespace Machine

/-- One step of the machine. A reserved word is refused (R95, R105); with nothing to do the unit waits (R280). -/
def step (s : State) : Host.Outcome State Fault Refusal :=
  match s.fetch with
  | .word w t =>
    match decode w with
    | .ok i => exec i t
    | .error e => .refused (.reservedEncoding e)
  | .waiting => .next s
  | .noSlot slot => .fault (.slotDoesNotExist slot)

/-- The state with a word of spec/opcode_table.json placed where `step` fetches its next instruction. -/
def State.withFetchWord (s : State) (nbits w : Nat) : State :=
  match portWordOfTable nbits w with
  | some p => s.placeWord p
  | none => s

end Machine
end Sys2Proof
end

