-- ==== Sys2Proof/Machine/PerSample.lean ====
section
/-! DEFINITION. Sys2Proof/Machine/PerSample.lean: one run of the schedule written as one function, as
spec/45_reverb_unit.md R230 writes it: no wires, no stage counter, no stage words. Statements compare the 35 small
steps with it (R293); no meaning of an instruction uses it. -/

namespace Sys2Proof
namespace Machine

/-- The signal state one run of the schedule reads and changes (R139), with the draw counter. -/
structure Signal where
  lfo : Lfo
  dcb : DcBlocker
  hsh : Vector Sample 2
  rings : Vector Ring 12
  dm : DelayMemory
  fb : Sample
  draws : Nat
deriving DecidableEq, Repr

/-- The signal part of a state. -/
def State.signal (s : State) : Signal := ⟨s.lfo, s.dcb, s.hsh, s.rings, s.dm, s.fb, s.draws⟩

/-- `n` draws made. -/
def Signal.drawn (g : Signal) (n : Nat) : Signal := { g with draws := g.draws + n }

/-- `RingRead(r, i)` (R172). -/
def Signal.read (p : Params) (g : Signal) (r : RingId) (i : BitVec 32) : Sample :=
  DelayMemory.read g.dm (p.wordAddress ((g.rings[r]).address i))

/-- `RingWriteAdvance(r, v)` (R173). -/
def Signal.writeAdvance (p : Params) (g : Signal) (r : RingId) (v : Sample) : Signal :=
  { g with
    dm := DelayMemory.write g.dm (p.wordAddress (g.rings[r]).writeAddress) v
    rings := g.rings.set r (g.rings[r]).advanced }

/-- `LfoStep()` (R230, R152). -/
def Signal.lfoStep (g : Signal) : (Sample × Sample) × Signal :=
  let o := Sys2Proof.Machine.lfoStep g.draws g.lfo
  ((o.cos, o.sin), { g with lfo := o }.drawn 4)

/-- The product with a constant, `fmul(v, c)`. -/
def Signal.scale (g : Signal) (v c : Sample) : Sample × Signal := (fmul g.draws v c, g.drawn 1)

/-- `Ap(r, v)` (R230, R191), with the ring's coefficient. -/
def Signal.ap (p : Params) (g : Signal) (r : RingId) (k v : Sample) : Sample × Signal :=
  let d := g.read p r (g.rings[r]).delayIndex
  let w := allpassWritten g.draws k v d
  (allpassOutput (g.draws + 2) k w d, (g.writeAdvance p r w).drawn 4)

/-- `Vap(r, v, off)` (R230, R196), with the ring's coefficient; nothing where the floor is undefined. -/
def Signal.vap (p : Params) (rate : Sample) (g : Signal) (r : RingId) (k v off : Sample) : Option (Sample × Signal) :=
  let pos := readPosition g.draws g.rings[r] off rate
  (floorI32 pos).map fun i =>
    let frac := fsub (g.draws + 3) pos (i2f i)
    let d := blend (g.draws + 4) (g.read p r (i - 1#32)) (g.read p r i) (g.read p r (i + 1#32))
      (g.read p r (i + 2#32)) frac
    let w := allpassWritten (g.draws + 7) k v d
    (allpassOutput (g.draws + 9) k w d, (g.writeAdvance p r w).drawn 11)

/-- `Dly(r, v)` (R230, R176). -/
def Signal.dly (p : Params) (g : Signal) (r : RingId) (v : Sample) : Sample × Signal :=
  (g.read p r (g.rings[r]).delayIndex, g.writeAdvance p r v)

/-- `Dcb(v)` (R230, R161). -/
def Signal.dcBlock (p : Params) (g : Signal) (v : Sample) : Sample × Signal :=
  let y := dcbOutput g.draws p.dcbK v g.dcb
  (y, { g with dcb := ⟨v, y⟩ }.drawn 3)

/-- `Hsh(u, v)` (R230, R163). -/
def Signal.shelf (p : Params) (g : Signal) (u : Fin 2) (v : Sample) : Sample × Signal :=
  (hshOutput g.draws p.hshK v g.hsh[u], { g with hsh := g.hsh.set u v }.drawn 4)

/-- `fadd(v, fb)` (R230, step 3). -/
def Signal.addFeedback (g : Signal) (v : Sample) : Sample × Signal := (fadd g.draws v g.fb, g.drawn 1)

/-- `Tap(r, t, acc)` (R230, R178); nothing where the conversion is undefined. -/
def Signal.tap (p : Params) (rate : Sample) (g : Signal) (r : RingId) (t : TapRow) (acc : Sample) :
    Option (Sample × Signal) :=
  (tapSamples g.draws rate t.offsetS).map fun ts =>
    (tapOutput (g.draws + 1) acc t.gain (g.read p r ((g.rings[r]).tapIndex ts)), g.drawn 3)

/-- The parameters of one tank half (R230, step 5): its rings, the coefficients of its two allpasses, its HiShelf and
its attenuation. -/
structure Half where
  v : RingId
  vK : Sample
  d1 : RingId
  a : RingId
  aK : Sample
  d2 : RingId
  shelf : Fin 2
  att : Sample
deriving DecidableEq, Repr

/-- Half 1: V1, D1, A1, D2, HiShelf 0, ATT1 (R230). -/
def firstHalf (p : Params) : Half :=
  ⟨4, p.topology.vapK[0], 5, 6, p.topology.apK[4], 7, 0, p.topology.consts[2]⟩

/-- Half 2: V2, D3, A2, D4, HiShelf 1, ATT2 (R230). -/
def secondHalf (p : Params) : Half :=
  ⟨8, p.topology.vapK[1], 9, 10, p.topology.apK[5], 11, 1, p.topology.consts[3]⟩

/-- One tank half (R230, step 5): modulated allpass, delay, allpass, delay, HiShelf, attenuation. -/
def Signal.tankHalf (p : Params) (rate : Sample) (g : Signal) (h : Half) (x off : Sample) : Option (Sample × Signal) :=
  (g.vap p rate h.v h.vK x off).map fun q =>
    let q := q.2.dly p h.d1 q.1
    let q := q.2.ap p h.a h.aK q.1
    let q := q.2.dly p h.d2 q.1
    let q := q.2.shelf p h.shelf q.1
    q.2.scale q.1 h.att

/-- One output channel (R230, step 6): four taps, D1 to D4, added up from `+0.0`. -/
def Signal.mix (p : Params) (rate : Sample) (g : Signal) (t1 t2 t3 t4 : TapRow) : Option (Sample × Signal) :=
  (g.tap p rate 5 t1 plusZero).bind fun q =>
    (q.2.tap p rate 7 t2 q.1).bind fun q =>
      (q.2.tap p rate 9 t3 q.1).bind fun q =>
        q.2.tap p rate 11 t4 q.1

/-- The modulation values and the early part (R230, steps 1 to 4): `m1`, `m2` and `b`. -/
def Signal.early (p : Params) (g : Signal) (x : Sample) : (Sample × Sample × Sample) × Signal :=
  let o := g.lfoStep
  let m1 := o.2.scale o.1.1 p.topology.consts[0]
  let m2 := m1.2.scale o.1.2 p.topology.consts[1]
  let q := m2.2.ap p 0 p.topology.apK[0] x
  let q := q.2.ap p 1 p.topology.apK[1] q.1
  let q := q.2.ap p 2 p.topology.apK[2] q.1
  let q := q.2.ap p 3 p.topology.apK[3] q.1
  let q := q.2.addFeedback q.1
  let q := q.2.dcBlock p q.1
  ((m1.1, m2.1, q.1), q.2)

/-- The whole call (R230) of a unit with these parameters at this sample rate: `(left, right)` and the signal state it
leaves. -/
def perSample (p : Params) (rate x : Sample) (g : Signal) : Option ((Sample × Sample) × Signal) :=
  let t := p.topology.taps
  let e := g.early p x
  (e.2.tankHalf p rate (firstHalf p) e.1.2.2 e.1.1).bind fun h1 =>
    (h1.2.tankHalf p rate (secondHalf p) h1.1 e.1.2.1).bind fun h2 =>
      let g : Signal := { h2.2 with fb := h2.1 }
      (g.mix p rate t[0] t[1] t[2] t[3]).bind fun l =>
        (l.2.mix p rate t[4] t[5] t[6] t[7]).map fun r => ((l.1, r.1), r.2)

end Machine
end Sys2Proof
end

