-- ==== Sys2Proof/Safety.lean ====
section
/-! DEFINITION. Sys2Proof/Safety.lean: the terms the statements are written in: the invariant of the unit, frames, the
real value of a sample and what a correct rounding is, and a run of the delay line. -/

namespace Sys2Proof
namespace Machine

/-! ### The invariant -/

/-- The region a descriptor stands for (R31, R61). -/
def Ring.region (d : Ring) : Region := ⟨d.base, d.capacity.toNat⟩

/-- The regions of the twelve rings, the last granted first. -/
def State.ringRegions (s : State) : List Region := allRings.reverse.map fun r => (s.ring r).region

/-- The allocator contract on a live set (R61, R132): inside the address space of `space` words, no word shared, no base
twice. -/
def LiveContract (space : Nat) (live : List Region) : Prop :=
  (∀ g ∈ live, g.base.toNat + g.words ≤ space) ∧ live.Pairwise fun g h => g.disjoint h = true ∧ g.base ≠ h.base

/-- The parameters for which the spec's sizes and addresses fit their words: ring capacities up to 2^24 (R196, D28) and
word addresses within the 32 bits of `BASE` (R96). Assumption log 15. -/
structure LegalParams (p : Params) : Prop where
  capacities : p.capMaxLog2 ≤ 24
  addresses : p.dmAddrW ≤ 32

/-- A descriptor as CONSTRUCT leaves it, but for the cursor, which stays inside the ring (R30). -/
structure RingOk (rate : Sample) (row : RingRow) (d : Ring) : Prop where
  capacity : d.capacity = BitVec.ofNat 32 (capacityOf rate row.maxDelayS)
  mask : d.mask = d.capacity - 1#32
  cursor : d.cursor.toNat < d.capacity.toNat
  delayS : d.delayS = row.delayS
  delaySamples : delaySamplesOf rate row.delayS = some d.delaySamples

/-- A wire holds a value. -/
def State.hasWire (s : State) (i : Nibble) : Prop := (s.wire i).isSome = true

/-- The wires the schedule has written before slot `spc` (R37). -/
structure WiresWritten (s : State) : Prop where
  signal : 1 ≤ s.spc.toNat → s.hasWire 0#4
  cosine : 2 ≤ s.spc.toNat → s.hasWire 1#4
  sine : 2 ≤ s.spc.toNat → s.hasWire 2#4
  left : 24 ≤ s.spc.toNat → s.hasWire 3#4
  right : 29 ≤ s.spc.toNat → s.hasWire 4#4

/-- The invariant of a unit that is driven through its host port only. -/
structure UnitInv (s : State) : Prop where
  /-- The delay memory is canonical. -/
  memory : Memory.wf s.dm = true
  /-- The schedule ROM is never written (R73). -/
  rom : s.rom = Config.scheduleRom
  /-- The parameters, which are never written (R5), are ones the spec's words can hold. -/
  params : LegalParams s.params
  /-- The stage counter names a slot (R22). -/
  slot : s.spc.toNat ≤ 34
  /-- While no PROCESS is running `spc = 0` (R22). -/
  idle : s.inProgress = false → s.spc = 0#6
  /-- A PROCESS runs in READY only (R140), its response still due. -/
  running : s.inProgress = true → s.ls = .ready ∧ s.hostResponse = none
  /-- No allocator request is outstanding between steps (R280). -/
  noRequest : s.allocRequest = none
  /-- `AFRING` is 0 when `AF = 0` (R23). -/
  noFailure : s.af = false → s.afring = 0#4
  /-- `AFRING` is a ring id (R23). -/
  failedRing : s.afring.toNat ≤ 11
  /-- A constructed unit has no failure recorded (R36). -/
  constructed : s.ls = .ready → s.af = false
  /-- In EMPTY no region is held (R294). -/
  emptyHoldsNothing : s.ls = .empty → s.live = []
  /-- In READY exactly the twelve ring regions are held (R61). -/
  readyHoldsRings : s.ls = .ready → s.live = s.ringRegions
  /-- The held regions obey the allocator's contract (R132). -/
  contract : LiveContract s.params.addressSpace s.live
  /-- A constructed unit has an admitted sample rate (R133). -/
  rate : s.ls = .ready → s.params.admittedRate s.sampleRate = true
  /-- A constructed unit's descriptors are those of its sample rate (R30). -/
  rings : s.ls = .ready → ∀ r, RingOk s.sampleRate (s.params.row r) (s.ring r)
  /-- The schedule has written every wire it reads from here on (R37). -/
  wires : s.inProgress = true → WiresWritten s

/-! ### Frames -/

/-- Every word of memory reads as before. -/
def SameMemory (s t : State) : Prop := ∀ a : BitVec 32, t.memRead a = s.memRead a

/-- Memory reads as before, but for the one word stored; two addresses name one word when their low `DM_ADDR_W` bits
agree (assumption log 5). -/
def StoresOnly (s t : State) (a : BitVec 32) (v : Sample) : Prop :=
  t.memRead a = v ∧
    ∀ b : BitVec 32, b.toNat % 2 ^ s.params.dmAddrW ≠ a.toNat % 2 ^ s.params.dmAddrW → t.memRead b = s.memRead b

/-- Every wire but those listed is as before. -/
def SameWiresBut (s t : State) (written : List Nibble) : Prop := ∀ i, i ∉ written → t.wire i = s.wire i

/-- Every descriptor but that of ring `r` is as before. -/
def SameRingsBut (s t : State) (r : RingId) : Prop := ∀ q, q ≠ r → t.ring q = s.ring q

/-- `t` is `s` but for the wire file, the stage counter and the draw counter. -/
def OnlyWires (s t : State) : Prop := { s with wires := t.wires, spc := t.spc, draws := t.draws } = t

/-- `t` is `s` but for the wire file, the stage counter, the draw counter, the descriptors and the delay memory. -/
def OnlyWiresAndRings (s t : State) : Prop :=
  { s with wires := t.wires, spc := t.spc, draws := t.draws, rings := t.rings, dm := t.dm } = t

/-- The fourteen stages of the schedule (R101), as against the host commands and the allocator requests. -/
def isStage : Instr → Bool
  | .end_ => true
  | .lfo _ _ => true
  | .mulc _ _ _ => true
  | .addf _ _ => true
  | .dcb _ _ _ => true
  | .hsh _ _ _ => true
  | .dly _ _ _ => true
  | .ap _ _ _ => true
  | .vap _ _ _ _ => true
  | .tap _ _ _ => true
  | .stf _ => true
  | .in_ _ => true
  | .out _ _ => true
  | .clr _ => true
  | .nop => false
  | .construct _ => false
  | .process _ => false
  | .destroy => false
  | .setbs _ => false
  | .rdcsr _ => false
  | .alloc _ => false
  | .free _ => false

/-- `AP` units with their ring and the index of their coefficient (R102). -/
def apUnits : List (Nibble × RingId × Fin 6) :=
  [(0#4, 0, 0), (1#4, 1, 1), (2#4, 2, 2), (3#4, 3, 3), (4#4, 6, 4), (5#4, 10, 5)]

/-- `VAP` units with their ring and the index of their coefficient (R102). -/
def vapUnits : List (Nibble × RingId × Fin 2) := [(0#4, 4, 0), (1#4, 8, 1)]

/-- `DLY` and `TAP` units with their ring (R102). -/
def dlyUnits : List (Nibble × RingId) := [(0#4, 5), (1#4, 7), (2#4, 9), (3#4, 11)]

/-- The fourteen stage rows of spec/opcode_table.json: match and mask. -/
def stageTable : List (StageWord × StageWord) :=
  [(0x00000000#32, 0xFFFFFFFF#32), (0x10000000#32, 0xFF0F0FFF#32), (0x20000000#32, 0xFF00FCFF#32),
    (0x30000000#32, 0xFF00FFFF#32), (0x40000000#32, 0xFF00FFFF#32), (0x50000000#32, 0xFE00FFFF#32),
    (0x60000000#32, 0xFC00FFFF#32), (0x70000000#32, 0xF800FFFF#32), (0x80000000#32, 0xFE000FFF#32),
    (0x90000000#32, 0xFC0FF8FF#32), (0xA0000000#32, 0xFFF0FFFF#32), (0xB0000000#32, 0xFF0FFFFF#32),
    (0xC0000000#32, 0xFFF00FFF#32), (0xD0000000#32, 0xFF0FFFFF#32)]

/-! ### Real values and rounding -/

/-- The exponent field, the fraction and the sign of a pattern read from its number (R90). -/
def valueOf (x : Sample) : Option ℚ :=
  let e : Nat := x.toNat / 2 ^ 23 % 256
  let f : Nat := x.toNat % 2 ^ 23
  let sign : ℚ := if x.toNat < 2 ^ 31 then 1 else -1
  if e = 255 then none
  else if e = 0 then some (sign * f / 2 ^ 149)
  else some (sign * (2 ^ 23 + f) * 2 ^ e / 2 ^ 150)

/-- A quiet NaN (R90). -/
def isQuietNaN (x : Sample) : Bool := x.toNat / 2 ^ 22 % 2 ^ 9 = 0x1FF

/-- `+∞` and `-∞` (R90). -/
def infinities : List Sample := [0x7F800000#32, 0xFF800000#32]

/-- Any NaN (R90). -/
def isNaN (x : Sample) : Bool := x.toNat / 2 ^ 23 % 256 = 255 && x.toNat % 2 ^ 23 != 0

/-- `r` is the binary32 nearest the real number `q`, ties to even (R9): no finite binary32 is nearer, an equally near
other one exists only when `r` has an even last place; at and above half a last place over the greatest finite value the
result is the infinity of `q`'s sign. -/
def IsRounded (q : ℚ) (r : Sample) : Prop :=
  if |q| < 2 ^ 128 - 2 ^ 103 then
    ∃ v, valueOf r = some v ∧
      ∀ c w, valueOf c = some w → |v - q| < |w - q| ∨ w = v ∨ (|v - q| = |w - q| ∧ r.toNat % 2 = 0)
  else r = if q < 0 then 0xFF800000#32 else 0x7F800000#32

/-! ### The delay line as its user sees it -/

/-- The `DLY` of one unit fed with a list of samples: each one put on wire 1, the output taken from wire 0. -/
def delayRun (unit : Nibble) : List Sample → State → Option (State × List (Option Sample))
  | [], s => some (s, [])
  | x :: xs, s =>
    match exec (.dly unit 0#4 1#4) (s.setWire 1#4 x) with
    | .next t => (delayRun unit xs t).map fun p => (p.1, t.wire 0#4 :: p.2)
    | .fault _ => none
    | .refused _ => none

end Machine
end Sys2Proof
end

