-- ==== Sys2Proof/Certificates/Slice0/Obligations.lean ====
section
/-! DEFINITION. Sys2Proof/Certificates/Slice0/Obligations.lean: the statements about the model, each from a numbered rule
of spec/ or derived from its sections. None is proved here. Where a statement names `s.draws`, the number of the next
draw of a free value, it holds for every value of that field, and so for every value of the free values; and a statement
about every state holds for all parameters of R5, but where it names `LegalParams` or `Config.defaults`. That an address
names the word of its low `DM_ADDR_W` bits, in `StoresOnly` and wherever an address is reduced by them, and that base
plus index wraps at 2^32, is the model's (PRESUMED): log entry 5. -/

open Sys2Proof Sys2Proof.Machine

/-! ### Reset and the machine as a whole -/

/-- R280: what power-on leaves, and that the unit then waits for a host command. That a step with nothing to do answers the
same state is the model's choice: log entry 12. -/
def Obligations.ResetLeavesAnIdleEmptyUnit : Prop :=
  State.reset.ls = .empty ∧ State.reset.status = 0#32 ∧ State.reset.bufferSize = 0#32 ∧ State.reset.spc = 0#6 ∧
    State.reset.inProgress = false ∧ State.reset.allocRequest = none ∧ State.reset.live = [] ∧
    (∀ i, State.reset.wire i = none) ∧ step State.reset = .next State.reset

/-- The invariant holds after reset. -/
def Obligations.ResetMeetsTheInvariant : Prop := UnitInv State.reset

/-- Every step keeps the invariant: canonical memory, the ROM unwritten, legal parameters, `spc` and the lifecycle consistent, exactly
the twelve rings' regions held in READY and none in EMPTY, descriptors fixed but for the cursors. -/
def Obligations.StepKeepsTheInvariant : Prop := ∀ s t, UnitInv s → step s = .next t → UnitInv t

/-- R37: through the hardwired schedule no stage ever reads a wire that holds no value, and `spc` always names a slot:
under the invariant a step never faults. -/
def Obligations.StepNeverFaultsUnderTheInvariant : Prop := ∀ s f, UnitInv s → step s ≠ .fault f

/-- R237, R250: under the invariant a PROCESS in progress goes on at every slot but the two `VAP` slots, 10 and 16,
where only an undefined floor can stop it, and, with other parameters than the defaults of R5, the `TAP` slots, where
only an undefined sample count can. -/
def Obligations.ProcessStopsOnlyOnAnUndefinedConversion : Prop :=
  ∀ s, UnitInv s → s.inProgress = true → s.hostIssue = none →
    (∃ t, step s = .next t) ∨
      (step s = .refused .conversionUndefined ∧
        (s.spc = 10#6 ∨ s.spc = 16#6 ∨
          (s.params ≠ Config.defaults ∧
            s.spc ∈ [24#6, 25#6, 26#6, 27#6, 29#6, 30#6, 31#6, 32#6])))

/-- A step runs the decoded instruction, at each of the three places a word is taken from; with nothing to take the unit
waits. The order of the three places and the idle step are the model's, log entry 12, and so is that a command taken
clears the last response and the allocator traffic, log entry 16. -/
def Obligations.StepRunsTheDecodedInstruction : Prop :=
  (∀ s w i, s.allocRequest = some w → decode (.alloc w) = .ok i →
    step s = exec i { s with allocRequest := none }) ∧
  (∀ s h rest i, s.allocRequest = none → s.hostQueue = h :: rest → (s.inProgress = true → h.waits = false) →
    decode (.host h.word) = .ok i →
    step s = exec i { s with hostQueue := rest, hostResponse := none, allocTraffic := [] }) ∧
  (∀ s w i, s.allocRequest = none → s.inProgress = true → (∀ h ∈ s.hostQueue, h.waits = true) →
    s.rom[s.spc.toNat]? = some w → decode (.stage w) = .ok i → step s = exec i s) ∧
  (∀ s, s.allocRequest = none → s.hostQueue = [] → s.inProgress = false → step s = .next s)

/-- R293, R230: the 36 small steps of a PROCESS (the command and its 35 stages) do exactly what the one function of R230
does: its outputs in the response, its signal state left behind, and nothing else changed but the wires and the ports.
That `in_latch` still holds the operand afterwards is the model's choice: log entry 18. -/
def Obligations.ProcessRunsTheScheduleOnce : Prop :=
  ∀ (s : State) (x : Sample) (h : HostIssue) (rest : List HostIssue) (l r : Sample) (g : Signal),
    s.ls = .ready → s.inProgress = false → s.allocRequest = none → s.rom = Config.scheduleRom →
    s.hostQueue = h :: rest → h.word = 0x2#4 ++ x → (∀ q ∈ rest, q.waits = true) →
    perSample s.params s.sampleRate x s.signal = some ((l, r), g) →
    ∃ t, core.run 36 s = .next t ∧ t.signal = g ∧ t.hostResponse = some (0#4 ++ l ++ r) ∧ t.outL = l ∧ t.outR = r ∧
      t.inLatch = x ∧ t.spc = 0#6 ∧ t.inProgress = false ∧ t.hostQueue = rest ∧ t.allocTraffic = [] ∧
      (∀ q, t.ring q = { s.ring q with cursor := ((s.ring q).cursor + 1#32) &&& (s.ring q).mask }) ∧
      { s with lfo := t.lfo, dcb := t.dcb, hsh := t.hsh, rings := t.rings, dm := t.dm, fb := t.fb, draws := t.draws,
               wires := t.wires, inLatch := x, outL := l, outR := r, hostResponse := t.hostResponse,
               hostQueue := rest, allocTraffic := [], spc := 0#6, inProgress := false } = t

/-! ### Encodings -/

/-- Decoding an encoded well-formed instruction gives it back, with every operand. -/
def Obligations.DecodeOfEncodeIsTheInstruction : Prop :=
  ∀ i : Instr, i.wellFormed = true → decode (encode i) = .ok i

/-- Every word that decodes is the encoding of the well-formed instruction it decodes to: no bit of a word is ignored. -/
def Obligations.OnlyEncodedWordsDecode : Prop :=
  ∀ w i, decode w = .ok i → i.wellFormed = true ∧ encode i = w

/-- R106: the schedule ROM's words decode to the listed assembly, slot by slot. -/
def Obligations.ScheduleRomIsTheListedProgram : Prop :=
  State.reset.rom.toList.map (fun w => decode (.stage w)) =
    [.ok (.in_ 0#4), .ok (.lfo 1#4 2#4), .ok (.mulc 1#4 1#4 0#4), .ok (.mulc 2#4 2#4 1#4),
      .ok (.ap 0#4 0#4 0#4), .ok (.ap 1#4 0#4 0#4), .ok (.ap 2#4 0#4 0#4), .ok (.ap 3#4 0#4 0#4),
      .ok (.addf 0#4 0#4), .ok (.dcb 0#4 0#4 0#4),
      .ok (.vap 0#4 0#4 0#4 1#4), .ok (.dly 0#4 0#4 0#4), .ok (.ap 4#4 0#4 0#4), .ok (.dly 1#4 0#4 0#4),
      .ok (.hsh 0#4 0#4 0#4), .ok (.mulc 0#4 0#4 2#4),
      .ok (.vap 1#4 0#4 0#4 2#4), .ok (.dly 2#4 0#4 0#4), .ok (.ap 5#4 0#4 0#4), .ok (.dly 3#4 0#4 0#4),
      .ok (.hsh 1#4 0#4 0#4), .ok (.mulc 0#4 0#4 3#4), .ok (.stf 0#4),
      .ok (.clr 3#4), .ok (.tap 0#4 3#4 0#4), .ok (.tap 1#4 3#4 1#4), .ok (.tap 2#4 3#4 2#4),
      .ok (.tap 3#4 3#4 3#4),
      .ok (.clr 4#4), .ok (.tap 0#4 4#4 4#4), .ok (.tap 1#4 4#4 5#4), .ok (.tap 2#4 4#4 6#4),
      .ok (.tap 3#4 4#4 7#4), .ok (.out 3#4 4#4), .ok .end_]

/-- Words written out from the tables of R92, R96 and R101 decode to the instructions they stand for. -/
def Obligations.WrittenOutWordsDecode : Prop :=
  decode (.host 0x1473B8000#36) = .ok (.construct 0x473B8000#32) ∧
    decode (.host 0x23F800000#36) = .ok (.process 0x3F800000#32) ∧
    decode (.host 0x300000000#36) = .ok .destroy ∧ decode (.host 0x400000040#36) = .ok (.setbs 64#32) ∧
    decode (.host 0x500000002#36) = .ok (.rdcsr 2#4) ∧ decode (.host 0x000000000#36) = .ok .nop ∧
    decode (.alloc 0x000001000#33) = .ok (.alloc 4096#32) ∧ decode (.alloc 0x100001000#33) = .ok (.free 4096#32) ∧
    decode (.stage 0x91400500#32) = .ok (.tap 1#4 4#4 5#4) ∧ decode (.stage 0x81002000#32) = .ok (.vap 1#4 0#4 0#4 2#4)

/-- R95, U9: the invalid host words are exactly `HOP` 6 to 15, `NOP` and `DESTROY` with data, and `RDCSR` with a number
that is no CSR's or bits above it; the step that takes one refuses it. -/
def Obligations.ReservedHostWordsAreRefused : Prop :=
  ∀ (hop : Nibble) (data : BitVec 32),
    let reserved := 6 ≤ hop.toNat ∨ ((hop = 0#4 ∨ hop = 3#4) ∧ data ≠ 0#32) ∨ (hop = 5#4 ∧ 2 < data.toNat)
    (reserved ↔ ∀ i, decode (.host (hop ++ data)) ≠ .ok i) ∧
      ∀ (s : State) (h : HostIssue) (rest : List HostIssue), s.allocRequest = none → s.hostQueue = h :: rest →
        (s.inProgress = true → h.waits = false) → h.word = hop ++ data → reserved →
        ∃ e, step s = .refused (.reservedEncoding e)

/-- R105, U10: a stage word decodes exactly when a row of the opcode table matches it and it is no `AP` of unit 6 or 7;
the step that fetches any other word refuses it. -/
def Obligations.ReservedStageWordsAreRefused : Prop :=
  ∀ w : StageWord,
    let valid := (∃ row ∈ stageTable, w &&& row.2 = row.1) ∧ ¬ (0x76000000 ≤ w.toNat ∧ w.toNat < 0x78000000)
    (valid ↔ ∃ i, decode (.stage w) = .ok i) ∧
      ∀ s : State, s.allocRequest = none → s.inProgress = true → (∀ h ∈ s.hostQueue, h.waits = true) →
        s.rom[s.spc.toNat]? = some w → ¬ valid → ∃ e, step s = .refused (.reservedEncoding e)

/-! ### Delay memory and rings -/

/-- R70: a read returns the latest write to that word, and a write changes no other word. That an
address names a word by its low `DM_ADDR_W` bits, so that two addresses may name one, is the model's (PRESUMED): log
entry 5; with 32 of them, the width of R5, it is by all of it. -/
def Obligations.ReadAfterWrite : Prop :=
  ∀ (s : State) (a b : BitVec 32) (v : Sample), Memory.wf s.dm = true →
    (s.memWrite a v).memRead b =
        (if b.toNat % 2 ^ s.params.dmAddrW = a.toNat % 2 ^ s.params.dmAddrW then v else s.memRead b) ∧
      (s.params.dmAddrW = 32 → (s.memWrite a v).memRead b = if b = a then v else s.memRead b) ∧
      Memory.wf (s.memWrite a v).dm = true

/-- Two canonical memories that read alike everywhere are the same data. The form is the model's: log entries 4 and 5. -/
def Obligations.CanonicalMemoriesThatReadAlikeAreEqual : Prop :=
  ∀ m m' : DelayMemory, Memory.wf m = true → Memory.wf m' = true →
    (∀ a, a < 2 ^ 32 → DelayMemory.read m a = DelayMemory.read m' a) → m = m'

/-- R62, R8: in a ring of capacity `2^e` the effective address of an index, negative or not, is the base plus the
mathematical modulo of the index. That the sum wraps at 2^32 is the model's (PRESUMED): log entry 5. -/
def Obligations.MaskedIndexIsTheMathematicalModulo : Prop :=
  ∀ (d : Ring) (i : BitVec 32) (e : Nat), e ≤ 31 → d.capacity = BitVec.ofNat 32 (2 ^ e) →
    d.mask = d.capacity - 1#32 → ((d.address i).toNat : Int) = (d.base.toNat + i.toInt % 2 ^ e) % 2 ^ 32

/-- R62: the effective address always lies inside the ring's own region, whatever the width of an address. -/
def Obligations.EffectiveAddressStaysInTheRing : Prop :=
  ∀ (p : Params) (d : Ring) (i : BitVec 32) (e : Nat), e ≤ 31 → d.capacity = BitVec.ofNat 32 (2 ^ e) →
    d.mask = d.capacity - 1#32 → d.base.toNat + d.capacity.toNat ≤ p.addressSpace →
    d.base.toNat ≤ p.wordAddress (d.address i) ∧ p.wordAddress (d.address i) < d.base.toNat + d.capacity.toNat

/-- R171: the capacity is a power of two not below the binary32 product, and the least one. -/
def Obligations.CapacityIsTheLeastPowerOfTwo : Prop :=
  ∀ (rate maxd : Sample) (n : ℚ), valueOf (fmul 0 rate maxd) = some n →
    (∃ e : Nat, capacityOf rate maxd = 2 ^ e) ∧ n ≤ (capacityOf rate maxd : ℚ) ∧
      ∀ e : Nat, n ≤ (2 : ℚ) ^ e → capacityOf rate maxd ≤ 2 ^ e

/-- R177: the fixed delay. A DLY line whose ring is zero-filled, with `1 ≤ delay_samples ≤ capacity`, completes for every
list of samples and returns, bit for bit, the input of `delay_samples` calls before, and `+0.0` until there is one. -/
def Obligations.DelayLineReturnsItsInputLater : Prop :=
  ∀ (s : State) (unit : Nibble) (r : RingId) (e : Nat) (xs : List Sample), (unit, r) ∈ dlyUnits →
    Memory.wf s.dm = true → e ≤ 24 → (s.ring r).capacity = BitVec.ofNat 32 (2 ^ e) →
    (s.ring r).mask = (s.ring r).capacity - 1#32 → (s.ring r).cursor.toNat < 2 ^ e →
    (s.ring r).base.toNat + 2 ^ e ≤ s.params.addressSpace →
    1 ≤ (s.ring r).delaySamples.toNat → (s.ring r).delaySamples.toNat ≤ 2 ^ e →
    (∀ j < 2 ^ e, s.memRead ((s.ring r).base + BitVec.ofNat 32 j) = 0x00000000#32) →
    ∃ t ys, delayRun unit xs s = some (t, ys) ∧ ys.length = xs.length ∧
      ∀ n < xs.length, ys[n]? =
        some (if n < (s.ring r).delaySamples.toNat then some 0x00000000#32 else xs[n - (s.ring r).delaySamples.toNat]?)

/-- R179, R173: what a tap sees. After any list of samples went through a zero-filled DLY line, the cursor has advanced
once a sample, the tap cell of `ts` samples (1 to the capacity) holds the sample given `ts - 1` calls before the last,
that of `ts = 0` the one a whole capacity old, and `+0.0` where there was none. -/
def Obligations.TapSeesTheSamplesGiven : Prop :=
  ∀ (s t : State) (unit : Nibble) (r : RingId) (e : Nat) (xs : List Sample) (ys : List (Option Sample)),
    (unit, r) ∈ dlyUnits → Memory.wf s.dm = true → e ≤ 24 → (s.ring r).capacity = BitVec.ofNat 32 (2 ^ e) →
    (s.ring r).mask = (s.ring r).capacity - 1#32 → (s.ring r).cursor.toNat < 2 ^ e →
    (s.ring r).base.toNat + 2 ^ e ≤ s.params.addressSpace →
    (∀ j < 2 ^ e, s.memRead ((s.ring r).base + BitVec.ofNat 32 j) = 0x00000000#32) →
    delayRun unit xs s = some (t, ys) →
    (t.ring r).cursor.toNat = ((s.ring r).cursor.toNat + xs.length) % 2 ^ e ∧
      ∀ ts : BitVec 32, ts.toNat ≤ 2 ^ e →
        let lag := if ts = 0#32 then 2 ^ e else ts.toNat
        t.memRead ((t.ring r).base + (((t.ring r).cursor - (t.ring r).capacity - ts) &&& (t.ring r).mask)) =
          if h : lag ≤ xs.length ∧ 0 < lag then xs[xs.length - lag] else 0x00000000#32

/-! ### Binary32 arithmetic -/

/-- R9: sum, difference and product of finite samples are the nearest binary32, ties to even, once rounded. -/
def Obligations.SumsAndProductsAreCorrectlyRounded : Prop :=
  ∀ (n : Nat) (a b : Sample) (x y : ℚ), valueOf a = some x → valueOf b = some y →
    IsRounded (x + y) (fadd n a b) ∧ IsRounded (x - y) (fsub n a b) ∧ IsRounded (x * y) (fmul n a b)

/-- R9: the quotient of finite samples is the nearest binary32 where the divisor is not zero. -/
def Obligations.QuotientsAreCorrectlyRounded : Prop :=
  ∀ (n : Nat) (a b : Sample) (x y : ℚ), valueOf a = some x → valueOf b = some y → y ≠ 0 →
    IsRounded (x / y) (fdiv n a b)

/-- R9, for every draw: a NaN operand gives a quiet NaN; an infinity added to or subtracted from a finite sample, in
either order, or added to itself, persists, and `∞ - ∞` is a quiet NaN; `0 × ∞` is a quiet NaN and an infinity times
anything else is the infinity of the exclusive-or of the signs; an exact zero sum is `-0.0` only of two negative zeros;
and a product's sign is the exclusive-or of the operand signs. -/
def Obligations.SpecialValuesOfSumsAndProducts : Prop :=
  (∀ n a b, isNaN a = true ∨ isNaN b = true →
    isQuietNaN (fadd n a b) = true ∧ isQuietNaN (fsub n a b) = true ∧ isQuietNaN (fmul n a b) = true ∧
      isQuietNaN (fdiv n a b) = true) ∧
  (∀ n a b x, a ∈ infinities → valueOf b = some x →
    fadd n a b = a ∧ fadd n b a = a ∧ fsub n a b = a ∧ fsub n b a = a ^^^ 0x80000000#32) ∧
  (∀ n a, a ∈ infinities →
    fadd n a a = a ∧ fsub n a (a ^^^ 0x80000000#32) = a ∧ isQuietNaN (fsub n a a) = true ∧
      isQuietNaN (fadd n a (a ^^^ 0x80000000#32)) = true) ∧
  (∀ n a b, a ∈ infinities → b = 0x00000000#32 ∨ b = 0x80000000#32 →
    isQuietNaN (fmul n a b) = true ∧ isQuietNaN (fmul n b a) = true) ∧
  (∀ n a b, a ∈ infinities → (b ∈ infinities ∨ ∃ x, valueOf b = some x ∧ x ≠ 0) →
    fmul n a b = (if a.msb = b.msb then 0x7F800000#32 else 0xFF800000#32) ∧
      fmul n b a = if a.msb = b.msb then 0x7F800000#32 else 0xFF800000#32) ∧
  (∀ n a b x y, valueOf a = some x → valueOf b = some y →
    (x + y = 0 →
      fadd n a b = if a = 0x80000000#32 ∧ b = 0x80000000#32 then 0x80000000#32 else 0x00000000#32) ∧
    (x - y = 0 →
      fsub n a b = if a = 0x80000000#32 ∧ b = 0x00000000#32 then 0x80000000#32 else 0x00000000#32) ∧
    (fmul n a b).msb = (a.msb ^^ b.msb))

/-- R10: `i2f` is the nearest binary32; `trunc_i32` discards the fraction toward zero, `floor_i32` goes toward minus
infinity, and both are undefined exactly from magnitude 2^31 on. -/
def Obligations.ConversionsFollowTheirDefinition : Prop :=
  (∀ i : BitVec 32, IsRounded (i.toInt : ℚ) (i2f i)) ∧
  (∀ x q, valueOf x = some q → |q| < 2 ^ 31 →
    (∃ i, truncI32 x = some i ∧ |(i.toInt : ℚ)| ≤ |q| ∧ |q| < |(i.toInt : ℚ)| + 1 ∧ 0 ≤ (i.toInt : ℚ) * q) ∧
    (∃ i, floorI32 x = some i ∧ i.toInt = ⌊q⌋)) ∧
  (∀ x, (∀ q, valueOf x = some q → 2 ^ 31 ≤ |q|) → truncI32 x = none ∧ floorI32 x = none)

/-! ### The stages -/

/-- R210: `IN` copies the input latch to a wire, unchanged; R214: `CLR` puts `+0.0` there. Every other wire, every
other element and all of memory stay. -/
def Obligations.InAndClrWriteOneWire : Prop :=
  ∀ (s : State) (rd : Nibble),
    (∃ t, exec (.in_ rd) s = .next t ∧ t.wire rd = some s.inLatch ∧ t.spc = s.spc + 1#6 ∧ t.draws = s.draws ∧
      SameWiresBut s t [rd] ∧ OnlyWires s t ∧ SameMemory s t) ∧
    (∃ t, exec (.clr rd) s = .next t ∧ t.wire rd = some 0x00000000#32 ∧ t.spc = s.spc + 1#6 ∧ t.draws = s.draws ∧
      SameWiresBut s t [rd] ∧ OnlyWires s t ∧ SameMemory s t)

/-- R211: `MULC`, for each of the four constants `C[0]` to `C[3]` of the Topology (R7). -/
def Obligations.MulcScalesByAConstant : Prop :=
  ∀ (s : State) (rd ra : Nibble) (ki : Fin 4) (x : Sample), s.wire ra = some x →
    ∃ t, exec (.mulc rd ra (BitVec.ofNat 4 ki.val)) s = .next t ∧
      t.wire rd = some (fmul s.draws x s.params.topology.consts[ki]) ∧ t.spc = s.spc + 1#6 ∧ t.draws = s.draws + 1 ∧ SameWiresBut s t [rd] ∧ OnlyWires s t ∧ SameMemory s t

/-- R212: `ADDF` adds the feedback scalar, which it does not change. -/
def Obligations.AddfAddsTheFeedbackScalar : Prop :=
  ∀ (s : State) (rd ra : Nibble) (x : Sample), s.wire ra = some x →
    ∃ t, exec (.addf rd ra) s = .next t ∧ t.wire rd = some (fadd s.draws x s.fb) ∧ t.spc = s.spc + 1#6 ∧
      t.draws = s.draws + 1 ∧ SameWiresBut s t [rd] ∧ OnlyWires s t ∧ SameMemory s t

/-- R213: `STF` copies a wire to the feedback scalar; no wire changes. -/
def Obligations.StfStoresTheFeedbackScalar : Prop :=
  ∀ (s : State) (ra : Nibble) (x : Sample), s.wire ra = some x →
    ∃ t, exec (.stf ra) s = .next t ∧ t.fb = x ∧ t.spc = s.spc + 1#6 ∧
      { s with fb := t.fb, spc := t.spc } = t ∧ SameMemory s t

/-- R215: `OUT` copies two wires to the output latches. -/
def Obligations.OutDeliversTheStereoPair : Prop :=
  ∀ (s : State) (ra rb : Nibble) (l r : Sample), s.wire ra = some l → s.wire rb = some r →
    ∃ t, exec (.out ra rb) s = .next t ∧ t.outL = l ∧ t.outR = r ∧ t.spc = s.spc + 1#6 ∧
      { s with outL := t.outL, outR := t.outR, spc := t.spc } = t ∧ SameMemory s t

/-- R216, R139: `END` sets `spc` to 0, the PROCESS completes, and the response carries the two outputs. That the wires and
`in_latch` keep what they held is the model's choice, log entry 18, and so is where the response stands, log entry 16. -/
def Obligations.EndCompletesTheCall : Prop :=
  ∀ s : State, ∃ t, exec .end_ s = .next t ∧ t.spc = 0#6 ∧ t.inProgress = false ∧
    t.hostResponse = some (0#4 ++ s.outL ++ s.outR) ∧
    { s with spc := t.spc, inProgress := t.inProgress, hostResponse := t.hostResponse } = t ∧ SameMemory s t

/-- R152: one oscillator step, the sine from the new cosine; both go to their wires, the sine last. -/
def Obligations.LfoStepsTheOscillator : Prop :=
  ∀ (s : State) (rd rb : Nibble),
    let c := fsub (s.draws + 1) s.lfo.cos (fmul s.draws s.lfo.k s.lfo.sin)
    let v := fadd (s.draws + 3) s.lfo.sin (fmul (s.draws + 2) s.lfo.k c)
    ∃ t, exec (.lfo rd rb) s = .next t ∧ t.lfo = ⟨s.lfo.k, c, v⟩ ∧ t.wire rb = some v ∧
      (rd ≠ rb → t.wire rd = some c) ∧ t.spc = s.spc + 1#6 ∧ t.draws = s.draws + 4 ∧
      SameWiresBut s t [rd, rb] ∧
      { s with lfo := t.lfo, wires := t.wires, spc := t.spc, draws := t.draws } = t ∧ SameMemory s t

/-- R161: one DC blocker step. -/
def Obligations.DcbFiltersItsInput : Prop :=
  ∀ (s : State) (rd ra : Nibble) (x : Sample), s.wire ra = some x →
    let y := fadd (s.draws + 2) (fsub s.draws x s.dcb.x1) (fmul (s.draws + 1) s.params.dcbK s.dcb.y1)
    ∃ t, exec (.dcb 0#4 rd ra) s = .next t ∧ t.dcb = ⟨x, y⟩ ∧ t.wire rd = some y ∧ t.spc = s.spc + 1#6 ∧
      t.draws = s.draws + 3 ∧ SameWiresBut s t [rd] ∧
      { s with dcb := t.dcb, wires := t.wires, spc := t.spc, draws := t.draws } = t ∧ SameMemory s t

/-- R163: one HiShelf step of either instance; the other instance is untouched. -/
def Obligations.HshFiltersItsInput : Prop :=
  ∀ (s : State) (u : Fin 2) (rd ra : Nibble) (x : Sample), s.wire ra = some x →
    let n := s.draws
    let k := s.params.hshK
    let y := fadd (n + 3) (fmul (n + 1) (fsub n 0x3F800000#32 k) x) (fmul (n + 2) k s.hsh[u])
    ∃ t, exec (.hsh (BitVec.ofNat 4 u.val) rd ra) s = .next t ∧ t.hsh[u] = x ∧ (∀ q : Fin 2, q ≠ u → t.hsh[q] = s.hsh[q]) ∧
      t.wire rd = some y ∧ t.spc = s.spc + 1#6 ∧ t.draws = n + 4 ∧ SameWiresBut s t [rd] ∧
      { s with hsh := t.hsh, wires := t.wires, spc := t.spc, draws := t.draws } = t ∧ SameMemory s t

/-- R176, R173: `DLY` reads the cell of `cursor - delay_samples` before it stores the input at the cursor and advances
the cursor; that word, that cursor and the destination wire are all that changes. -/
def Obligations.DlyReadsThenWritesItsRing : Prop :=
  ∀ (s : State) (unit rd ra : Nibble) (r : RingId) (x : Sample), (unit, r) ∈ dlyUnits → s.wire ra = some x →
    Memory.wf s.dm = true →
    let d := s.ring r
    ∃ t, exec (.dly unit rd ra) s = .next t ∧
      t.wire rd = some (s.memRead (d.base + ((d.cursor - d.delaySamples) &&& d.mask))) ∧
      StoresOnly s t (d.base + d.cursor) x ∧ t.ring r = { d with cursor := (d.cursor + 1#32) &&& d.mask } ∧
      SameRingsBut s t r ∧ SameWiresBut s t [rd] ∧ t.spc = s.spc + 1#6 ∧ t.draws = s.draws ∧ OnlyWiresAndRings s t

/-- R178, R180: `TAP` adds the gained cell to its accumulator wire; it changes no ring and no word of memory. -/
def Obligations.TapAddsAGainedCell : Prop :=
  ∀ (s : State) (unit rd : Nibble) (ki : Fin 8) (r : RingId) (acc : Sample) (ts : BitVec 32),
    (unit, r) ∈ dlyUnits → s.wire rd = some acc →
    let tap := s.params.topology.taps[ki]
    truncI32 (fmul s.draws s.sampleRate tap.offsetS) = some ts →
    let d := s.ring r
    ∃ t, exec (.tap unit rd (BitVec.ofNat 4 ki.val)) s = .next t ∧
      t.wire rd = some (fadd (s.draws + 2) acc
        (fmul (s.draws + 1) tap.gain (s.memRead (d.base + ((d.cursor - d.capacity - ts) &&& d.mask))))) ∧
      t.spc = s.spc + 1#6 ∧ t.draws = s.draws + 3 ∧ SameWiresBut s t [rd] ∧ OnlyWires s t ∧ SameMemory s t

/-- R191: one Schroeder allpass step: the delayed word is read before the write; `w = x + k·d` is stored and
`-k·w + d` is the output. -/
def Obligations.ApIsASchroederAllpass : Prop :=
  ∀ (s : State) (unit rd ra : Nibble) (r : RingId) (u : Fin 6) (x : Sample), (unit, r, u) ∈ apUnits →
    s.wire ra = some x → Memory.wf s.dm = true →
    let k := s.params.topology.apK[u]
    let c := s.ring r
    let n := s.draws
    let d := s.memRead (c.base + ((c.cursor - c.delaySamples) &&& c.mask))
    let w := fadd (n + 1) x (fmul n k d)
    ∃ t, exec (.ap unit rd ra) s = .next t ∧
      t.wire rd = some (fadd (n + 3) (fmul (n + 2) (k ^^^ 0x80000000#32) w) d) ∧
      StoresOnly s t (c.base + c.cursor) w ∧ t.ring r = { c with cursor := (c.cursor + 1#32) &&& c.mask } ∧
      SameRingsBut s t r ∧ SameWiresBut s t [rd] ∧ t.spc = s.spc + 1#6 ∧ t.draws = n + 4 ∧ OnlyWiresAndRings s t

/-- R193, R194, R196: one modulated allpass step: the read position from the delay in seconds and the offset wire, the
linear blend of the two middle cells, then the allpass; all reads before the write. -/
def Obligations.VapIsAModulatedAllpass : Prop :=
  ∀ (s : State) (unit rd ra rb : Nibble) (r : RingId) (u : Fin 2) (x offset : Sample) (i : BitVec 32),
    (unit, r, u) ∈ vapUnits → s.wire ra = some x → s.wire rb = some offset → Memory.wf s.dm = true →
    let k := s.params.topology.vapK[u]
    let c := s.ring r
    let n := s.draws
    let pos := fsub (n + 2) (i2f c.cursor) (fmul (n + 1) (fadd n c.delayS offset) s.sampleRate)
    floorI32 pos = some i →
    let frac := fsub (n + 3) pos (i2f i)
    let y1 := s.memRead (c.base + (i &&& c.mask))
    let y2 := s.memRead (c.base + ((i + 1#32) &&& c.mask))
    let d := fadd (n + 6) y1 (fmul (n + 5) frac (fsub (n + 4) y2 y1))
    let w := fadd (n + 8) x (fmul (n + 7) k d)
    ∃ t, exec (.vap unit rd ra rb) s = .next t ∧
      t.wire rd = some (fadd (n + 10) (fmul (n + 9) (k ^^^ 0x80000000#32) w) d) ∧
      StoresOnly s t (c.base + c.cursor) w ∧ t.ring r = { c with cursor := (c.cursor + 1#32) &&& c.mask } ∧
      SameRingsBut s t r ∧ SameWiresBut s t [rd] ∧ t.spc = s.spc + 1#6 ∧ t.draws = n + 11 ∧ OnlyWiresAndRings s t

/-- R197: with an offset that makes the delay the integer `delay_samples` (condition a), with the two cells and their
difference finite (condition b) and no `-0.0` met (condition c), the modulated allpass stores and outputs what the fixed
allpass formula gives for the cell of `cursor - delay_samples`. -/
def Obligations.VapWithAnIntegerDelayIsTheFixedAllpass : Prop :=
  ∀ (s : State) (unit rd ra rb : Nibble) (r : RingId) (u : Fin 2) (x offset : Sample) (v1 v2 v3 : ℚ),
    (unit, r, u) ∈ vapUnits → s.wire ra = some x → s.wire rb = some offset → Memory.wf s.dm = true →
    let k := s.params.topology.vapK[u]
    let c := s.ring r
    let n := s.draws
    let i := c.cursor - c.delaySamples
    let d := s.memRead (c.base + (i &&& c.mask))
    let y2 := s.memRead (c.base + ((i + 1#32) &&& c.mask))
    let w := fadd (n + 8) x (fmul (n + 7) k d)
    c.cursor.toNat < 2 ^ 24 → c.delaySamples.toNat < 2 ^ 24 →
    fmul (n + 1) (fadd n c.delayS offset) s.sampleRate = i2f c.delaySamples →
    valueOf d = some v1 → valueOf y2 = some v2 → valueOf (fsub (n + 4) y2 d) = some v3 → d ≠ 0x80000000#32 →
    ∃ t, exec (.vap unit rd ra rb) s = .next t ∧
      t.wire rd = some (fadd (n + 10) (fmul (n + 9) (k ^^^ 0x80000000#32) w) d) ∧
      StoresOnly s t (c.base + c.cursor) w

/-- R74, S8: a stage may write the wire it reads: with one wire as source and destination, DCB, HSH, DLY, AP and VAP
give the same word and leave the same state, wires apart, as with two. -/
def Obligations.InPlaceStagesGiveTheSameResult : Prop :=
  ∀ (s t : State) (unit rd ra : Nibble),
    (exec (.dcb unit rd ra) s = .next t → ∃ u, exec (.dcb unit ra ra) s = .next u ∧ u.wire ra = t.wire rd ∧
      { u with wires := t.wires } = t) ∧
    (exec (.hsh unit rd ra) s = .next t → ∃ u, exec (.hsh unit ra ra) s = .next u ∧ u.wire ra = t.wire rd ∧
      { u with wires := t.wires } = t) ∧
    (exec (.dly unit rd ra) s = .next t → ∃ u, exec (.dly unit ra ra) s = .next u ∧ u.wire ra = t.wire rd ∧
      { u with wires := t.wires } = t) ∧
    (exec (.ap unit rd ra) s = .next t → ∃ u, exec (.ap unit ra ra) s = .next u ∧ u.wire ra = t.wire rd ∧
      { u with wires := t.wires } = t) ∧
    (∀ rb, exec (.vap unit rd ra rb) s = .next t → ∃ u, exec (.vap unit ra ra rb) s = .next u ∧
      u.wire ra = t.wire rd ∧ { u with wires := t.wires } = t)

/-! ### Where a stage stops -/

/-- R37: a stage that reads a wire holding no value faults, naming the slot. That the fault names the wire too, which one
where a stage has two empty sources (RA), and that a `TAP` whose `ts` is undefined too faults on its wire instead of
being refused (R10), is the model's choice: log entry 23. -/
def Obligations.ReadingAnEmptyWireFaults : Prop :=
  ∀ (s : State) (rd ra rb : Nibble), s.wire ra = none →
    let stop : Result := .fault (.wireHoldsNoValue s.spc ra)
    exec (.addf rd ra) s = stop ∧ exec (.stf ra) s = stop ∧ exec (.out ra rb) s = stop ∧
      (∀ ki : Fin 4, exec (.mulc rd ra (BitVec.ofNat 4 ki.val)) s = stop) ∧ exec (.dcb 0#4 rd ra) s = stop ∧
      (∀ u : Fin 2, exec (.hsh (BitVec.ofNat 4 u.val) rd ra) s = stop) ∧
      (∀ p ∈ dlyUnits, exec (.dly p.1 rd ra) s = stop) ∧ (∀ p ∈ apUnits, exec (.ap p.1 rd ra) s = stop) ∧
      (∀ p ∈ vapUnits, exec (.vap p.1 rd ra rb) s = stop) ∧
      (∀ p ∈ dlyUnits, ∀ ki : Fin 8, exec (.tap p.1 ra (BitVec.ofNat 4 ki.val)) s = stop) ∧
      ∀ rc x, s.wire rc = some x → exec (.out rc ra) s = stop ∧ ∀ p ∈ vapUnits, exec (.vap p.1 rd rc ra) s = stop

/-- R10, R196: `VAP` is refused where the floor of the position is undefined, and `TAP` where the tap's sample count is. -/
def Obligations.UndefinedConversionsAreRefused : Prop :=
  ∀ (s : State) (rd ra rb : Nibble) (x offset : Sample), s.wire ra = some x → s.wire rb = some offset →
    (∀ p ∈ vapUnits,
      floorI32 (fsub (s.draws + 2) (i2f (s.ring p.2.1).cursor)
        (fmul (s.draws + 1) (fadd s.draws (s.ring p.2.1).delayS offset) s.sampleRate)) = none →
      exec (.vap p.1 rd ra rb) s = .refused .conversionUndefined) ∧
    (∀ p ∈ dlyUnits, ∀ ki : Fin 8, truncI32 (fmul s.draws s.sampleRate s.params.topology.taps[ki].offsetS) = none →
      exec (.tap p.1 ra (BitVec.ofNat 4 ki.val)) s = .refused .conversionUndefined)

/-! ### Rules over all instructions -/

/-- R22, R239: every stage but `END` advances `spc` by exactly 1, and `END` sets it to 0. -/
def Obligations.StagesAdvanceTheCounterByOne : Prop :=
  ∀ (i : Instr) (s t : State), isStage i = true → exec i s = .next t →
    t.spc = (if i = .end_ then 0#6 else s.spc + 1#6)

/-- R76, R289, R73: no stage changes the allocator's live set, sends an allocator request or leaves one outstanding on the
port, and none changes the lifecycle state, STATUS, the control registers, the ROM, the parameters or the input latch.
That `END` leaves the input latch, which U14 lets be any value after the PROCESS, is the model's choice: log entry 18. -/
def Obligations.StagesLeaveTheAllocatorAndTheRegistersAlone : Prop :=
  ∀ (i : Instr) (s t : State), isStage i = true → exec i s = .next t →
    t.live = s.live ∧ t.allocRequest = s.allocRequest ∧ t.allocTraffic = s.allocTraffic ∧
      t.allocQueue = s.allocQueue ∧ t.ls = s.ls ∧ t.status = s.status ∧ t.sampleRate = s.sampleRate ∧
      t.bufferSize = s.bufferSize ∧ t.rom = s.rom ∧ t.params = s.params ∧ t.inLatch = s.inLatch

/-- R32, R151, R28, R29: among the stages only `STF` changes `fb`, only `LFO` the oscillator, only `DCB` the DC blocker
and only `HSH` the HiShelf state; only `DLY`, `AP` and `VAP` change a ring or the delay memory. -/
def Obligations.EachComponentIsWrittenByItsOwnStage : Prop :=
  ∀ (i : Instr) (s t : State), isStage i = true → exec i s = .next t →
    (t.fb = s.fb ∨ ∃ ra, i = .stf ra) ∧ (t.lfo = s.lfo ∨ ∃ rd rb, i = .lfo rd rb) ∧
      (t.dcb = s.dcb ∨ ∃ u rd ra, i = .dcb u rd ra) ∧ (t.hsh = s.hsh ∨ ∃ u rd ra, i = .hsh u rd ra) ∧
      ((t.rings = s.rings ∧ t.dm = s.dm) ∨ (∃ u rd ra, i = .dly u rd ra) ∨ (∃ u rd ra, i = .ap u rd ra) ∨
        ∃ u rd ra rb, i = .vap u rd ra rb)

/-- R26, R24, R23, R258: only CONSTRUCT and DESTROY change the lifecycle state; only CONSTRUCT writes `SAMPLE_RATE`,
`STATUS.AF` and `STATUS.AFRING`; only SETBS writes `BUFFER_SIZE`; nothing writes the ROM or the parameters. -/
def Obligations.OnlyTheNamedCommandsWriteTheRegisters : Prop :=
  ∀ (i : Instr) (s t : State), exec i s = .next t →
    (t.ls = s.ls ∨ (∃ x, i = .construct x) ∨ i = .destroy) ∧ (t.sampleRate = s.sampleRate ∨ ∃ x, i = .construct x) ∧
      ((t.af = s.af ∧ t.afring = s.afring) ∨ ∃ x, i = .construct x) ∧
      (t.bufferSize = s.bufferSize ∨ ∃ v, i = .setbs v) ∧ t.rom = s.rom ∧ t.params = s.params

/-- R250, R93: a response code other than 0 is 1, and only CONSTRUCT produces it. -/
def Obligations.OnlyConstructAnswersAllocationFailed : Prop :=
  ∀ (i : Instr) (s t : State) (code : Nibble) (left right : BitVec 32), exec i s = .next t →
    t.hostResponse ≠ s.hostResponse → t.hostResponse = some (code ++ left ++ right) → code ≠ 0#4 →
    code = 1#4 ∧ ∃ x, i = .construct x

/-- R25: no behaviour of the unit depends on `BUFFER_SIZE`: but for SETBS, which writes it, and RDCSR 1, which reads it,
every instruction does with another value in the register what it does with this one. -/
def Obligations.BufferSizeInfluencesNothing : Prop :=
  ∀ (i : Instr) (s : State) (v : BitVec 32), (∀ x, i ≠ .setbs x) → i ≠ .rdcsr 1#4 →
    (∀ t, exec i s = .next t → exec i { s with bufferSize := v } = .next { t with bufferSize := v }) ∧
      (∀ f, exec i s = .fault f → exec i { s with bufferSize := v } = .fault f) ∧
      ∀ r, exec i s = .refused r → exec i { s with bufferSize := v } = .refused r

/-! ### Host commands -/

/-- R136, R137, R138: `NOP`, `SETBS` and `RDCSR` answer `CODE = 0` and change nothing but, for `SETBS`, `BUFFER_SIZE`;
`STATUS` is `AFRING << 4 | AF << 1 | RDY`. -/
def Obligations.NopSetbsAndRdcsrAnswer : Prop :=
  ∀ s : State, s.inProgress = false → s.overlapped = false →
    exec .nop s = .next { s with hostResponse := some (0#4 ++ 0#32 ++ 0#32) } ∧
    (∀ v, exec (.setbs v) s = .next { s with bufferSize := v, hostResponse := some (0#4 ++ 0#32 ++ 0#32) }) ∧
    exec (.rdcsr 0#4) s = .next { s with hostResponse := some (0#4 ++ 0#32 ++ s.sampleRate) } ∧
    exec (.rdcsr 1#4) s = .next { s with hostResponse := some (0#4 ++ 0#32 ++ s.bufferSize) } ∧
    ∃ v : BitVec 32, exec (.rdcsr 2#4) s = .next { s with hostResponse := some (0#4 ++ 0#32 ++ v) } ∧
      v.toNat = 16 * s.afring.toNat + (if s.af then 2 else 0) + (if s.ls = .ready then 1 else 0)

/-- R139: `PROCESS` latches its operand, empties the wires and starts the schedule at slot 0, in READY; its response is
due until `END`. That the stages are the steps that follow is log entry 1. -/
def Obligations.ProcessLatchesAndStartsTheSchedule : Prop :=
  ∀ (s : State) (x : Sample), s.inProgress = false → s.ls = .ready →
    ∃ t, exec (.process x) s = .next t ∧ t.inLatch = x ∧ (∀ i, t.wire i = none) ∧ t.spc = 0#6 ∧
      t.inProgress = true ∧ t.hostResponse = none ∧
      { s with inLatch := t.inLatch, wires := t.wires, spc := t.spc, inProgress := t.inProgress,
               hostResponse := t.hostResponse } = t ∧ SameMemory s t

/-- R140, R141, R290: a command in the lifecycle state where the table marks it a violation is refused, and so are
overlapping commands: any command while a PROCESS is in progress, and each command of one step where the host's next
word is issued without waiting for its response. That the step of the first of those two is the one refused is the
model's choice: log entry 12. -/
def Obligations.ProtocolViolationsAreRefused : Prop :=
  (∀ s : State, s.inProgress = false → s.overlapped = false → s.ls = .empty →
    exec .destroy s = .refused (.protocolViolation .empty)) ∧
  (∀ s : State, s.inProgress = false → s.ls = .empty → ∀ x,
    exec (.process x) s = .refused (.protocolViolation .empty)) ∧
  (∀ s : State, s.inProgress = false → s.overlapped = false → s.ls = .ready → ∀ x,
    exec (.construct x) s = .refused (.protocolViolation .ready)) ∧
  (∀ s : State, s.inProgress = true → ∀ x n,
    exec .nop s = .refused .commandInProgress ∧ exec (.construct x) s = .refused .commandInProgress ∧
      exec (.process x) s = .refused .commandInProgress ∧ exec .destroy s = .refused .commandInProgress ∧
      exec (.setbs x) s = .refused .commandInProgress ∧ exec (.rdcsr n) s = .refused .commandInProgress) ∧
  (∀ (s : State) (h : HostIssue) (rest : List HostIssue), s.hostQueue = h :: rest → h.waits = false → ∀ x n,
    exec .nop s = .refused .commandInProgress ∧ exec (.construct x) s = .refused .commandInProgress ∧
      exec .destroy s = .refused .commandInProgress ∧ exec (.setbs x) s = .refused .commandInProgress ∧
      exec (.rdcsr n) s = .refused .commandInProgress)

/-- R133, U17: in EMPTY, CONSTRUCT is refused for its rate exactly where that is not finite and positive or gives a ring
a product above `2^CAP_MAX_LOG2`. For an admitted rate it completes where every ring's delay in samples is defined
(R10), so with the default parameters always (U3), and is otherwise refused at most for an undefined one. -/
def Obligations.ConstructCompletesOrIsRefusedByItsRateAndDelays : Prop :=
  ∀ (s : State) (rate : Sample), s.inProgress = false → s.overlapped = false → s.ls = .empty →
    let p := s.params
    let admitted := ∃ q, valueOf rate = some q ∧ 0 < q ∧
      ∀ r : RingId, ∃ n, valueOf (fmul 0 rate (p.row r).maxDelayS) = some n ∧ n ≤ 2 ^ p.capMaxLog2
    let defined := ∀ r : RingId, ∃ ds, truncI32 (fmul 0 rate (p.row r).delayS) = some ds
    (admitted → defined → ∃ t, exec (.construct rate) s = .next t) ∧
    (admitted → p = Config.defaults → defined) ∧
    (admitted → ¬ defined →
      (∃ t, exec (.construct rate) s = .next t) ∨ exec (.construct rate) s = .refused .conversionUndefined) ∧
    (¬ admitted → exec (.construct rate) s = .refused .sampleRateNotAdmitted)

/-- R133: CONSTRUCT with an allocator that grants all twelve requests, in ring order. The grants stand in the model's queue
of answers, and other memory keeps its words: log entries 8 and 4. -/
def Obligations.ConstructBuildsTheUnit : Prop :=
  ∀ (s : State) (rate : Sample) (bases : Vector (BitVec 32) 12) (later : List (Option (BitVec 32))),
    s.inProgress = false → s.overlapped = false → s.ls = .empty → LegalParams s.params →
    s.params.admittedRate rate = true →
    (∀ r : RingId, ∃ ds, truncI32 (fmul 0 rate (s.params.row r).delayS) = some ds) →
    s.allocQueue = bases.toList.map some ++ later →
    let cap := fun r : RingId => capacityOf rate (s.params.row r).maxDelayS
    LiveContract s.params.addressSpace ((allRings.reverse.map fun r => ⟨bases[r], cap r⟩) ++ s.live) →
    ∃ t, exec (.construct rate) s = .next t ∧ t.ls = .ready ∧ t.status = 1#32 ∧ t.sampleRate = rate ∧
      (∀ r : RingId, (t.ring r).base = bases[r] ∧ RingOk rate (s.params.row r) (t.ring r) ∧
        (t.ring r).cursor = 0#32) ∧
      (∀ r : RingId, ∀ j < cap r, t.memRead (bases[r] + BitVec.ofNat 32 j) = 0x00000000#32) ∧
      (∀ a : BitVec 32,
        let w := a.toNat % 2 ^ s.params.dmAddrW
        (∀ r : RingId, w < bases[r].toNat ∨ bases[r].toNat + cap r ≤ w) → t.memRead a = s.memRead a) ∧
      t.live = (allRings.reverse.map fun r => ⟨bases[r], cap r⟩) ++ s.live ∧
      t.allocTraffic = s.allocTraffic ++ allRings.map (fun r =>
        ⟨0#1 ++ BitVec.ofNat 32 (4 * cap r), some (1#1 ++ bases[r])⟩) ∧
      (∃ n, t.lfo = ⟨fdiv (n + 1) (fmul n s.params.twoPi s.params.lfoFreqHz) rate, 0x3F800000#32, 0x00000000#32⟩) ∧
      t.dcb = ⟨0x00000000#32, 0x00000000#32⟩ ∧ t.hsh = #v[0x00000000#32, 0x00000000#32] ∧ t.fb = 0x00000000#32 ∧
      (∀ i, t.wire i = none) ∧ t.spc = 0#6 ∧ t.hostResponse = some (0#4 ++ 0#32 ++ 0#32) ∧
      { s with ls := t.ls, af := false, afring := 0#4, sampleRate := rate, rings := t.rings, dm := t.dm,
               live := t.live, allocTraffic := t.allocTraffic, allocQueue := later, lfo := t.lfo, dcb := t.dcb,
               hsh := t.hsh, fb := t.fb, wires := t.wires, spc := t.spc, inLatch := t.inLatch, outL := t.outL,
               outR := t.outR, hostResponse := t.hostResponse, draws := t.draws } = t

/-- R133, R251: CONSTRUCT whose allocator grants the rings before `r` and refuses ring `r`: the granted regions are
released in reverse order, no region more than before is held, and AllocationFailed is recorded and answered. The
answers stand in the model's queue, and other memory keeps its words: log entries 8 and 4. -/
def Obligations.ConstructFailsAtTheFirstRefusedRing : Prop :=
  ∀ (s : State) (rate : Sample) (bases : Vector (BitVec 32) 12) (r : RingId) (later : List (Option (BitVec 32))),
    s.inProgress = false → s.overlapped = false → s.ls = .empty → LegalParams s.params →
    s.params.admittedRate rate = true →
    s.allocQueue = (bases.toList.take r.val).map some ++ none :: later →
    let cap := fun q : RingId => capacityOf rate (s.params.row q).maxDelayS
    let before := allRings.take r.val
    (∀ q ∈ before, ∃ ds, truncI32 (fmul 0 rate (s.params.row q).delayS) = some ds) →
    LiveContract s.params.addressSpace ((before.reverse.map fun q => ⟨bases[q], cap q⟩) ++ s.live) →
    ∃ t ar, exec (.construct rate) s = .next t ∧ t.ls = .empty ∧ t.af = true ∧ t.afring = BitVec.ofNat 4 r.val ∧
      t.sampleRate = rate ∧ t.bufferSize = s.bufferSize ∧ t.spc = 0#6 ∧ (∀ i, t.wire i = none) ∧ t.live = s.live ∧
      (ar : AllocWord).toNat < 2 ^ 32 ∧
      t.allocTraffic = s.allocTraffic ++ before.map (fun q =>
          ⟨0#1 ++ BitVec.ofNat 32 (4 * cap q), some (1#1 ++ bases[q])⟩) ++
        [⟨0#1 ++ BitVec.ofNat 32 (4 * cap r), some ar⟩] ++ before.reverse.map (fun q => ⟨1#1 ++ bases[q], none⟩) ∧
      t.hostResponse = some (1#4 ++ 0#32 ++ BitVec.ofNat 32 r.val) ∧
      (∀ a : BitVec 32,
        let w := a.toNat % 2 ^ s.params.dmAddrW
        (∀ q ∈ before, w < bases[q].toNat ∨ bases[q].toNat + cap q ≤ w) → t.memRead a = s.memRead a) ∧
      { s with ls := t.ls, af := t.af, afring := t.afring, sampleRate := rate, rings := t.rings, dm := t.dm,
               allocTraffic := t.allocTraffic, allocQueue := later, lfo := t.lfo, dcb := t.dcb, hsh := t.hsh,
               fb := t.fb, wires := t.wires, spc := t.spc, inLatch := t.inLatch, outL := t.outL, outR := t.outR,
               hostResponse := t.hostResponse, draws := t.draws } = t

/-- R135: DESTROY frees rings 11 to 0, each once, and leaves EMPTY with `AF`, `AFRING`, `SAMPLE_RATE`, `BUFFER_SIZE` and
all of memory as they were. That memory keeps its words is the model's choice, log entry 4, that the wires keep
what they held, log entry 18, and that the twelve `FREE`s leave the allocator's coming answers alone, log entry 8. -/
def Obligations.DestroyReleasesEveryRingOnce : Prop :=
  ∀ s : State, s.inProgress = false → s.overlapped = false → s.ls = .ready → s.live = s.ringRegions →
    LiveContract s.params.addressSpace s.live →
    ∃ t, exec .destroy s = .next t ∧ t.ls = .empty ∧ t.live = [] ∧ t.spc = 0#6 ∧
      t.allocTraffic = s.allocTraffic ++ allRings.reverse.map (fun r => ⟨1#1 ++ (s.ring r).base, none⟩) ∧
      t.hostResponse = some (0#4 ++ 0#32 ++ 0#32) ∧ SameMemory s t ∧
      { s with ls := t.ls, live := t.live, allocTraffic := t.allocTraffic, lfo := t.lfo, dcb := t.dcb, hsh := t.hsh,
               rings := t.rings, fb := t.fb, inLatch := t.inLatch, outL := t.outL, outR := t.outR, spc := t.spc,
               hostResponse := t.hostResponse, draws := t.draws } = t

/-! ### The allocator port -/

/-- R130, R132: `ALLOC` always completes: it grants a region of `size/4` words the contract allows, or answers the null
result. A proposed base whose region lies in the address space and shares no word and no base with a held one is
granted; a proposal the contract forbids, and an exhausted allocator, give the null result. The queue of proposals and
the filter are the model's, log entry 8, so is the rounding of `size/4`, log entry 9, and so is that the granted region
keeps its words, log entry 4. -/
def Obligations.AllocGrantsADisjointRegionOrNothing : Prop :=
  ∀ (s : State) (size : BitVec 32), LiveContract s.params.addressSpace s.live →
    ∃ t, exec (.alloc size) s = .next t ∧ LiveContract s.params.addressSpace t.live ∧
      let null := t.live = s.live ∧ ∃ ar : AllocWord, ar.toNat < 2 ^ 32 ∧
        t.allocTraffic = s.allocTraffic ++ [⟨0#1 ++ size, some ar⟩]
      let granted := fun base : BitVec 32 => t.live = ⟨base, size.toNat / 4⟩ :: s.live ∧
        t.allocTraffic = s.allocTraffic ++ [⟨0#1 ++ size, some (1#1 ++ base)⟩]
      (null ∨ ∃ base, granted base) ∧
      (∀ rest, s.allocQueue = none :: rest → null) ∧
      (∀ base rest, s.allocQueue = some base :: rest →
        (LiveContract s.params.addressSpace (⟨base, size.toNat / 4⟩ :: s.live) → granted base) ∧
        (¬ LiveContract s.params.addressSpace (⟨base, size.toNat / 4⟩ :: s.live) → null)) ∧
      { s with live := t.live, allocTraffic := t.allocTraffic, allocQueue := s.allocQueue.tail,
               draws := t.draws } = t ∧ SameMemory s t

/-- R131: `FREE` always completes, with no answer. Of a held region's base it takes exactly that region off the live set.
Of a base that no held region has the spec states no result: the live set stays, and the coming answers are a free value,
which is the model's choice, log entry 10. That a freed region keeps its words is log entry 4, and that the `FREE` of a
held region leaves the coming answers alone log entry 8. -/
def Obligations.FreeReturnsTheNamedRegion : Prop :=
  ∀ (s : State) (base : BitVec 32), LiveContract s.params.addressSpace s.live →
    (∀ g ∈ s.live, g.base = base →
      ∃ t, exec (.free base) s = .next t ∧ t.live = s.live.filter (fun h => h.base != base) ∧
        t.allocTraffic = s.allocTraffic ++ [⟨1#1 ++ base, none⟩] ∧
        { s with live := t.live, allocTraffic := t.allocTraffic } = t ∧ SameMemory s t) ∧
    ((∀ g ∈ s.live, g.base ≠ base) →
      ∃ t, exec (.free base) s = .next t ∧ t.live = s.live ∧
        t.allocTraffic = s.allocTraffic ++ [⟨1#1 ++ base, none⟩] ∧
        { s with allocTraffic := t.allocTraffic, allocQueue := t.allocQueue, draws := t.draws } = t ∧
        SameMemory s t)

/-! ### The parameters -/

/-- R5, R6, R7: the parameters after reset are the spec's default tables. That State carries them is the model's choice:
log entry 15. -/
def Obligations.DefaultParametersAreTheTables : Prop :=
  let p := State.reset.params
  p.topology.rings.toList.map (·.maxDelayS) =
      [0x3CA3D70A#32, 0x3CA3D70A#32, 0x3CA3D70A#32, 0x3CA3D70A#32, 0x3D4CCCCD#32, 0x3D4CCCCD#32, 0x3D4CCCCD#32,
        0x3E4CCCCD#32, 0x3D4CCCCD#32, 0x3DCCCCCD#32, 0x3DCCCCCD#32, 0x3E4CCCCD#32] ∧
    p.topology.rings.toList.map (·.delayS) =
      [0x3B656042#32, 0x3BA3D70A#32, 0x3C03126F#32, 0x3C271DE7#32, 0x3CCCCCCD#32, 0x3D408312#32, 0x3CFDF3B6#32,
        0x3DF7CED9#32, 0x3D27EF9E#32, 0x3DA9FBE7#32, 0x3D89374C#32, 0x3E374BC7#32] ∧
    p.topology.apK.toList =
      [0x3F3851EC#32, 0x3F2147AE#32, 0x3F4F5C29#32, 0x3F1C28F6#32, 0x3F2147AE#32, 0x3F2147AE#32] ∧
    p.topology.vapK.toList = [0x3F0CCCCD#32, 0x3F0CCCCD#32] ∧
    p.topology.consts.toList = [0x3A03126F#32, 0x399D4952#32, 0x3F4CCCCD#32, 0x3F4CCCCD#32] ∧
    p.topology.taps.toList.map (·.offsetS) =
      [0x3951B717#32, 0x39EBEDFA#32, 0x399D4952#32, 0x391D4952#32, 0x399D4952#32, 0x3A5ED289#32, 0x3A378034#32,
        0x3A79096C#32] ∧
    p.topology.taps.toList.map (·.gain) =
      [0x3F000000#32, 0x3ECCCCCD#32, 0x3EE66666#32, 0x3EB33333#32, 0x3EE66666#32, 0x3EB33333#32, 0x3F000000#32,
        0x3ECCCCCD#32] ∧
    p.lfoFreqHz = 0x3F000000#32 ∧ p.twoPi = 0x40C90FDB#32 ∧ p.dcbK = 0x3F7D70A4#32 ∧ p.hshK = 0x3E99999A#32 ∧
    p.capMaxLog2 = 24 ∧ p.dmAddrW = 32
end

