-- ==== Sys2Proof/Laws/Float.lean ====
section
/-! SUPPORT. Sys2Proof/Laws/Float.lean: the binary32 layer: what a pattern is worth, that the one rounding is the nearest
with ties to even, and that a produced NaN is quiet. -/

namespace Sys2Proof
namespace Machine

/-! ### Patterns and values -/

theorem expField_eq (x : Sample) : expField x = x.toNat / 2 ^ 23 % 256 := by
  simp [expField, BitVec.extractLsb'_toNat, Nat.shiftRight_eq_div_pow]

theorem fracField_eq (x : Sample) : fracField x = x.toNat % 2 ^ 23 := by
  simp [fracField, BitVec.extractLsb'_toNat]

theorem msb_eq (x : Sample) : x.msb = decide (2 ^ 31 ≤ x.toNat) := by
  rw [BitVec.msb_eq_decide]

/-- The rational number `(-1)^neg * m * 2^e`. -/
def ratOf (neg : Bool) (m : Nat) (e : Int) : ℚ := (signed neg m : ℚ) * (2 : ℚ) ^ e

theorem signed_cast (neg : Bool) (m : Nat) : (signed neg m : ℚ) = if neg then -(m : ℚ) else m := by
  cases neg <;> simp [signed]

theorem valueOf_eq (x : Sample) :
    valueOf x = if x.toNat / 2 ^ 23 % 256 = 255 then none
      else if x.toNat / 2 ^ 23 % 256 = 0 then
        some ((if x.toNat < 2 ^ 31 then (1 : ℚ) else -1) * ((x.toNat % 2 ^ 23 : Nat) : ℚ) / 2 ^ 149)
      else some ((if x.toNat < 2 ^ 31 then (1 : ℚ) else -1) * (2 ^ 23 + ((x.toNat % 2 ^ 23 : Nat) : ℚ)) *
        2 ^ (x.toNat / 2 ^ 23 % 256) / 2 ^ 150) := rfl

theorem sign_times (b : Bool) (m : ℚ) : (if b then -m else m) = (if b then -1 else 1) * m := by
  cases b <;> simp

/-- The arithmetic's reading of a pattern and the value of R90 agree. -/
theorem valueOf_classify (x : Sample) :
    valueOf x = match classify x with
      | .nan => none
      | .inf _ => none
      | .finite neg m e => some (ratOf neg m e) := by
  have hs : ((if x.toNat < 2 ^ 31 then (1 : ℚ) else -1)) = if decide (2 ^ 31 ≤ x.toNat) then (-1 : ℚ) else 1 := by
    by_cases h : x.toNat < 2 ^ 31
    · rw [if_pos h, decide_eq_false (by omega)]; rfl
    · rw [if_neg h, decide_eq_true (by omega)]; rfl
  rw [valueOf_eq, hs]
  unfold classify
  rw [expField_eq, fracField_eq, msb_eq]
  generalize decide (2 ^ 31 ≤ x.toNat) = b
  generalize x.toNat % 2 ^ 23 = f
  generalize x.toNat / 2 ^ 23 % 256 = e
  split
  · split <;> rename_i h <;> split at h <;> first | rfl | cases h
  · split
    · show _ = some _
      rw [ratOf, signed_cast, sign_times b (f : ℚ), zpow_neg, div_eq_mul_inv]
      rfl
    · have h150 : ((2 : ℚ) ^ (150 : ℤ)) = 2 ^ 150 := rfl
      show _ = some _
      rw [ratOf, signed_cast, sign_times b ((2 ^ 23 + f : Nat) : ℚ), zpow_sub₀ (by norm_num), zpow_natCast, h150,
        div_eq_mul_inv, div_eq_mul_inv, mul_assoc _ ((2 : ℚ) ^ e), Nat.cast_add, Nat.cast_pow, Nat.cast_ofNat]

theorem valueOf_finite {x : Sample} {neg : Bool} {m : Nat} {e : Int} (h : classify x = .finite neg m e) :
    valueOf x = some (ratOf neg m e) := by rw [valueOf_classify, h]

theorem classify_of_valueOf {x : Sample} {q : ℚ} (h : valueOf x = some q) :
    ∃ neg m e, classify x = .finite neg m e ∧ ratOf neg m e = q := by
  rw [valueOf_classify] at h
  split at h
  · cases h
  · cases h
  · rename_i neg m e hc
    exact ⟨neg, m, e, hc, by simpa using h⟩

/-! ### One rounding to an integer -/

/-- `j` is not nearer to `x` than `v` is, and where it is as near and another number, `v` is even. -/
def NotNearer (v : Nat) (x : ℚ) (j : ℤ) : Prop :=
  |(v : ℚ) - x| < |(j : ℚ) - x| ∨ j = v ∨ (|(v : ℚ) - x| = |(j : ℚ) - x| ∧ v % 2 = 0)

/-- An integer within half of `x`, even at a tie, is the nearest. -/
theorem notNearer_of_half {v : Nat} {x : ℚ} (h : |(v : ℚ) - x| < 1 / 2 ∨ (|(v : ℚ) - x| = 1 / 2 ∧ v % 2 = 0))
    (j : ℤ) : NotNearer v x j := by
  by_cases hj : j = v
  · exact Or.inr (Or.inl hj)
  · have h1 : (1 : ℚ) ≤ |(j : ℚ) - v| := by
      have : (1 : ℤ) ≤ |j - v| := Int.one_le_abs (sub_ne_zero.2 hj)
      exact_mod_cast this
    have h2 : |(j : ℚ) - v| ≤ |(j : ℚ) - x| + |(v : ℚ) - x| := by
      rw [abs_sub_comm (v : ℚ) x]
      exact abs_sub_le _ _ _
    rcases h with h | ⟨h, he⟩
    · exact Or.inl (by linarith)
    · rcases lt_or_eq_of_le (show |(v : ℚ) - x| ≤ |(j : ℚ) - x| by linarith) with hlt | heq
      · exact Or.inl hlt
      · exact Or.inr (Or.inr ⟨heq, he⟩)

/-- `roundShift` is within half of `m / 2^k`, even at a tie. -/
theorem roundShift_half (m k : Nat) :
    |(roundShift m k : ℚ) - m / 2 ^ k| < 1 / 2 ∨
      (|(roundShift m k : ℚ) - m / 2 ^ k| = 1 / 2 ∧ roundShift m k % 2 = 0) := by
  have hpos : (0 : ℚ) < 2 ^ k := by positivity
  have hm : (m : ℚ) = 2 ^ k * (m / 2 ^ k : Nat) + (m % 2 ^ k : Nat) := by
    exact_mod_cast (Nat.div_add_mod m (2 ^ k)).symm
  have hlt : m % 2 ^ k < 2 ^ k := Nat.mod_lt _ (by positivity)
  have hdiv : (m : ℚ) / 2 ^ k = (m / 2 ^ k : Nat) + ((m % 2 ^ k : Nat) : ℚ) / 2 ^ k := by
    rw [div_eq_iff hpos.ne', add_mul, div_mul_cancel₀ _ hpos.ne', mul_comm]; exact hm
  unfold roundShift
  simp only
  generalize m / 2 ^ k = h at *
  generalize m % 2 ^ k = l at *
  rw [hdiv]
  have hl0 : (0 : ℚ) ≤ l / 2 ^ k := by positivity
  have hl1 : (l : ℚ) / 2 ^ k < 1 := by rw [div_lt_one hpos]; exact_mod_cast hlt
  by_cases h1 : 2 ^ k < 2 * l
  · have : (1 : ℚ) / 2 < l / 2 ^ k := by
      rw [div_lt_div_iff₀ (by norm_num) hpos]; rw [one_mul, mul_comm]; exact_mod_cast h1
    rw [if_pos (Or.inl h1)]
    left
    push_cast
    rw [abs_lt]
    constructor <;> linarith
  · by_cases h2 : 2 * l = 2 ^ k
    · have : (l : ℚ) / 2 ^ k = 1 / 2 := by
        rw [div_eq_div_iff hpos.ne' (by norm_num), one_mul, mul_comm]; exact_mod_cast h2
      by_cases h3 : h % 2 = 1
      · rw [if_pos (Or.inr ⟨h2, h3⟩)]
        right
        refine ⟨?_, by omega⟩
        rw [this, Nat.cast_add, Nat.cast_one, show (h : ℚ) + 1 - (h + 1 / 2) = 1 / 2 by ring]
        norm_num
      · rw [if_neg (by omega)]
        right
        refine ⟨?_, by omega⟩
        rw [this, show (h : ℚ) - (h + 1 / 2) = -(1 / 2) by ring]
        norm_num
    · have : (l : ℚ) / 2 ^ k < 1 / 2 := by
        rw [div_lt_div_iff₀ hpos (by norm_num), one_mul, mul_comm]
        have : 2 * l < 2 ^ k := by omega
        exact_mod_cast this
      rw [if_neg (by omega)]
      left
      rw [abs_lt]
      constructor <;> linarith

/-- `significand` is within half of `m * 2^e` in units of `2^q`, even at a tie. -/
theorem significand_half (m : Nat) (e q : Int) :
    |(significand m e q : ℚ) - (m : ℚ) * 2 ^ e / 2 ^ q| < 1 / 2 ∨
      (|(significand m e q : ℚ) - (m : ℚ) * 2 ^ e / 2 ^ q| = 1 / 2 ∧ significand m e q % 2 = 0) := by
  unfold significand
  split
  · rename_i h
    left
    have : (m : ℚ) * 2 ^ e / 2 ^ q = ((m * 2 ^ (e - q).toNat : Nat) : ℚ) := by
      rw [mul_div_assoc, ← zpow_sub₀ (by norm_num), Nat.cast_mul, Nat.cast_pow, ← zpow_natCast,
        Int.toNat_of_nonneg (by omega)]
      rfl
    rw [this]
    simp
  · rename_i h
    have : (m : ℚ) * 2 ^ e / 2 ^ q = (m : ℚ) / 2 ^ (q - e).toNat := by
      rw [← zpow_natCast, Int.toNat_of_nonneg (by omega), zpow_sub₀ (by norm_num)]
      field_simp
    rw [this]
    exact roundShift_half m _

/-- `significand` rounds `m * 2^e` in units of `2^q` to the nearest integer, ties to even. -/
theorem significand_nearest (m : Nat) (e q : Int) (j : ℤ) :
    NotNearer (significand m e q) ((m : ℚ) * 2 ^ e / 2 ^ q) j :=
  notNearer_of_half (significand_half m e q) j

/-! ### Magnitudes in units of 2^-149 -/

/-- The magnitude of the low 31 bits of a finite pattern, in units of 2^-149 (R90). -/
def unitsOf (mag : Nat) : Nat :=
  if mag < 2 ^ 23 then mag else (2 ^ 23 + mag % 2 ^ 23) * 2 ^ (mag / 2 ^ 23 - 1)

/-- A magnitude is a multiple of `2^t` units, or below `2^(23+t)` of them. -/
theorem unitsOf_multiple_or_small (mag t : Nat) : (∃ j, unitsOf mag = j * 2 ^ t) ∨ unitsOf mag < 2 ^ (23 + t) := by
  unfold unitsOf
  split
  · right
    exact lt_of_lt_of_le ‹_› (Nat.pow_le_pow_right (by norm_num) (by omega))
  · by_cases h : t ≤ mag / 2 ^ 23 - 1
    · left
      refine ⟨(2 ^ 23 + mag % 2 ^ 23) * 2 ^ (mag / 2 ^ 23 - 1 - t), ?_⟩
      rw [mul_assoc, ← pow_add, Nat.sub_add_cancel h]
    · right
      have h1 : 2 ^ 23 + mag % 2 ^ 23 < 2 ^ 24 := by omega
      calc (2 ^ 23 + mag % 2 ^ 23) * 2 ^ (mag / 2 ^ 23 - 1)
          < 2 ^ 24 * 2 ^ (mag / 2 ^ 23 - 1) := Nat.mul_lt_mul_of_pos_right h1 (by positivity)
        _ = 2 ^ (24 + (mag / 2 ^ 23 - 1)) := (pow_add ..).symm
        _ ≤ 2 ^ (23 + t) := Nat.pow_le_pow_right (by norm_num) (by omega)

/-- The pattern built from a significand and a last place is worth their product. -/
theorem unitsOf_pack {t sig : Nat} (hs : sig ≤ 2 ^ 24) (hn : t = 0 ∨ 2 ^ 23 ≤ sig) :
    unitsOf (t * 2 ^ 23 + sig) = sig * 2 ^ t := by
  unfold unitsOf
  by_cases h24 : sig = 2 ^ 24
  · subst h24
    rw [if_neg (by omega), show (t * 2 ^ 23 + 2 ^ 24) % 2 ^ 23 = 0 by omega,
      show (t * 2 ^ 23 + 2 ^ 24) / 2 ^ 23 - 1 = t + 1 by omega, pow_succ]
    ring
  · by_cases h23 : 2 ^ 23 ≤ sig
    · rw [if_neg (by omega), show (t * 2 ^ 23 + sig) % 2 ^ 23 = sig - 2 ^ 23 by omega,
        show (t * 2 ^ 23 + sig) / 2 ^ 23 - 1 = t by omega, Nat.add_sub_cancel' h23]
    · obtain rfl : t = 0 := by omega
      rw [if_pos (by omega)]
      omega

/-- The value of a pattern from its sign bit and the low 31 bits. -/
theorem valueOf_units {x : Sample} (h : x.toNat % 2 ^ 31 < 255 * 2 ^ 23) :
    valueOf x = some ((if x.toNat < 2 ^ 31 then (1 : ℚ) else -1) * unitsOf (x.toNat % 2 ^ 31) / 2 ^ 149) := by
  have hx := x.isLt
  rw [valueOf_eq, if_neg (by omega)]
  unfold unitsOf
  by_cases hsm : x.toNat % 2 ^ 31 < 2 ^ 23
  · rw [if_pos (by omega), if_pos hsm, show x.toNat % 2 ^ 31 = x.toNat % 2 ^ 23 by omega]
  · rw [if_neg (by omega), if_neg hsm, show x.toNat % 2 ^ 31 % 2 ^ 23 = x.toNat % 2 ^ 23 by omega,
      show x.toNat % 2 ^ 31 / 2 ^ 23 - 1 = x.toNat / 2 ^ 23 % 256 - 1 by omega]
    obtain ⟨k, hk⟩ : ∃ k, x.toNat / 2 ^ 23 % 256 = k + 1 := ⟨x.toNat / 2 ^ 23 % 256 - 1, by omega⟩
    rw [hk, Nat.add_sub_cancel, pow_succ, show (150 : Nat) = 149 + 1 from rfl, pow_succ (2 : ℚ) 149]
    push_cast
    congr 1
    field_simp
    rw [pow_succ (2 : ℚ) k]
    norm_num
    ring

/-- Every finite value is a signed magnitude. -/
theorem exists_units_of_valueOf {c : Sample} {w : ℚ} (h : valueOf c = some w) :
    ∃ mag, w = unitsOf mag / 2 ^ 149 ∨ w = -(unitsOf mag / 2 ^ 149) := by
  have hc : c.toNat % 2 ^ 31 < 255 * 2 ^ 23 := by
    by_contra hn
    have := c.isLt
    rw [valueOf_eq, if_pos (by omega)] at h
    cases h
  rw [valueOf_units hc] at h
  refine ⟨c.toNat % 2 ^ 31, ?_⟩
  have := Option.some.inj h
  by_cases hs : c.toNat < 2 ^ 31
  · left; rw [← this, if_pos hs, one_mul]
  · right; rw [← this, if_neg hs]; ring

/-- No finite value is nearer to a magnitude of `x` units than its rounding to a multiple of the last place, which is
the subnormal spacing or leaves 24 significant bits. -/
theorem units_nearest {x : ℚ} {t sig : Nat} (hx : 0 ≤ x) (hs : ∀ j : ℤ, NotNearer sig (x / 2 ^ t) j)
    (hn : t = 0 ∨ (2 : ℚ) ^ (23 + t) ≤ x) (mag : Nat) (neg : Bool) :
    |(sig : ℚ) * 2 ^ t - x| < |(if neg then -(unitsOf mag : ℚ) else unitsOf mag) - x| ∨
      (if neg then -(unitsOf mag : ℚ) else unitsOf mag) = sig * 2 ^ t ∨
      (|(sig : ℚ) * 2 ^ t - x| = |(if neg then -(unitsOf mag : ℚ) else unitsOf mag) - x| ∧ sig % 2 = 0) := by
  have hp : (0 : ℚ) < 2 ^ t := by positivity
  have scale : ∀ a : ℚ, |a * 2 ^ t - x| = |a - x / 2 ^ t| * 2 ^ t := by
    intro a
    rw [← abs_of_pos hp, ← abs_mul, abs_of_pos hp, sub_mul, div_mul_cancel₀ _ hp.ne']
  -- the multiples of the last place
  have mult : ∀ j : ℤ, |(sig : ℚ) * 2 ^ t - x| < |(j : ℚ) * 2 ^ t - x| ∨ (j : ℚ) * 2 ^ t = sig * 2 ^ t ∨
      (|(sig : ℚ) * 2 ^ t - x| = |(j : ℚ) * 2 ^ t - x| ∧ sig % 2 = 0) := by
    intro j
    rw [scale, scale]
    rcases hs j with h | h | ⟨h, he⟩
    · exact Or.inl (mul_lt_mul_of_pos_right h hp)
    · exact Or.inr (Or.inl (by rw [h]; norm_cast))
    · exact Or.inr (Or.inr ⟨by rw [h], he⟩)
  cases neg with
  | false =>
    simp only [Bool.false_eq_true, if_false]
    rcases unitsOf_multiple_or_small mag t with ⟨j, hj⟩ | hsmall
    · have := mult (j : ℤ)
      rw [hj]
      push_cast at this ⊢
      exact this
    · rcases hn with rfl | hn
      · have := mult (unitsOf mag : ℤ)
        simpa using this
      · have hq : (unitsOf mag : ℚ) < 2 ^ (23 + t) := by exact_mod_cast hsmall
        have h1 : |(sig : ℚ) * 2 ^ t - x| ≤ |((2 : ℤ) ^ 23 : ℤ) * 2 ^ t - x| := by
          rcases mult ((2 : ℤ) ^ 23) with h | h | ⟨h, -⟩
          · exact h.le
          · rw [h]
          · exact h.le
        left
        refine lt_of_le_of_lt h1 ?_
        have e1 : (((2 : ℤ) ^ 23 : ℤ) : ℚ) * 2 ^ t = 2 ^ (23 + t) := by push_cast; rw [pow_add]; norm_num
        rw [e1, abs_of_nonpos (by linarith), abs_of_nonpos (by linarith)]
        linarith
  | true =>
    simp only [if_true]
    have h0 := mult 0
    simp only [Int.cast_zero, zero_mul, zero_sub, abs_neg, abs_of_nonneg hx] at h0
    have hu : (0 : ℚ) ≤ unitsOf mag := by positivity
    rw [show -(unitsOf mag : ℚ) - x = -(unitsOf mag + x) by ring, abs_neg,
      abs_of_nonneg (by linarith : (0 : ℚ) ≤ unitsOf mag + x)]
    rcases hu.lt_or_eq with hlt | heq
    · left
      rcases h0 with h | h | ⟨h, -⟩
      · linarith
      · rw [← h, zero_sub, abs_neg, abs_of_nonneg hx]; linarith
      · linarith
    · rw [← heq]
      simpa using h0

/-! ### The rounding of a magnitude -/

/-- `m` lies in its binade. -/
theorem log2_bounds {m : Nat} (hm : m ≠ 0) : (2 : ℚ) ^ (Nat.log2 m : ℤ) ≤ m ∧ (m : ℚ) < 2 ^ ((Nat.log2 m : ℤ) + 1) := by
  have h1 := Nat.log2_self_le hm
  have h2 : m < 2 ^ (Nat.log2 m + 1) := Nat.lt_log2_self
  rw [zpow_natCast, show ((Nat.log2 m : ℤ) + 1) = ((Nat.log2 m + 1 : Nat) : ℤ) by push_cast; rfl, zpow_natCast]
  exact ⟨by exact_mod_cast h1, by exact_mod_cast h2⟩

/-- The last place leaves at most 24 significant bits, and 24 of them unless it is the subnormal spacing. -/
theorem lastPlace_bounds {m : Nat} (hm : m ≠ 0) (e : Int) :
    (m : ℚ) * 2 ^ e / 2 ^ lastPlace m e < 2 ^ 24 ∧
      (lastPlace m e = -149 ∨ (2 : ℚ) ^ 23 ≤ (m : ℚ) * 2 ^ e / 2 ^ lastPlace m e) := by
  obtain ⟨h1, h2⟩ := log2_bounds hm
  have hp : ∀ z : ℤ, (0 : ℚ) < 2 ^ z := fun z => by positivity
  have key : ∀ z : ℤ, (m : ℚ) * 2 ^ e / 2 ^ z = m * 2 ^ (e - z) := by
    intro z; rw [mul_div_assoc, ← zpow_sub₀ (by norm_num)]
  rw [key]
  constructor
  · calc (m : ℚ) * 2 ^ (e - lastPlace m e) < 2 ^ ((Nat.log2 m : ℤ) + 1) * 2 ^ (e - lastPlace m e) :=
          mul_lt_mul_of_pos_right h2 (hp _)
      _ = 2 ^ ((Nat.log2 m : ℤ) + 1 + (e - lastPlace m e)) := (zpow_add₀ (by norm_num) _ _).symm
      _ ≤ 2 ^ (24 : ℤ) := by
          apply zpow_le_zpow_right₀ (by norm_num)
          unfold lastPlace
          omega
      _ = 2 ^ 24 := rfl
  · by_cases hl : lastPlace m e = -149
    · exact Or.inl hl
    · right
      have : lastPlace m e = (Nat.log2 m : ℤ) + e - 23 := by unfold lastPlace at *; omega
      calc (2 : ℚ) ^ 23 = 2 ^ ((Nat.log2 m : ℤ) + (e - lastPlace m e)) := by
            rw [this, show (Nat.log2 m : ℤ) + (e - ((Nat.log2 m : ℤ) + e - 23)) = 23 by ring]; rfl
        _ = 2 ^ (Nat.log2 m : ℤ) * 2 ^ (e - lastPlace m e) := zpow_add₀ (by norm_num) _ _
        _ ≤ _ := mul_le_mul_of_nonneg_right h1 (hp _).le

/-- A magnitude in units of 2^-149, its last place in the same units, and its significand, as `roundMagnitude` has
them. -/
theorem roundMagnitude_spec {m : Nat} (hm : m ≠ 0) (e : Int) :
    ∃ t sig : Nat, roundMagnitude m e = min (t * 2 ^ 23 + sig) 0x7F800000 ∧
      let x : ℚ := (m : ℚ) * 2 ^ e * 2 ^ 149
      (∀ j : ℤ, NotNearer sig (x / 2 ^ t) j) ∧ (t = 0 ∨ (2 : ℚ) ^ (23 + t) ≤ x) ∧ x < 2 ^ (24 + t) ∧
        (|(sig : ℚ) - x / 2 ^ t| < 1 / 2 ∨ (|(sig : ℚ) - x / 2 ^ t| = 1 / 2 ∧ sig % 2 = 0)) := by
  refine ⟨(lastPlace m e + 149).toNat, significand m e (lastPlace m e), by rw [roundMagnitude, if_neg hm], ?_⟩
  intro x
  have hq : -149 ≤ lastPlace m e := le_max_right _ _
  have ht : ((2 : ℚ) ^ (lastPlace m e + 149).toNat) = 2 ^ lastPlace m e * 2 ^ 149 := by
    rw [← zpow_natCast, Int.toNat_of_nonneg (by omega), zpow_add₀ (by norm_num)]; rfl
  have hx : x / 2 ^ (lastPlace m e + 149).toNat = (m : ℚ) * 2 ^ e / 2 ^ lastPlace m e := by
    rw [ht]; exact mul_div_mul_right _ _ (by positivity)
  have hp : (0 : ℚ) < 2 ^ (lastPlace m e + 149).toNat := by positivity
  obtain ⟨b1, b2⟩ := lastPlace_bounds hm e
  rw [← hx] at b1 b2
  refine ⟨fun j => ?_, ?_, ?_, ?_⟩
  · rw [hx]; exact significand_nearest m e _ j
  · rcases b2 with h | h
    · left; rw [h]; rfl
    · right; rw [pow_add]; exact (le_div_iff₀ hp).1 h
  · rw [pow_add]; exact (div_lt_iff₀ hp).1 b1
  · rw [hx]; exact significand_half m e _

theorem toNat_packSign (neg : Bool) {mag : Nat} (h : mag < 2 ^ 31) :
    (packSign neg mag).toNat = mag + if neg then 2 ^ 31 else 0 := by
  unfold packSign
  rw [BitVec.toNat_ofNat]
  apply Nat.mod_eq_of_lt
  cases neg <;> simp <;> omega

/-- The one rounding is the nearest binary32, ties to even (R9). -/
theorem isRounded_packSign (neg : Bool) {m : Nat} (hm : m ≠ 0) (e : Int) :
    IsRounded (ratOf neg m e) (packSign neg (roundMagnitude m e)) := by
  obtain ⟨t, sig, hr, hn, hlow, hup, hh⟩ := roundMagnitude_spec hm e
  rw [hr]
  generalize hx : (m : ℚ) * 2 ^ e * 2 ^ 149 = x at *
  have hm0 : (0 : ℚ) < m := by exact_mod_cast Nat.pos_of_ne_zero hm
  have hx0 : 0 < x := by rw [← hx]; positivity
  have hval : (m : ℚ) * 2 ^ e = x / 2 ^ 149 := by rw [← hx]; field_simp
  have hrat : ratOf neg m e = (if neg then -1 else 1) * (x / 2 ^ 149) := by
    rw [ratOf, signed_cast, sign_times, mul_assoc, hval]
  have hx149 : (0 : ℚ) < x / 2 ^ 149 := by positivity
  have habs : |ratOf neg m e| = x / 2 ^ 149 := by
    rw [hrat]
    cases neg
    · rw [if_neg (by simp), one_mul, abs_of_pos hx149]
    · rw [if_pos rfl, neg_one_mul, abs_neg, abs_of_pos hx149]
  have hp : (0 : ℚ) < 2 ^ t := by positivity
  have hp149 : (0 : ℚ) < 2 ^ 149 := by positivity
  have hy24 : x / 2 ^ t < 2 ^ 24 := by rw [div_lt_iff₀ hp, ← pow_add]; exact hup
  have hsig24 : sig ≤ 2 ^ 24 := by
    have : (sig : ℚ) < 2 ^ 24 + 1 := by
      have : |(sig : ℚ) - x / 2 ^ t| ≤ 1 / 2 := by rcases hh with h | h <;> linarith
      have := (abs_le.1 this).2
      linarith
    have : sig < 2 ^ 24 + 1 := by exact_mod_cast this
    omega
  have hsig23 : t = 0 ∨ 2 ^ 23 ≤ sig := by
    rcases hlow with h | h
    · exact Or.inl h
    · right
      have h1 : (2 : ℚ) ^ 23 ≤ x / 2 ^ t := by rw [le_div_iff₀ hp, ← pow_add]; exact h
      have : |(sig : ℚ) - x / 2 ^ t| ≤ 1 / 2 := by rcases hh with h | h <;> linarith
      have := (abs_le.1 this).1
      have : (2 : ℚ) ^ 23 < sig + 1 := by linarith
      have : 2 ^ 23 < sig + 1 := by exact_mod_cast this
      omega
  have e252 : (2 : ℚ) ^ 252 = 2 ^ 103 * 2 ^ 149 := by rw [← pow_add]
  have e253 : (2 : ℚ) ^ 253 = 2 * 2 ^ 252 := by rw [← pow_succ']
  have p252 : (0 : ℚ) < 2 ^ 252 := by positivity
  have hbound : |ratOf neg m e| < 2 ^ 128 - 2 ^ 103 ↔ x < (2 ^ 25 - 1) * 2 ^ 252 := by
    rw [habs, div_lt_iff₀ hp149, e252, ← mul_assoc, show ((2 : ℚ) ^ 128 - 2 ^ 103) = (2 ^ 25 - 1) * 2 ^ 103 by norm_num]
  unfold IsRounded
  by_cases hmag : t * 2 ^ 23 + sig < 0x7F800000
  · -- a finite result
    have hfin : x < (2 ^ 25 - 1) * 2 ^ 252 := by
      by_contra hge
      have ht : 253 ≤ t := by
        by_contra hlt
        have h1 : (2 : ℚ) ^ (24 + t) ≤ 2 ^ (24 + 252) := pow_le_pow_right₀ (by norm_num) (by omega)
        rw [pow_add 2 24 252] at h1
        have h2 : (2 : ℚ) ^ 24 * 2 ^ 252 < (2 ^ 25 - 1) * 2 ^ 252 := mul_lt_mul_of_pos_right (by norm_num) p252
        exact hge (hup.trans_le (h1.trans h2.le))
      obtain rfl : t = 253 := by omega
      have h1 : (2 : ℚ) ^ 24 - 1 / 2 ≤ x / 2 ^ 253 := by
        rw [le_div_iff₀ hp, e253, ← mul_assoc, show ((2 : ℚ) ^ 24 - 1 / 2) * 2 = 2 ^ 25 - 1 by norm_num]
        exact not_lt.1 hge
      generalize x / 2 ^ 253 = y at h1 hh
      have hs : sig ≤ 2 ^ 24 - 1 := by omega
      have hsq : (sig : ℚ) ≤ 2 ^ 24 - 1 := by
        have : ((sig : ℕ) : ℚ) ≤ ((2 ^ 24 - 1 : ℕ) : ℚ) := by exact_mod_cast hs
        norm_num at this ⊢; exact this
      rcases hh with h | ⟨h, he⟩
      · have := (abs_lt.1 h).1; linarith
      · have h2 := (abs_le.1 h.le).1
        have h3 : (sig : ℚ) = 2 ^ 24 - 1 := by linarith
        have h4 : sig = 2 ^ 24 - 1 := by
          have : ((sig : ℕ) : ℚ) = ((2 ^ 24 - 1 : ℕ) : ℚ) := by rw [h3]; norm_num
          exact_mod_cast this
        omega
    rw [if_pos (hbound.2 hfin), min_eq_left hmag.le]
    have hmag31 : t * 2 ^ 23 + sig < 2 ^ 31 := by omega
    have hlow31 : (packSign neg (t * 2 ^ 23 + sig)).toNat % 2 ^ 31 = t * 2 ^ 23 + sig := by
      rw [toNat_packSign neg hmag31]; cases neg <;> simp <;> omega
    have hsgn : (if (packSign neg (t * 2 ^ 23 + sig)).toNat < 2 ^ 31 then (1 : ℚ) else -1) = if neg then -1 else 1 := by
      rw [toNat_packSign neg hmag31]
      cases neg
      · rw [if_pos (by simpa using hmag31)]; rfl
      · rw [if_neg (by simp)]; rfl
    refine ⟨_, valueOf_units (by omega), fun c w hw => ?_⟩
    rw [hsgn, hlow31, unitsOf_pack hsig24 hsig23, hrat]
    have hpar : (packSign neg (t * 2 ^ 23 + sig)).toNat % 2 = sig % 2 := by
      rw [toNat_packSign neg hmag31]; cases neg <;> simp <;> omega
    rw [hpar]
    obtain ⟨mag, hu⟩ := exists_units_of_valueOf hw
    -- the competitor, with the result's sign taken out
    obtain ⟨neg', hu'⟩ : ∃ neg' : Bool,
        w = (if neg then -1 else 1) * ((if neg' then -(unitsOf mag : ℚ) else unitsOf mag) / 2 ^ 149) := by
      rcases hu with h | h
      · refine ⟨neg, ?_⟩; rw [h]; cases neg <;> simp; ring
      · refine ⟨!neg, ?_⟩; rw [h]; cases neg <;> simp; ring
    have dist : ∀ a : ℚ, |(if neg then -1 else 1) * (a / 2 ^ 149) - (if neg then -1 else 1) * (x / 2 ^ 149)| =
        |a - x| / 2 ^ 149 := by
      intro a
      rw [← mul_sub, abs_mul, ← sub_div, abs_div, abs_of_pos hp149]
      cases neg <;> simp
    rw [hu', mul_div_assoc, dist, dist, div_lt_div_iff_of_pos_right hp149, div_left_inj' hp149.ne']
    push_cast
    rcases units_nearest hx0.le hn hlow mag neg' with h | h | h
    · exact Or.inl h
    · exact Or.inr (Or.inl (by rw [h]))
    · exact Or.inr (Or.inr h)
  · -- overflow
    have hinf : ¬ x < (2 ^ 25 - 1) * 2 ^ 252 := by
      intro hlt
      have ht : t ≤ 253 := by
        by_contra hgt
        have h1 : (2 : ℚ) ^ (25 + 252) ≤ 2 ^ (23 + t) := pow_le_pow_right₀ (by norm_num) (by omega)
        rw [pow_add 2 25 252] at h1
        have h2 : ((2 : ℚ) ^ 25 - 1) * 2 ^ 252 ≤ 2 ^ 25 * 2 ^ 252 := mul_le_mul_of_nonneg_right (by norm_num) p252.le
        rcases hlow with h | h
        · omega
        · exact absurd (hlt.trans_le (h2.trans (h1.trans h))) (lt_irrefl _)
      have ht' : t = 253 := by omega
      have hs : sig = 2 ^ 24 := by omega
      subst ht'
      have h1 : x / 2 ^ 253 < 2 ^ 24 - 1 / 2 := by
        rw [div_lt_iff₀ hp, e253, ← mul_assoc, show ((2 : ℚ) ^ 24 - 1 / 2) * 2 = 2 ^ 25 - 1 by norm_num]
        exact hlt
      generalize x / 2 ^ 253 = y at h1 hh
      have : |(sig : ℚ) - y| ≤ 1 / 2 := by rcases hh with h | h <;> linarith
      have := (abs_le.1 this).2
      rw [hs] at this
      norm_num at this h1
      linarith
    rw [if_neg (fun h => hinf (hbound.1 h)), min_eq_right (by omega), hrat]
    cases neg
    · rw [if_neg (by rw [if_neg (by simp), one_mul]; exact not_lt.2 hx149.le)]; decide
    · rw [if_pos (by rw [if_pos rfl, neg_one_mul]; exact neg_lt_zero.2 hx149)]; decide

theorem isRounded_zero (neg : Bool) : IsRounded 0 (packSign neg 0) := by
  unfold IsRounded
  rw [if_pos (by norm_num)]
  have h : (packSign neg 0).toNat % 2 ^ 31 = 0 := by cases neg <;> decide
  refine ⟨0, ?_, fun c w _ => ?_⟩
  · rw [valueOf_units (by omega), h]; simp [unitsOf]
  · by_cases hw : w = 0
    · exact Or.inr (Or.inl hw)
    · left; simpa using abs_pos.2 hw

/-! ### NaNs -/

/-- The NaN of any draw is quiet (R9). -/
theorem isQuietNaN_quietNaN (n : Nat) : isQuietNaN (quietNaN n) = true := by
  unfold isQuietNaN quietNaN
  generalize Config.nanBits n = b
  have : ∀ (x : BitVec 1) (y : BitVec 22), (x ++ 0xFF#8 ++ 1#1 ++ y : BitVec 32).toNat / 2 ^ 22 % 2 ^ 9 = 0x1FF := by
    intro x y
    have hy := y.isLt
    simp only [BitVec.toNat_append, Nat.shiftLeft_eq]
    rw [← Nat.shiftLeft_eq, ← Nat.shiftLeft_add_eq_or_of_lt hy, Nat.shiftLeft_eq]
    have h1 : ∀ z : BitVec 1, ((z.toNat * 2 ^ 8 ||| (255#8).toNat) * 2 ^ 1 ||| (1#1).toNat) % 512 = 511 := by decide
    have := h1 x
    omega
  simpa using this _ _

theorem classify_nan {x : Sample} (h : isNaN x = true) : classify x = .nan := by
  unfold isNaN at h
  simp only [Bool.and_eq_true, decide_eq_true_eq, bne_iff_ne] at h
  unfold classify
  rw [expField_eq, fracField_eq, if_pos h.1, if_neg h.2]

/-! ### Bounds of finite samples -/

/-- The least integer not below a magnitude is at most `b` exactly when the magnitude is. -/
theorem ceilPart_le_iff (m : Nat) (e : Int) (b : Nat) : ceilPart m e ≤ b ↔ (m : ℚ) * 2 ^ e ≤ b := by
  unfold ceilPart
  split
  · rename_i h
    have : (m : ℚ) * 2 ^ e = ((m * 2 ^ e.toNat : Nat) : ℚ) := by
      rw [Nat.cast_mul, Nat.cast_pow, ← zpow_natCast, Int.toNat_of_nonneg h]; rfl
    rw [this]
    exact_mod_cast Iff.rfl
  · have hp : 0 < 2 ^ (-e).toNat := by positivity
    have : (m : ℚ) * 2 ^ e = (m : ℚ) / 2 ^ (-e).toNat := by
      rw [← zpow_natCast, Int.toNat_of_nonneg (by omega), zpow_neg, div_inv_eq_mul]
    rw [this, div_le_iff₀ (by exact_mod_cast hp), Nat.div_le_iff_le_mul_add_pred hp]
    have h2 : ((m : ℚ) ≤ b * 2 ^ (-e).toNat) ↔ m ≤ 2 ^ (-e).toNat * b := by
      rw [mul_comm (b : ℚ)]; exact_mod_cast Iff.rfl
    rw [h2]
    omega

theorem ratOf_nonneg (m : Nat) (e : Int) : ratOf false m e = (m : ℚ) * 2 ^ e := by rw [ratOf, signed_cast]; rfl

theorem ratOf_neg (m : Nat) (e : Int) : ratOf true m e = -((m : ℚ) * 2 ^ e) := by
  rw [ratOf, signed_cast, if_pos rfl, neg_mul]

theorem atMost_iff (x : Sample) (b : Nat) : atMost x b = true ↔ ∃ n, valueOf x = some n ∧ n ≤ b := by
  unfold atMost
  rw [valueOf_classify]
  cases h : classify x with
  | nan => simp
  | inf s => simp
  | finite neg m e =>
    cases neg with
    | false => simp [ratOf_nonneg, ceilPart_le_iff]
    | true =>
      have h1 : (0 : ℚ) ≤ (m : ℚ) * 2 ^ e := by positivity
      have h2 : (0 : ℚ) ≤ b := by positivity
      simp only [Bool.true_or, true_iff]
      exact ⟨_, rfl, by rw [ratOf_neg]; linarith⟩

theorem isPositive_iff (x : Sample) : isPositive x = true ↔ ∃ q, valueOf x = some q ∧ 0 < q := by
  unfold isPositive
  rw [valueOf_classify]
  cases h : classify x with
  | nan => simp
  | inf s => simp
  | finite neg m e =>
    have hp : (0 : ℚ) < 2 ^ e := by positivity
    cases neg with
    | false =>
      simp only [Bool.not_false, Bool.true_and, bne_iff_ne, Option.some.injEq, exists_eq_left', ratOf_nonneg,
        mul_pos_iff_of_pos_right hp, Nat.cast_pos]
      exact Nat.pos_iff_ne_zero.symm
    | true =>
      have h1 : (0 : ℚ) ≤ (m : ℚ) * 2 ^ e := by positivity
      simp [ratOf_neg, h1]

/-- The admitted sample rates in terms of real values (R133). -/
theorem admittedRate_iff (p : Params) (rate : Sample) :
    p.admittedRate rate = true ↔ (∃ q, valueOf rate = some q ∧ 0 < q) ∧
      ∀ r : RingId, ∃ n, valueOf (fmul 0 rate (p.row r).maxDelayS) = some n ∧ n ≤ 2 ^ p.capMaxLog2 := by
  have hall : ∀ r : RingId, r ∈ allRings := by decide
  have hcap : ((2 ^ p.capMaxLog2 : Nat) : ℚ) = 2 ^ p.capMaxLog2 := by rw [Nat.cast_pow]; rfl
  unfold Params.admittedRate rateProduct
  rw [Bool.and_eq_true, isPositive_iff, List.all_eq_true]
  refine and_congr_right fun _ => ⟨fun h r => ?_, fun h r _ => ?_⟩
  · rw [← hcap]; exact (atMost_iff _ _).1 (h r (hall r))
  · rw [← hcap] at h; exact (atMost_iff _ _).2 (h r)

end Machine
end Sys2Proof
end

