-- ==== Sys2Proof/Laws/Memory.lean ====
section
/-! SUPPORT. Sys2Proof/Laws/Memory.lean: the laws of the delay memory: what a read sees after each operation, and that
every operation keeps the canonical form. -/

namespace Sys2Proof
namespace Machine
namespace DelayMemory

@[simp] theorem read_nil (a : Nat) : read [] a = unlisted := rfl

@[simp] theorem read_cons (k : Nat) (v : Sample) (m : DelayMemory) (a : Nat) :
    read ((k, v) :: m) a = if k = a then v else read m a := rfl

@[simp] theorem wfFrom_nil (low : Nat) : wfFrom [] low = true := rfl

theorem wfFrom_cons (k : Nat) (v : Sample) (m : DelayMemory) (low : Nat) :
    wfFrom ((k, v) :: m) low = true ↔ low ≤ k ∧ k < 2 ^ 32 ∧ v ≠ unlisted ∧ wfFrom m (k + 1) = true := by
  simp [wfFrom, and_assoc]

/-- A canonical memory is canonical from any lower start. -/
theorem wfFrom_mono {m : DelayMemory} {low low' : Nat} (h : low' ≤ low) (hm : wfFrom m low = true) :
    wfFrom m low' = true := by
  cases m with
  | nil => rfl
  | cons c m =>
    obtain ⟨k, v⟩ := c
    rw [wfFrom_cons] at hm ⊢
    exact ⟨h.trans hm.1, hm.2⟩

/-- Below its start a canonical memory lists nothing. -/
theorem read_below {m : DelayMemory} {low a : Nat} (hm : wfFrom m low = true) (h : a < low) :
    read m a = unlisted := by
  induction m generalizing low with
  | nil => rfl
  | cons c m ih =>
    obtain ⟨k, v⟩ := c
    rw [wfFrom_cons] at hm
    rw [read_cons, if_neg (by omega), ih hm.2.2.2 (by omega)]

theorem put_eq (a : Nat) (v : Sample) (m : DelayMemory) :
    put a v m = if v = unlisted then m else (a, v) :: m := rfl

/-- The read of a memory that starts above `a`, after a put at `a`. -/
theorem read_put {m : DelayMemory} {a : Nat} (v : Sample) (b : Nat) (hm : wfFrom m (a + 1) = true) :
    read (put a v m) b = if b = a then v else read m b := by
  rw [put_eq]
  by_cases hv : v = unlisted
  · rw [if_pos hv]
    by_cases hb : b = a
    · rw [if_pos hb, hv, hb, read_below hm (by omega)]
    · rw [if_neg hb]
  · rw [if_neg hv, read_cons]
    simp only [eq_comm]

theorem wfFrom_put {m : DelayMemory} {low a : Nat} (v : Sample) (hlow : low ≤ a) (ha : a < 2 ^ 32)
    (hm : wfFrom m (a + 1) = true) : wfFrom (put a v m) low = true := by
  rw [put_eq]
  split
  · exact wfFrom_mono (by omega) hm
  · rename_i hv
    exact (wfFrom_cons ..).2 ⟨hlow, ha, hv, hm⟩

/-- Read after write: the stored word at its address, the old word elsewhere. -/
theorem read_write {m : DelayMemory} {low : Nat} (hm : wfFrom m low = true) (a : Nat) (v : Sample) (b : Nat) :
    read (write m a v) b = if b = a then v else read m b := by
  induction m generalizing low with
  | nil => exact read_put v b rfl
  | cons c m ih =>
    obtain ⟨k, w⟩ := c
    rw [wfFrom_cons] at hm
    obtain ⟨hk, hk32, hw, hm⟩ := hm
    unfold write
    split
    · exact read_put v b ((wfFrom_cons ..).2 ⟨by omega, hk32, hw, hm⟩)
    · split
      · rename_i _ hak
        subst hak
        rw [read_put v b hm, read_cons]
        by_cases hb : b = a
        · simp [hb]
        · simp [hb, Ne.symm hb]
      · rename_i h1 h2
        rw [read_cons, read_cons, ih hm]
        by_cases hb : b = a
        · simp [hb, Ne.symm h2]
        · simp [hb]

/-- A write keeps the canonical form. -/
theorem wfFrom_write {m : DelayMemory} {low a : Nat} (v : Sample) (hm : wfFrom m low = true) (hlow : low ≤ a)
    (ha : a < 2 ^ 32) : wfFrom (write m a v) low = true := by
  induction m generalizing low with
  | nil => exact wfFrom_put v hlow ha rfl
  | cons c m ih =>
    obtain ⟨k, w⟩ := c
    have hm' := hm
    rw [wfFrom_cons] at hm
    obtain ⟨hk, hk32, hw, hm⟩ := hm
    unfold write
    split
    · exact wfFrom_put v hlow ha ((wfFrom_cons ..).2 ⟨by omega, hk32, hw, hm⟩)
    · split
      · rename_i _ hak
        subst hak
        exact wfFrom_put v hlow ha hm
      · exact (wfFrom_cons ..).2 ⟨hk, hk32, hw, ih hm (by omega)⟩

/-- The read after a zero-fill: `+0.0` in the filled range, the old word elsewhere. -/
theorem read_zeroFill (m : DelayMemory) (a n b : Nat) :
    read (zeroFill m a n) b = if a ≤ b ∧ b < a + n then unlisted else read m b := by
  induction m with
  | nil => simp [zeroFill]
  | cons c m ih =>
    obtain ⟨k, v⟩ := c
    unfold zeroFill at ih ⊢
    by_cases hk : a ≤ k ∧ k < a + n
    · rw [List.filter_cons_of_neg (by simp [hk]), ih, read_cons]
      by_cases hb : k = b
      · subst hb; simp [hk]
      · simp [hb]
    · rw [List.filter_cons_of_pos (by simp only [Bool.not_eq_true', Bool.and_eq_false_iff, decide_eq_false_iff_not]; omega), read_cons, read_cons, ih]
      by_cases hb : k = b
      · subst hb; simp [hk]
      · simp [hb]

/-- A zero-fill keeps the canonical form. -/
theorem wfFrom_zeroFill {m : DelayMemory} {low : Nat} (a n : Nat) (hm : wfFrom m low = true) :
    wfFrom (zeroFill m a n) low = true := by
  induction m generalizing low with
  | nil => rfl
  | cons c m ih =>
    obtain ⟨k, v⟩ := c
    rw [wfFrom_cons] at hm
    unfold zeroFill at ih ⊢
    rw [List.filter_cons]
    split
    · exact (wfFrom_cons ..).2 ⟨hm.1, hm.2.1, hm.2.2.1, ih hm.2.2.2⟩
    · exact wfFrom_mono (by omega) (ih hm.2.2.2)

/-- The zero-fill is the loop of R133: one store of `+0.0` to each cell in turn. -/
theorem zeroFill_succ_read {m : DelayMemory} {low : Nat} (a n b : Nat) (hm : wfFrom m low = true) :
    read (zeroFill m a (n + 1)) b = read (write (zeroFill m a n) (a + n) plusZero) b := by
  rw [read_write (wfFrom_zeroFill a n hm), read_zeroFill, read_zeroFill]
  by_cases hb : b = a + n
  · simp [hb, unlisted]
  · simp only [if_neg hb]
    have : (a ≤ b ∧ b < a + (n + 1)) ↔ (a ≤ b ∧ b < a + n) := by omega
    simp only [this]

end DelayMemory

theorem wf_nil : Memory.wf [] = true := rfl

theorem wf_write {m : DelayMemory} {a : Nat} (v : Sample) (hm : Memory.wf m = true) (ha : a < 2 ^ 32) :
    Memory.wf (DelayMemory.write m a v) = true := DelayMemory.wfFrom_write v hm (Nat.zero_le _) ha

theorem wf_zeroFill {m : DelayMemory} (a n : Nat) (hm : Memory.wf m = true) :
    Memory.wf (DelayMemory.zeroFill m a n) = true := DelayMemory.wfFrom_zeroFill a n hm

/-- Every address names a word of the 2^32 the canonical form lists. -/
theorem wordAddress_lt (p : Params) (a : BitVec 32) : p.wordAddress a < 2 ^ 32 :=
  (Nat.mod_le _ _).trans_lt a.isLt

/-- With 32 address bits or more an address is its own word. -/
theorem wordAddress_eq {p : Params} (h : 32 ≤ p.dmAddrW) (a : BitVec 32) : p.wordAddress a = a.toNat :=
  Nat.mod_eq_of_lt (a.isLt.trans_le (Nat.pow_le_pow_right (by omega) h))

/-- An address inside the address space is its own word. -/
theorem wordAddress_of_lt {p : Params} {a : BitVec 32} (h : a.toNat < p.addressSpace) : p.wordAddress a = a.toNat :=
  Nat.mod_eq_of_lt (h.trans_le (Nat.pow_le_pow_right (by omega) (min_le_left _ _)))

/-- `MemWrite` keeps the canonical form. -/
theorem wf_memWrite {s : State} (a : BitVec 32) (v : Sample) (hm : Memory.wf s.dm = true) :
    Memory.wf (s.memWrite a v).dm = true := wf_write v hm (wordAddress_lt _ a)

/-- `RingWriteAdvance` keeps the canonical form. -/
theorem wf_ringWriteAdvance {s : State} (r : RingId) (v : Sample) (hm : Memory.wf s.dm = true) :
    Memory.wf (s.ringWriteAdvance r v).dm = true := wf_memWrite _ v hm

/-- The memory after reset has the canonical form. -/
theorem wf_reset : Memory.wf State.reset.dm = true := rfl

/-- `MemRead` after `MemWrite`. -/
theorem memRead_memWrite {s : State} (hm : Memory.wf s.dm = true) (a b : BitVec 32) (v : Sample) :
    (s.memWrite a v).memRead b = if s.params.wordAddress b = s.params.wordAddress a then v else s.memRead b :=
  DelayMemory.read_write hm _ _ _

end Machine
end Sys2Proof
end

