-- ==== Sys2Proof/Laws/State.lean ====
section
/-! SUPPORT. Sys2Proof/Laws/State.lean: what every update does to every field of State, one lemma each, so that no proof
unfolds a record update. -/

namespace Sys2Proof
namespace Machine

variable (s : State)

/-! ### A wire write -/

@[simp] theorem State.setWire_ls (i : Nibble) (v : Sample) : (s.setWire i v).ls = s.ls := rfl
@[simp] theorem State.setWire_inProgress (i : Nibble) (v : Sample) : (s.setWire i v).inProgress = s.inProgress := rfl
@[simp] theorem State.setWire_spc (i : Nibble) (v : Sample) : (s.setWire i v).spc = s.spc := rfl
@[simp] theorem State.setWire_rom (i : Nibble) (v : Sample) : (s.setWire i v).rom = s.rom := rfl
@[simp] theorem State.setWire_params (i : Nibble) (v : Sample) : (s.setWire i v).params = s.params := rfl
@[simp] theorem State.setWire_wires (i : Nibble) (v : Sample) :
    (s.setWire i v).wires = s.wires.set i.toNat (some v) i.isLt := rfl
@[simp] theorem State.setWire_af (i : Nibble) (v : Sample) : (s.setWire i v).af = s.af := rfl
@[simp] theorem State.setWire_afring (i : Nibble) (v : Sample) : (s.setWire i v).afring = s.afring := rfl
@[simp] theorem State.setWire_sampleRate (i : Nibble) (v : Sample) : (s.setWire i v).sampleRate = s.sampleRate := rfl
@[simp] theorem State.setWire_bufferSize (i : Nibble) (v : Sample) : (s.setWire i v).bufferSize = s.bufferSize := rfl
@[simp] theorem State.setWire_lfo (i : Nibble) (v : Sample) : (s.setWire i v).lfo = s.lfo := rfl
@[simp] theorem State.setWire_dcb (i : Nibble) (v : Sample) : (s.setWire i v).dcb = s.dcb := rfl
@[simp] theorem State.setWire_hsh (i : Nibble) (v : Sample) : (s.setWire i v).hsh = s.hsh := rfl
@[simp] theorem State.setWire_rings (i : Nibble) (v : Sample) : (s.setWire i v).rings = s.rings := rfl
@[simp] theorem State.setWire_dm (i : Nibble) (v : Sample) : (s.setWire i v).dm = s.dm := rfl
@[simp] theorem State.setWire_fb (i : Nibble) (v : Sample) : (s.setWire i v).fb = s.fb := rfl
@[simp] theorem State.setWire_inLatch (i : Nibble) (v : Sample) : (s.setWire i v).inLatch = s.inLatch := rfl
@[simp] theorem State.setWire_outL (i : Nibble) (v : Sample) : (s.setWire i v).outL = s.outL := rfl
@[simp] theorem State.setWire_outR (i : Nibble) (v : Sample) : (s.setWire i v).outR = s.outR := rfl
@[simp] theorem State.setWire_live (i : Nibble) (v : Sample) : (s.setWire i v).live = s.live := rfl
@[simp] theorem State.setWire_hostQueue (i : Nibble) (v : Sample) : (s.setWire i v).hostQueue = s.hostQueue := rfl
@[simp] theorem State.setWire_hostResponse (i : Nibble) (v : Sample) :
    (s.setWire i v).hostResponse = s.hostResponse := rfl
@[simp] theorem State.setWire_allocRequest (i : Nibble) (v : Sample) :
    (s.setWire i v).allocRequest = s.allocRequest := rfl
@[simp] theorem State.setWire_allocTraffic (i : Nibble) (v : Sample) :
    (s.setWire i v).allocTraffic = s.allocTraffic := rfl
@[simp] theorem State.setWire_allocQueue (i : Nibble) (v : Sample) : (s.setWire i v).allocQueue = s.allocQueue := rfl
@[simp] theorem State.setWire_draws (i : Nibble) (v : Sample) : (s.setWire i v).draws = s.draws := rfl

/-! ### A descriptor write -/

@[simp] theorem State.setRing_ls (r : RingId) (d : Ring) : (s.setRing r d).ls = s.ls := rfl
@[simp] theorem State.setRing_inProgress (r : RingId) (d : Ring) : (s.setRing r d).inProgress = s.inProgress := rfl
@[simp] theorem State.setRing_spc (r : RingId) (d : Ring) : (s.setRing r d).spc = s.spc := rfl
@[simp] theorem State.setRing_rom (r : RingId) (d : Ring) : (s.setRing r d).rom = s.rom := rfl
@[simp] theorem State.setRing_params (r : RingId) (d : Ring) : (s.setRing r d).params = s.params := rfl
@[simp] theorem State.setRing_wires (r : RingId) (d : Ring) : (s.setRing r d).wires = s.wires := rfl
@[simp] theorem State.setRing_af (r : RingId) (d : Ring) : (s.setRing r d).af = s.af := rfl
@[simp] theorem State.setRing_afring (r : RingId) (d : Ring) : (s.setRing r d).afring = s.afring := rfl
@[simp] theorem State.setRing_sampleRate (r : RingId) (d : Ring) : (s.setRing r d).sampleRate = s.sampleRate := rfl
@[simp] theorem State.setRing_bufferSize (r : RingId) (d : Ring) : (s.setRing r d).bufferSize = s.bufferSize := rfl
@[simp] theorem State.setRing_lfo (r : RingId) (d : Ring) : (s.setRing r d).lfo = s.lfo := rfl
@[simp] theorem State.setRing_dcb (r : RingId) (d : Ring) : (s.setRing r d).dcb = s.dcb := rfl
@[simp] theorem State.setRing_hsh (r : RingId) (d : Ring) : (s.setRing r d).hsh = s.hsh := rfl
@[simp] theorem State.setRing_rings (r : RingId) (d : Ring) : (s.setRing r d).rings = s.rings.set r d := rfl
@[simp] theorem State.setRing_dm (r : RingId) (d : Ring) : (s.setRing r d).dm = s.dm := rfl
@[simp] theorem State.setRing_fb (r : RingId) (d : Ring) : (s.setRing r d).fb = s.fb := rfl
@[simp] theorem State.setRing_inLatch (r : RingId) (d : Ring) : (s.setRing r d).inLatch = s.inLatch := rfl
@[simp] theorem State.setRing_outL (r : RingId) (d : Ring) : (s.setRing r d).outL = s.outL := rfl
@[simp] theorem State.setRing_outR (r : RingId) (d : Ring) : (s.setRing r d).outR = s.outR := rfl
@[simp] theorem State.setRing_live (r : RingId) (d : Ring) : (s.setRing r d).live = s.live := rfl
@[simp] theorem State.setRing_hostQueue (r : RingId) (d : Ring) : (s.setRing r d).hostQueue = s.hostQueue := rfl
@[simp] theorem State.setRing_hostResponse (r : RingId) (d : Ring) :
    (s.setRing r d).hostResponse = s.hostResponse := rfl
@[simp] theorem State.setRing_allocRequest (r : RingId) (d : Ring) :
    (s.setRing r d).allocRequest = s.allocRequest := rfl
@[simp] theorem State.setRing_allocTraffic (r : RingId) (d : Ring) :
    (s.setRing r d).allocTraffic = s.allocTraffic := rfl
@[simp] theorem State.setRing_allocQueue (r : RingId) (d : Ring) : (s.setRing r d).allocQueue = s.allocQueue := rfl
@[simp] theorem State.setRing_draws (r : RingId) (d : Ring) : (s.setRing r d).draws = s.draws := rfl

/-! ### A memory write -/

@[simp] theorem State.memWrite_ls (a : BitVec 32) (v : Sample) : (s.memWrite a v).ls = s.ls := rfl
@[simp] theorem State.memWrite_inProgress (a : BitVec 32) (v : Sample) :
    (s.memWrite a v).inProgress = s.inProgress := rfl
@[simp] theorem State.memWrite_spc (a : BitVec 32) (v : Sample) : (s.memWrite a v).spc = s.spc := rfl
@[simp] theorem State.memWrite_rom (a : BitVec 32) (v : Sample) : (s.memWrite a v).rom = s.rom := rfl
@[simp] theorem State.memWrite_params (a : BitVec 32) (v : Sample) : (s.memWrite a v).params = s.params := rfl
@[simp] theorem State.memWrite_wires (a : BitVec 32) (v : Sample) : (s.memWrite a v).wires = s.wires := rfl
@[simp] theorem State.memWrite_af (a : BitVec 32) (v : Sample) : (s.memWrite a v).af = s.af := rfl
@[simp] theorem State.memWrite_afring (a : BitVec 32) (v : Sample) : (s.memWrite a v).afring = s.afring := rfl
@[simp] theorem State.memWrite_sampleRate (a : BitVec 32) (v : Sample) :
    (s.memWrite a v).sampleRate = s.sampleRate := rfl
@[simp] theorem State.memWrite_bufferSize (a : BitVec 32) (v : Sample) :
    (s.memWrite a v).bufferSize = s.bufferSize := rfl
@[simp] theorem State.memWrite_lfo (a : BitVec 32) (v : Sample) : (s.memWrite a v).lfo = s.lfo := rfl
@[simp] theorem State.memWrite_dcb (a : BitVec 32) (v : Sample) : (s.memWrite a v).dcb = s.dcb := rfl
@[simp] theorem State.memWrite_hsh (a : BitVec 32) (v : Sample) : (s.memWrite a v).hsh = s.hsh := rfl
@[simp] theorem State.memWrite_rings (a : BitVec 32) (v : Sample) : (s.memWrite a v).rings = s.rings := rfl
@[simp] theorem State.memWrite_dm (a : BitVec 32) (v : Sample) :
    (s.memWrite a v).dm = DelayMemory.write s.dm (s.params.wordAddress a) v := rfl
@[simp] theorem State.memWrite_fb (a : BitVec 32) (v : Sample) : (s.memWrite a v).fb = s.fb := rfl
@[simp] theorem State.memWrite_inLatch (a : BitVec 32) (v : Sample) : (s.memWrite a v).inLatch = s.inLatch := rfl
@[simp] theorem State.memWrite_outL (a : BitVec 32) (v : Sample) : (s.memWrite a v).outL = s.outL := rfl
@[simp] theorem State.memWrite_outR (a : BitVec 32) (v : Sample) : (s.memWrite a v).outR = s.outR := rfl
@[simp] theorem State.memWrite_live (a : BitVec 32) (v : Sample) : (s.memWrite a v).live = s.live := rfl
@[simp] theorem State.memWrite_hostQueue (a : BitVec 32) (v : Sample) :
    (s.memWrite a v).hostQueue = s.hostQueue := rfl
@[simp] theorem State.memWrite_hostResponse (a : BitVec 32) (v : Sample) :
    (s.memWrite a v).hostResponse = s.hostResponse := rfl
@[simp] theorem State.memWrite_allocRequest (a : BitVec 32) (v : Sample) :
    (s.memWrite a v).allocRequest = s.allocRequest := rfl
@[simp] theorem State.memWrite_allocTraffic (a : BitVec 32) (v : Sample) :
    (s.memWrite a v).allocTraffic = s.allocTraffic := rfl
@[simp] theorem State.memWrite_allocQueue (a : BitVec 32) (v : Sample) :
    (s.memWrite a v).allocQueue = s.allocQueue := rfl
@[simp] theorem State.memWrite_draws (a : BitVec 32) (v : Sample) : (s.memWrite a v).draws = s.draws := rfl

/-! ### A ring write and advance -/

@[simp] theorem State.ringWriteAdvance_ls (r : RingId) (v : Sample) : (s.ringWriteAdvance r v).ls = s.ls := rfl
@[simp] theorem State.ringWriteAdvance_inProgress (r : RingId) (v : Sample) :
    (s.ringWriteAdvance r v).inProgress = s.inProgress := rfl
@[simp] theorem State.ringWriteAdvance_spc (r : RingId) (v : Sample) : (s.ringWriteAdvance r v).spc = s.spc := rfl
@[simp] theorem State.ringWriteAdvance_rom (r : RingId) (v : Sample) : (s.ringWriteAdvance r v).rom = s.rom := rfl
@[simp] theorem State.ringWriteAdvance_params (r : RingId) (v : Sample) :
    (s.ringWriteAdvance r v).params = s.params := rfl
@[simp] theorem State.ringWriteAdvance_wires (r : RingId) (v : Sample) :
    (s.ringWriteAdvance r v).wires = s.wires := rfl
@[simp] theorem State.ringWriteAdvance_af (r : RingId) (v : Sample) : (s.ringWriteAdvance r v).af = s.af := rfl
@[simp] theorem State.ringWriteAdvance_afring (r : RingId) (v : Sample) :
    (s.ringWriteAdvance r v).afring = s.afring := rfl
@[simp] theorem State.ringWriteAdvance_sampleRate (r : RingId) (v : Sample) :
    (s.ringWriteAdvance r v).sampleRate = s.sampleRate := rfl
@[simp] theorem State.ringWriteAdvance_bufferSize (r : RingId) (v : Sample) :
    (s.ringWriteAdvance r v).bufferSize = s.bufferSize := rfl
@[simp] theorem State.ringWriteAdvance_lfo (r : RingId) (v : Sample) : (s.ringWriteAdvance r v).lfo = s.lfo := rfl
@[simp] theorem State.ringWriteAdvance_dcb (r : RingId) (v : Sample) : (s.ringWriteAdvance r v).dcb = s.dcb := rfl
@[simp] theorem State.ringWriteAdvance_hsh (r : RingId) (v : Sample) : (s.ringWriteAdvance r v).hsh = s.hsh := rfl
@[simp] theorem State.ringWriteAdvance_rings (r : RingId) (v : Sample) :
    (s.ringWriteAdvance r v).rings = s.rings.set r (s.ring r).advanced := rfl
@[simp] theorem State.ringWriteAdvance_dm (r : RingId) (v : Sample) :
    (s.ringWriteAdvance r v).dm = DelayMemory.write s.dm (s.params.wordAddress (s.ring r).writeAddress) v := rfl
@[simp] theorem State.ringWriteAdvance_fb (r : RingId) (v : Sample) : (s.ringWriteAdvance r v).fb = s.fb := rfl
@[simp] theorem State.ringWriteAdvance_inLatch (r : RingId) (v : Sample) :
    (s.ringWriteAdvance r v).inLatch = s.inLatch := rfl
@[simp] theorem State.ringWriteAdvance_outL (r : RingId) (v : Sample) : (s.ringWriteAdvance r v).outL = s.outL := rfl
@[simp] theorem State.ringWriteAdvance_outR (r : RingId) (v : Sample) : (s.ringWriteAdvance r v).outR = s.outR := rfl
@[simp] theorem State.ringWriteAdvance_live (r : RingId) (v : Sample) : (s.ringWriteAdvance r v).live = s.live := rfl
@[simp] theorem State.ringWriteAdvance_hostQueue (r : RingId) (v : Sample) :
    (s.ringWriteAdvance r v).hostQueue = s.hostQueue := rfl
@[simp] theorem State.ringWriteAdvance_hostResponse (r : RingId) (v : Sample) :
    (s.ringWriteAdvance r v).hostResponse = s.hostResponse := rfl
@[simp] theorem State.ringWriteAdvance_allocRequest (r : RingId) (v : Sample) :
    (s.ringWriteAdvance r v).allocRequest = s.allocRequest := rfl
@[simp] theorem State.ringWriteAdvance_allocTraffic (r : RingId) (v : Sample) :
    (s.ringWriteAdvance r v).allocTraffic = s.allocTraffic := rfl
@[simp] theorem State.ringWriteAdvance_allocQueue (r : RingId) (v : Sample) :
    (s.ringWriteAdvance r v).allocQueue = s.allocQueue := rfl
@[simp] theorem State.ringWriteAdvance_draws (r : RingId) (v : Sample) :
    (s.ringWriteAdvance r v).draws = s.draws := rfl

/-! ### The advance of the stage counter -/

@[simp] theorem State.advance_ls : (s.advance).ls = s.ls := rfl
@[simp] theorem State.advance_inProgress : (s.advance).inProgress = s.inProgress := rfl
@[simp] theorem State.advance_spc : (s.advance).spc = s.spc + 1#6 := rfl
@[simp] theorem State.advance_rom : (s.advance).rom = s.rom := rfl
@[simp] theorem State.advance_params : (s.advance).params = s.params := rfl
@[simp] theorem State.advance_wires : (s.advance).wires = s.wires := rfl
@[simp] theorem State.advance_af : (s.advance).af = s.af := rfl
@[simp] theorem State.advance_afring : (s.advance).afring = s.afring := rfl
@[simp] theorem State.advance_sampleRate : (s.advance).sampleRate = s.sampleRate := rfl
@[simp] theorem State.advance_bufferSize : (s.advance).bufferSize = s.bufferSize := rfl
@[simp] theorem State.advance_lfo : (s.advance).lfo = s.lfo := rfl
@[simp] theorem State.advance_dcb : (s.advance).dcb = s.dcb := rfl
@[simp] theorem State.advance_hsh : (s.advance).hsh = s.hsh := rfl
@[simp] theorem State.advance_rings : (s.advance).rings = s.rings := rfl
@[simp] theorem State.advance_dm : (s.advance).dm = s.dm := rfl
@[simp] theorem State.advance_fb : (s.advance).fb = s.fb := rfl
@[simp] theorem State.advance_inLatch : (s.advance).inLatch = s.inLatch := rfl
@[simp] theorem State.advance_outL : (s.advance).outL = s.outL := rfl
@[simp] theorem State.advance_outR : (s.advance).outR = s.outR := rfl
@[simp] theorem State.advance_live : (s.advance).live = s.live := rfl
@[simp] theorem State.advance_hostQueue : (s.advance).hostQueue = s.hostQueue := rfl
@[simp] theorem State.advance_hostResponse : (s.advance).hostResponse = s.hostResponse := rfl
@[simp] theorem State.advance_allocRequest : (s.advance).allocRequest = s.allocRequest := rfl
@[simp] theorem State.advance_allocTraffic : (s.advance).allocTraffic = s.allocTraffic := rfl
@[simp] theorem State.advance_allocQueue : (s.advance).allocQueue = s.allocQueue := rfl
@[simp] theorem State.advance_draws : (s.advance).draws = s.draws := rfl

/-! ### Draws of free values -/

@[simp] theorem State.drawn_ls (n : Nat) : (s.drawn n).ls = s.ls := rfl
@[simp] theorem State.drawn_inProgress (n : Nat) : (s.drawn n).inProgress = s.inProgress := rfl
@[simp] theorem State.drawn_spc (n : Nat) : (s.drawn n).spc = s.spc := rfl
@[simp] theorem State.drawn_rom (n : Nat) : (s.drawn n).rom = s.rom := rfl
@[simp] theorem State.drawn_params (n : Nat) : (s.drawn n).params = s.params := rfl
@[simp] theorem State.drawn_wires (n : Nat) : (s.drawn n).wires = s.wires := rfl
@[simp] theorem State.drawn_af (n : Nat) : (s.drawn n).af = s.af := rfl
@[simp] theorem State.drawn_afring (n : Nat) : (s.drawn n).afring = s.afring := rfl
@[simp] theorem State.drawn_sampleRate (n : Nat) : (s.drawn n).sampleRate = s.sampleRate := rfl
@[simp] theorem State.drawn_bufferSize (n : Nat) : (s.drawn n).bufferSize = s.bufferSize := rfl
@[simp] theorem State.drawn_lfo (n : Nat) : (s.drawn n).lfo = s.lfo := rfl
@[simp] theorem State.drawn_dcb (n : Nat) : (s.drawn n).dcb = s.dcb := rfl
@[simp] theorem State.drawn_hsh (n : Nat) : (s.drawn n).hsh = s.hsh := rfl
@[simp] theorem State.drawn_rings (n : Nat) : (s.drawn n).rings = s.rings := rfl
@[simp] theorem State.drawn_dm (n : Nat) : (s.drawn n).dm = s.dm := rfl
@[simp] theorem State.drawn_fb (n : Nat) : (s.drawn n).fb = s.fb := rfl
@[simp] theorem State.drawn_inLatch (n : Nat) : (s.drawn n).inLatch = s.inLatch := rfl
@[simp] theorem State.drawn_outL (n : Nat) : (s.drawn n).outL = s.outL := rfl
@[simp] theorem State.drawn_outR (n : Nat) : (s.drawn n).outR = s.outR := rfl
@[simp] theorem State.drawn_live (n : Nat) : (s.drawn n).live = s.live := rfl
@[simp] theorem State.drawn_hostQueue (n : Nat) : (s.drawn n).hostQueue = s.hostQueue := rfl
@[simp] theorem State.drawn_hostResponse (n : Nat) : (s.drawn n).hostResponse = s.hostResponse := rfl
@[simp] theorem State.drawn_allocRequest (n : Nat) : (s.drawn n).allocRequest = s.allocRequest := rfl
@[simp] theorem State.drawn_allocTraffic (n : Nat) : (s.drawn n).allocTraffic = s.allocTraffic := rfl
@[simp] theorem State.drawn_allocQueue (n : Nat) : (s.drawn n).allocQueue = s.allocQueue := rfl
@[simp] theorem State.drawn_draws (n : Nat) : (s.drawn n).draws = s.draws + n := rfl

/-! ### A response -/

@[simp] theorem State.respond_ls (code : Nibble) (l r : BitVec 32) : (s.respond code l r).ls = s.ls := rfl
@[simp] theorem State.respond_inProgress (code : Nibble) (l r : BitVec 32) :
    (s.respond code l r).inProgress = s.inProgress := rfl
@[simp] theorem State.respond_spc (code : Nibble) (l r : BitVec 32) : (s.respond code l r).spc = s.spc := rfl
@[simp] theorem State.respond_rom (code : Nibble) (l r : BitVec 32) : (s.respond code l r).rom = s.rom := rfl
@[simp] theorem State.respond_params (code : Nibble) (l r : BitVec 32) : (s.respond code l r).params = s.params := rfl
@[simp] theorem State.respond_wires (code : Nibble) (l r : BitVec 32) : (s.respond code l r).wires = s.wires := rfl
@[simp] theorem State.respond_af (code : Nibble) (l r : BitVec 32) : (s.respond code l r).af = s.af := rfl
@[simp] theorem State.respond_afring (code : Nibble) (l r : BitVec 32) : (s.respond code l r).afring = s.afring := rfl
@[simp] theorem State.respond_sampleRate (code : Nibble) (l r : BitVec 32) :
    (s.respond code l r).sampleRate = s.sampleRate := rfl
@[simp] theorem State.respond_bufferSize (code : Nibble) (l r : BitVec 32) :
    (s.respond code l r).bufferSize = s.bufferSize := rfl
@[simp] theorem State.respond_lfo (code : Nibble) (l r : BitVec 32) : (s.respond code l r).lfo = s.lfo := rfl
@[simp] theorem State.respond_dcb (code : Nibble) (l r : BitVec 32) : (s.respond code l r).dcb = s.dcb := rfl
@[simp] theorem State.respond_hsh (code : Nibble) (l r : BitVec 32) : (s.respond code l r).hsh = s.hsh := rfl
@[simp] theorem State.respond_rings (code : Nibble) (l r : BitVec 32) : (s.respond code l r).rings = s.rings := rfl
@[simp] theorem State.respond_dm (code : Nibble) (l r : BitVec 32) : (s.respond code l r).dm = s.dm := rfl
@[simp] theorem State.respond_fb (code : Nibble) (l r : BitVec 32) : (s.respond code l r).fb = s.fb := rfl
@[simp] theorem State.respond_inLatch (code : Nibble) (l r : BitVec 32) :
    (s.respond code l r).inLatch = s.inLatch := rfl
@[simp] theorem State.respond_outL (code : Nibble) (l r : BitVec 32) : (s.respond code l r).outL = s.outL := rfl
@[simp] theorem State.respond_outR (code : Nibble) (l r : BitVec 32) : (s.respond code l r).outR = s.outR := rfl
@[simp] theorem State.respond_live (code : Nibble) (l r : BitVec 32) : (s.respond code l r).live = s.live := rfl
@[simp] theorem State.respond_hostQueue (code : Nibble) (l r : BitVec 32) :
    (s.respond code l r).hostQueue = s.hostQueue := rfl
@[simp] theorem State.respond_hostResponse (code : Nibble) (l r : BitVec 32) :
    (s.respond code l r).hostResponse = some (responseWord code l r) := rfl
@[simp] theorem State.respond_allocRequest (code : Nibble) (l r : BitVec 32) :
    (s.respond code l r).allocRequest = s.allocRequest := rfl
@[simp] theorem State.respond_allocTraffic (code : Nibble) (l r : BitVec 32) :
    (s.respond code l r).allocTraffic = s.allocTraffic := rfl
@[simp] theorem State.respond_allocQueue (code : Nibble) (l r : BitVec 32) :
    (s.respond code l r).allocQueue = s.allocQueue := rfl
@[simp] theorem State.respond_draws (code : Nibble) (l r : BitVec 32) : (s.respond code l r).draws = s.draws := rfl

/-! ### An allocator request -/

@[simp] theorem State.allocate_ls (size : BitVec 32) : (s.allocate size).ls = s.ls := rfl
@[simp] theorem State.allocate_inProgress (size : BitVec 32) : (s.allocate size).inProgress = s.inProgress := rfl
@[simp] theorem State.allocate_spc (size : BitVec 32) : (s.allocate size).spc = s.spc := rfl
@[simp] theorem State.allocate_rom (size : BitVec 32) : (s.allocate size).rom = s.rom := rfl
@[simp] theorem State.allocate_params (size : BitVec 32) : (s.allocate size).params = s.params := rfl
@[simp] theorem State.allocate_wires (size : BitVec 32) : (s.allocate size).wires = s.wires := rfl
@[simp] theorem State.allocate_af (size : BitVec 32) : (s.allocate size).af = s.af := rfl
@[simp] theorem State.allocate_afring (size : BitVec 32) : (s.allocate size).afring = s.afring := rfl
@[simp] theorem State.allocate_sampleRate (size : BitVec 32) : (s.allocate size).sampleRate = s.sampleRate := rfl
@[simp] theorem State.allocate_bufferSize (size : BitVec 32) : (s.allocate size).bufferSize = s.bufferSize := rfl
@[simp] theorem State.allocate_lfo (size : BitVec 32) : (s.allocate size).lfo = s.lfo := rfl
@[simp] theorem State.allocate_dcb (size : BitVec 32) : (s.allocate size).dcb = s.dcb := rfl
@[simp] theorem State.allocate_hsh (size : BitVec 32) : (s.allocate size).hsh = s.hsh := rfl
@[simp] theorem State.allocate_rings (size : BitVec 32) : (s.allocate size).rings = s.rings := rfl
@[simp] theorem State.allocate_dm (size : BitVec 32) : (s.allocate size).dm = s.dm := rfl
@[simp] theorem State.allocate_fb (size : BitVec 32) : (s.allocate size).fb = s.fb := rfl
@[simp] theorem State.allocate_inLatch (size : BitVec 32) : (s.allocate size).inLatch = s.inLatch := rfl
@[simp] theorem State.allocate_outL (size : BitVec 32) : (s.allocate size).outL = s.outL := rfl
@[simp] theorem State.allocate_outR (size : BitVec 32) : (s.allocate size).outR = s.outR := rfl
@[simp] theorem State.allocate_hostQueue (size : BitVec 32) : (s.allocate size).hostQueue = s.hostQueue := rfl
@[simp] theorem State.allocate_hostResponse (size : BitVec 32) :
    (s.allocate size).hostResponse = s.hostResponse := rfl
@[simp] theorem State.allocate_allocRequest (size : BitVec 32) :
    (s.allocate size).allocRequest = s.allocRequest := rfl
@[simp] theorem State.allocate_allocQueue (size : BitVec 32) : (s.allocate size).allocQueue = s.allocQueue.tail := rfl
@[simp] theorem State.allocate_draws (size : BitVec 32) : (s.allocate size).draws = s.draws + 1 := rfl

/-! ### A release -/

@[simp] theorem State.release_ls (b : BitVec 32) : (s.release b).ls = s.ls := rfl
@[simp] theorem State.release_inProgress (b : BitVec 32) : (s.release b).inProgress = s.inProgress := rfl
@[simp] theorem State.release_spc (b : BitVec 32) : (s.release b).spc = s.spc := rfl
@[simp] theorem State.release_rom (b : BitVec 32) : (s.release b).rom = s.rom := rfl
@[simp] theorem State.release_params (b : BitVec 32) : (s.release b).params = s.params := rfl
@[simp] theorem State.release_wires (b : BitVec 32) : (s.release b).wires = s.wires := rfl
@[simp] theorem State.release_af (b : BitVec 32) : (s.release b).af = s.af := rfl
@[simp] theorem State.release_afring (b : BitVec 32) : (s.release b).afring = s.afring := rfl
@[simp] theorem State.release_sampleRate (b : BitVec 32) : (s.release b).sampleRate = s.sampleRate := rfl
@[simp] theorem State.release_bufferSize (b : BitVec 32) : (s.release b).bufferSize = s.bufferSize := rfl
@[simp] theorem State.release_lfo (b : BitVec 32) : (s.release b).lfo = s.lfo := rfl
@[simp] theorem State.release_dcb (b : BitVec 32) : (s.release b).dcb = s.dcb := rfl
@[simp] theorem State.release_hsh (b : BitVec 32) : (s.release b).hsh = s.hsh := rfl
@[simp] theorem State.release_rings (b : BitVec 32) : (s.release b).rings = s.rings := rfl
@[simp] theorem State.release_dm (b : BitVec 32) : (s.release b).dm = s.dm := rfl
@[simp] theorem State.release_fb (b : BitVec 32) : (s.release b).fb = s.fb := rfl
@[simp] theorem State.release_inLatch (b : BitVec 32) : (s.release b).inLatch = s.inLatch := rfl
@[simp] theorem State.release_outL (b : BitVec 32) : (s.release b).outL = s.outL := rfl
@[simp] theorem State.release_outR (b : BitVec 32) : (s.release b).outR = s.outR := rfl
@[simp] theorem State.release_live (b : BitVec 32) : (s.release b).live = s.live.eraseP (·.base == b) := rfl
@[simp] theorem State.release_hostQueue (b : BitVec 32) : (s.release b).hostQueue = s.hostQueue := rfl
@[simp] theorem State.release_hostResponse (b : BitVec 32) : (s.release b).hostResponse = s.hostResponse := rfl
@[simp] theorem State.release_allocRequest (b : BitVec 32) : (s.release b).allocRequest = s.allocRequest := rfl
@[simp] theorem State.release_allocTraffic (b : BitVec 32) :
    (s.release b).allocTraffic = s.allocTraffic ++ [⟨allocWordOf 1#1 b, none⟩] := rfl
@[simp] theorem State.release_allocQueue (b : BitVec 32) :
    (s.release b).allocQueue = if s.holds b then s.allocQueue else Config.answersAfterFree s.draws := rfl
@[simp] theorem State.release_draws (b : BitVec 32) :
    (s.release b).draws = if s.holds b then s.draws else s.draws + 1 := rfl

/-! ### The flags of a successful CONSTRUCT -/

@[simp] theorem State.flagsConstructed_ls : (s.flagsConstructed).ls = .ready := rfl
@[simp] theorem State.flagsConstructed_inProgress : (s.flagsConstructed).inProgress = s.inProgress := rfl
@[simp] theorem State.flagsConstructed_spc : (s.flagsConstructed).spc = s.spc := rfl
@[simp] theorem State.flagsConstructed_rom : (s.flagsConstructed).rom = s.rom := rfl
@[simp] theorem State.flagsConstructed_params : (s.flagsConstructed).params = s.params := rfl
@[simp] theorem State.flagsConstructed_wires : (s.flagsConstructed).wires = s.wires := rfl
@[simp] theorem State.flagsConstructed_af : (s.flagsConstructed).af = false := rfl
@[simp] theorem State.flagsConstructed_afring : (s.flagsConstructed).afring = 0#4 := rfl
@[simp] theorem State.flagsConstructed_sampleRate : (s.flagsConstructed).sampleRate = s.sampleRate := rfl
@[simp] theorem State.flagsConstructed_bufferSize : (s.flagsConstructed).bufferSize = s.bufferSize := rfl
@[simp] theorem State.flagsConstructed_lfo : (s.flagsConstructed).lfo = s.lfo := rfl
@[simp] theorem State.flagsConstructed_dcb : (s.flagsConstructed).dcb = s.dcb := rfl
@[simp] theorem State.flagsConstructed_hsh : (s.flagsConstructed).hsh = s.hsh := rfl
@[simp] theorem State.flagsConstructed_rings : (s.flagsConstructed).rings = s.rings := rfl
@[simp] theorem State.flagsConstructed_dm : (s.flagsConstructed).dm = s.dm := rfl
@[simp] theorem State.flagsConstructed_fb : (s.flagsConstructed).fb = s.fb := rfl
@[simp] theorem State.flagsConstructed_inLatch : (s.flagsConstructed).inLatch = s.inLatch := rfl
@[simp] theorem State.flagsConstructed_outL : (s.flagsConstructed).outL = s.outL := rfl
@[simp] theorem State.flagsConstructed_outR : (s.flagsConstructed).outR = s.outR := rfl
@[simp] theorem State.flagsConstructed_live : (s.flagsConstructed).live = s.live := rfl
@[simp] theorem State.flagsConstructed_hostQueue : (s.flagsConstructed).hostQueue = s.hostQueue := rfl
@[simp] theorem State.flagsConstructed_hostResponse : (s.flagsConstructed).hostResponse = s.hostResponse := rfl
@[simp] theorem State.flagsConstructed_allocRequest : (s.flagsConstructed).allocRequest = s.allocRequest := rfl
@[simp] theorem State.flagsConstructed_allocTraffic : (s.flagsConstructed).allocTraffic = s.allocTraffic := rfl
@[simp] theorem State.flagsConstructed_allocQueue : (s.flagsConstructed).allocQueue = s.allocQueue := rfl
@[simp] theorem State.flagsConstructed_draws : (s.flagsConstructed).draws = s.draws := rfl

/-! ### The flags of a failed CONSTRUCT -/

@[simp] theorem State.flagsFailed_ls (r : RingId) : (s.flagsFailed r).ls = .empty := rfl
@[simp] theorem State.flagsFailed_inProgress (r : RingId) : (s.flagsFailed r).inProgress = s.inProgress := rfl
@[simp] theorem State.flagsFailed_spc (r : RingId) : (s.flagsFailed r).spc = s.spc := rfl
@[simp] theorem State.flagsFailed_rom (r : RingId) : (s.flagsFailed r).rom = s.rom := rfl
@[simp] theorem State.flagsFailed_params (r : RingId) : (s.flagsFailed r).params = s.params := rfl
@[simp] theorem State.flagsFailed_wires (r : RingId) : (s.flagsFailed r).wires = s.wires := rfl
@[simp] theorem State.flagsFailed_af (r : RingId) : (s.flagsFailed r).af = true := rfl
@[simp] theorem State.flagsFailed_afring (r : RingId) : (s.flagsFailed r).afring = BitVec.ofNat 4 r.val := rfl
@[simp] theorem State.flagsFailed_sampleRate (r : RingId) : (s.flagsFailed r).sampleRate = s.sampleRate := rfl
@[simp] theorem State.flagsFailed_bufferSize (r : RingId) : (s.flagsFailed r).bufferSize = s.bufferSize := rfl
@[simp] theorem State.flagsFailed_lfo (r : RingId) : (s.flagsFailed r).lfo = s.lfo := rfl
@[simp] theorem State.flagsFailed_dcb (r : RingId) : (s.flagsFailed r).dcb = s.dcb := rfl
@[simp] theorem State.flagsFailed_hsh (r : RingId) : (s.flagsFailed r).hsh = s.hsh := rfl
@[simp] theorem State.flagsFailed_rings (r : RingId) : (s.flagsFailed r).rings = s.rings := rfl
@[simp] theorem State.flagsFailed_dm (r : RingId) : (s.flagsFailed r).dm = s.dm := rfl
@[simp] theorem State.flagsFailed_fb (r : RingId) : (s.flagsFailed r).fb = s.fb := rfl
@[simp] theorem State.flagsFailed_inLatch (r : RingId) : (s.flagsFailed r).inLatch = s.inLatch := rfl
@[simp] theorem State.flagsFailed_outL (r : RingId) : (s.flagsFailed r).outL = s.outL := rfl
@[simp] theorem State.flagsFailed_outR (r : RingId) : (s.flagsFailed r).outR = s.outR := rfl
@[simp] theorem State.flagsFailed_live (r : RingId) : (s.flagsFailed r).live = s.live := rfl
@[simp] theorem State.flagsFailed_hostQueue (r : RingId) : (s.flagsFailed r).hostQueue = s.hostQueue := rfl
@[simp] theorem State.flagsFailed_hostResponse (r : RingId) : (s.flagsFailed r).hostResponse = s.hostResponse := rfl
@[simp] theorem State.flagsFailed_allocRequest (r : RingId) : (s.flagsFailed r).allocRequest = s.allocRequest := rfl
@[simp] theorem State.flagsFailed_allocTraffic (r : RingId) : (s.flagsFailed r).allocTraffic = s.allocTraffic := rfl
@[simp] theorem State.flagsFailed_allocQueue (r : RingId) : (s.flagsFailed r).allocQueue = s.allocQueue := rfl
@[simp] theorem State.flagsFailed_draws (r : RingId) : (s.flagsFailed r).draws = s.draws := rfl

/-! ### The flags of DESTROY -/

@[simp] theorem State.flagsDestroyed_ls : (s.flagsDestroyed).ls = .empty := rfl
@[simp] theorem State.flagsDestroyed_inProgress : (s.flagsDestroyed).inProgress = s.inProgress := rfl
@[simp] theorem State.flagsDestroyed_spc : (s.flagsDestroyed).spc = s.spc := rfl
@[simp] theorem State.flagsDestroyed_rom : (s.flagsDestroyed).rom = s.rom := rfl
@[simp] theorem State.flagsDestroyed_params : (s.flagsDestroyed).params = s.params := rfl
@[simp] theorem State.flagsDestroyed_wires : (s.flagsDestroyed).wires = s.wires := rfl
@[simp] theorem State.flagsDestroyed_af : (s.flagsDestroyed).af = s.af := rfl
@[simp] theorem State.flagsDestroyed_afring : (s.flagsDestroyed).afring = s.afring := rfl
@[simp] theorem State.flagsDestroyed_sampleRate : (s.flagsDestroyed).sampleRate = s.sampleRate := rfl
@[simp] theorem State.flagsDestroyed_bufferSize : (s.flagsDestroyed).bufferSize = s.bufferSize := rfl
@[simp] theorem State.flagsDestroyed_lfo : (s.flagsDestroyed).lfo = s.lfo := rfl
@[simp] theorem State.flagsDestroyed_dcb : (s.flagsDestroyed).dcb = s.dcb := rfl
@[simp] theorem State.flagsDestroyed_hsh : (s.flagsDestroyed).hsh = s.hsh := rfl
@[simp] theorem State.flagsDestroyed_rings : (s.flagsDestroyed).rings = s.rings := rfl
@[simp] theorem State.flagsDestroyed_dm : (s.flagsDestroyed).dm = s.dm := rfl
@[simp] theorem State.flagsDestroyed_fb : (s.flagsDestroyed).fb = s.fb := rfl
@[simp] theorem State.flagsDestroyed_inLatch : (s.flagsDestroyed).inLatch = s.inLatch := rfl
@[simp] theorem State.flagsDestroyed_outL : (s.flagsDestroyed).outL = s.outL := rfl
@[simp] theorem State.flagsDestroyed_outR : (s.flagsDestroyed).outR = s.outR := rfl
@[simp] theorem State.flagsDestroyed_live : (s.flagsDestroyed).live = s.live := rfl
@[simp] theorem State.flagsDestroyed_hostQueue : (s.flagsDestroyed).hostQueue = s.hostQueue := rfl
@[simp] theorem State.flagsDestroyed_hostResponse : (s.flagsDestroyed).hostResponse = s.hostResponse := rfl
@[simp] theorem State.flagsDestroyed_allocRequest : (s.flagsDestroyed).allocRequest = s.allocRequest := rfl
@[simp] theorem State.flagsDestroyed_allocTraffic : (s.flagsDestroyed).allocTraffic = s.allocTraffic := rfl
@[simp] theorem State.flagsDestroyed_allocQueue : (s.flagsDestroyed).allocQueue = s.allocQueue := rfl
@[simp] theorem State.flagsDestroyed_draws : (s.flagsDestroyed).draws = s.draws := rfl

/-! ### Latches left unspecified -/

@[simp] theorem State.latchesUnspecified_ls : (s.latchesUnspecified).ls = s.ls := rfl
@[simp] theorem State.latchesUnspecified_inProgress : (s.latchesUnspecified).inProgress = s.inProgress := rfl
@[simp] theorem State.latchesUnspecified_spc : (s.latchesUnspecified).spc = s.spc := rfl
@[simp] theorem State.latchesUnspecified_rom : (s.latchesUnspecified).rom = s.rom := rfl
@[simp] theorem State.latchesUnspecified_params : (s.latchesUnspecified).params = s.params := rfl
@[simp] theorem State.latchesUnspecified_wires : (s.latchesUnspecified).wires = s.wires := rfl
@[simp] theorem State.latchesUnspecified_af : (s.latchesUnspecified).af = s.af := rfl
@[simp] theorem State.latchesUnspecified_afring : (s.latchesUnspecified).afring = s.afring := rfl
@[simp] theorem State.latchesUnspecified_sampleRate : (s.latchesUnspecified).sampleRate = s.sampleRate := rfl
@[simp] theorem State.latchesUnspecified_bufferSize : (s.latchesUnspecified).bufferSize = s.bufferSize := rfl
@[simp] theorem State.latchesUnspecified_lfo : (s.latchesUnspecified).lfo = s.lfo := rfl
@[simp] theorem State.latchesUnspecified_dcb : (s.latchesUnspecified).dcb = s.dcb := rfl
@[simp] theorem State.latchesUnspecified_hsh : (s.latchesUnspecified).hsh = s.hsh := rfl
@[simp] theorem State.latchesUnspecified_rings : (s.latchesUnspecified).rings = s.rings := rfl
@[simp] theorem State.latchesUnspecified_dm : (s.latchesUnspecified).dm = s.dm := rfl
@[simp] theorem State.latchesUnspecified_fb : (s.latchesUnspecified).fb = s.fb := rfl
@[simp] theorem State.latchesUnspecified_live : (s.latchesUnspecified).live = s.live := rfl
@[simp] theorem State.latchesUnspecified_hostQueue : (s.latchesUnspecified).hostQueue = s.hostQueue := rfl
@[simp] theorem State.latchesUnspecified_hostResponse : (s.latchesUnspecified).hostResponse = s.hostResponse := rfl
@[simp] theorem State.latchesUnspecified_allocRequest : (s.latchesUnspecified).allocRequest = s.allocRequest := rfl
@[simp] theorem State.latchesUnspecified_allocTraffic : (s.latchesUnspecified).allocTraffic = s.allocTraffic := rfl
@[simp] theorem State.latchesUnspecified_allocQueue : (s.latchesUnspecified).allocQueue = s.allocQueue := rfl
@[simp] theorem State.latchesUnspecified_draws : (s.latchesUnspecified).draws = s.draws + 3 := rfl

/-! ### Component state left unspecified -/

@[simp] theorem State.componentsUnspecified_ls : (s.componentsUnspecified).ls = s.ls := rfl
@[simp] theorem State.componentsUnspecified_inProgress : (s.componentsUnspecified).inProgress = s.inProgress := rfl
@[simp] theorem State.componentsUnspecified_spc : (s.componentsUnspecified).spc = s.spc := rfl
@[simp] theorem State.componentsUnspecified_rom : (s.componentsUnspecified).rom = s.rom := rfl
@[simp] theorem State.componentsUnspecified_params : (s.componentsUnspecified).params = s.params := rfl
@[simp] theorem State.componentsUnspecified_wires : (s.componentsUnspecified).wires = s.wires := rfl
@[simp] theorem State.componentsUnspecified_af : (s.componentsUnspecified).af = s.af := rfl
@[simp] theorem State.componentsUnspecified_afring : (s.componentsUnspecified).afring = s.afring := rfl
@[simp] theorem State.componentsUnspecified_sampleRate : (s.componentsUnspecified).sampleRate = s.sampleRate := rfl
@[simp] theorem State.componentsUnspecified_bufferSize : (s.componentsUnspecified).bufferSize = s.bufferSize := rfl
@[simp] theorem State.componentsUnspecified_dm : (s.componentsUnspecified).dm = s.dm := rfl
@[simp] theorem State.componentsUnspecified_live : (s.componentsUnspecified).live = s.live := rfl
@[simp] theorem State.componentsUnspecified_hostQueue : (s.componentsUnspecified).hostQueue = s.hostQueue := rfl
@[simp] theorem State.componentsUnspecified_hostResponse :
    (s.componentsUnspecified).hostResponse = s.hostResponse := rfl
@[simp] theorem State.componentsUnspecified_allocRequest :
    (s.componentsUnspecified).allocRequest = s.allocRequest := rfl
@[simp] theorem State.componentsUnspecified_allocTraffic :
    (s.componentsUnspecified).allocTraffic = s.allocTraffic := rfl
@[simp] theorem State.componentsUnspecified_allocQueue : (s.componentsUnspecified).allocQueue = s.allocQueue := rfl
@[simp] theorem State.componentsUnspecified_draws : (s.componentsUnspecified).draws = s.draws + 83 := rfl

/-! ### Taking AllocationFailed -/

@[simp] theorem State.raiseAllocationFailed_ls (r : RingId) : (s.raiseAllocationFailed r).ls = .empty := rfl
@[simp] theorem State.raiseAllocationFailed_inProgress (r : RingId) :
    (s.raiseAllocationFailed r).inProgress = s.inProgress := rfl
@[simp] theorem State.raiseAllocationFailed_spc (r : RingId) : (s.raiseAllocationFailed r).spc = 0#6 := rfl
@[simp] theorem State.raiseAllocationFailed_rom (r : RingId) : (s.raiseAllocationFailed r).rom = s.rom := rfl
@[simp] theorem State.raiseAllocationFailed_params (r : RingId) : (s.raiseAllocationFailed r).params = s.params := rfl
@[simp] theorem State.raiseAllocationFailed_wires (r : RingId) : (s.raiseAllocationFailed r).wires = noWires := rfl
@[simp] theorem State.raiseAllocationFailed_af (r : RingId) : (s.raiseAllocationFailed r).af = true := rfl
@[simp] theorem State.raiseAllocationFailed_afring (r : RingId) :
    (s.raiseAllocationFailed r).afring = BitVec.ofNat 4 r.val := rfl
@[simp] theorem State.raiseAllocationFailed_sampleRate (r : RingId) :
    (s.raiseAllocationFailed r).sampleRate = s.sampleRate := rfl
@[simp] theorem State.raiseAllocationFailed_bufferSize (r : RingId) :
    (s.raiseAllocationFailed r).bufferSize = s.bufferSize := rfl
@[simp] theorem State.raiseAllocationFailed_dm (r : RingId) : (s.raiseAllocationFailed r).dm = s.dm := rfl
@[simp] theorem State.raiseAllocationFailed_live (r : RingId) : (s.raiseAllocationFailed r).live = s.live := rfl
@[simp] theorem State.raiseAllocationFailed_hostQueue (r : RingId) :
    (s.raiseAllocationFailed r).hostQueue = s.hostQueue := rfl
@[simp] theorem State.raiseAllocationFailed_hostResponse (r : RingId) :
    (s.raiseAllocationFailed r).hostResponse = some (responseWord 1#4 0#32 (BitVec.ofNat 32 r.val)) := rfl
@[simp] theorem State.raiseAllocationFailed_allocRequest (r : RingId) :
    (s.raiseAllocationFailed r).allocRequest = s.allocRequest := rfl
@[simp] theorem State.raiseAllocationFailed_allocTraffic (r : RingId) :
    (s.raiseAllocationFailed r).allocTraffic = s.allocTraffic := rfl
@[simp] theorem State.raiseAllocationFailed_allocQueue (r : RingId) :
    (s.raiseAllocationFailed r).allocQueue = s.allocQueue := rfl
@[simp] theorem State.raiseAllocationFailed_draws (r : RingId) :
    (s.raiseAllocationFailed r).draws = s.draws + 83 := rfl

/-! ### A granted ring set up -/

@[simp] theorem State.installRing_ls (r : RingId) (b d : BitVec 32) : (s.installRing r b d).ls = s.ls := rfl
@[simp] theorem State.installRing_inProgress (r : RingId) (b d : BitVec 32) :
    (s.installRing r b d).inProgress = s.inProgress := rfl
@[simp] theorem State.installRing_spc (r : RingId) (b d : BitVec 32) : (s.installRing r b d).spc = s.spc := rfl
@[simp] theorem State.installRing_rom (r : RingId) (b d : BitVec 32) : (s.installRing r b d).rom = s.rom := rfl
@[simp] theorem State.installRing_params (r : RingId) (b d : BitVec 32) :
    (s.installRing r b d).params = s.params := rfl
@[simp] theorem State.installRing_wires (r : RingId) (b d : BitVec 32) : (s.installRing r b d).wires = s.wires := rfl
@[simp] theorem State.installRing_af (r : RingId) (b d : BitVec 32) : (s.installRing r b d).af = s.af := rfl
@[simp] theorem State.installRing_afring (r : RingId) (b d : BitVec 32) :
    (s.installRing r b d).afring = s.afring := rfl
@[simp] theorem State.installRing_sampleRate (r : RingId) (b d : BitVec 32) :
    (s.installRing r b d).sampleRate = s.sampleRate := rfl
@[simp] theorem State.installRing_bufferSize (r : RingId) (b d : BitVec 32) :
    (s.installRing r b d).bufferSize = s.bufferSize := rfl
@[simp] theorem State.installRing_lfo (r : RingId) (b d : BitVec 32) : (s.installRing r b d).lfo = s.lfo := rfl
@[simp] theorem State.installRing_dcb (r : RingId) (b d : BitVec 32) : (s.installRing r b d).dcb = s.dcb := rfl
@[simp] theorem State.installRing_hsh (r : RingId) (b d : BitVec 32) : (s.installRing r b d).hsh = s.hsh := rfl
@[simp] theorem State.installRing_dm (r : RingId) (b d : BitVec 32) :
    (s.installRing r b d).dm =
      DelayMemory.zeroFill s.dm (s.params.wordAddress b) (s.params.ringCapacity s.sampleRate r) := rfl
@[simp] theorem State.installRing_fb (r : RingId) (b d : BitVec 32) : (s.installRing r b d).fb = s.fb := rfl
@[simp] theorem State.installRing_inLatch (r : RingId) (b d : BitVec 32) :
    (s.installRing r b d).inLatch = s.inLatch := rfl
@[simp] theorem State.installRing_outL (r : RingId) (b d : BitVec 32) : (s.installRing r b d).outL = s.outL := rfl
@[simp] theorem State.installRing_outR (r : RingId) (b d : BitVec 32) : (s.installRing r b d).outR = s.outR := rfl
@[simp] theorem State.installRing_live (r : RingId) (b d : BitVec 32) : (s.installRing r b d).live = s.live := rfl
@[simp] theorem State.installRing_hostQueue (r : RingId) (b d : BitVec 32) :
    (s.installRing r b d).hostQueue = s.hostQueue := rfl
@[simp] theorem State.installRing_hostResponse (r : RingId) (b d : BitVec 32) :
    (s.installRing r b d).hostResponse = s.hostResponse := rfl
@[simp] theorem State.installRing_allocRequest (r : RingId) (b d : BitVec 32) :
    (s.installRing r b d).allocRequest = s.allocRequest := rfl
@[simp] theorem State.installRing_allocTraffic (r : RingId) (b d : BitVec 32) :
    (s.installRing r b d).allocTraffic = s.allocTraffic := rfl
@[simp] theorem State.installRing_allocQueue (r : RingId) (b d : BitVec 32) :
    (s.installRing r b d).allocQueue = s.allocQueue := rfl
@[simp] theorem State.installRing_draws (r : RingId) (b d : BitVec 32) : (s.installRing r b d).draws = s.draws := rfl

/-! ### The end of a successful CONSTRUCT -/

@[simp] theorem State.constructed_ls : (s.constructed).ls = .ready := rfl
@[simp] theorem State.constructed_inProgress : (s.constructed).inProgress = s.inProgress := rfl
@[simp] theorem State.constructed_spc : (s.constructed).spc = 0#6 := rfl
@[simp] theorem State.constructed_rom : (s.constructed).rom = s.rom := rfl
@[simp] theorem State.constructed_params : (s.constructed).params = s.params := rfl
@[simp] theorem State.constructed_wires : (s.constructed).wires = noWires := rfl
@[simp] theorem State.constructed_af : (s.constructed).af = false := rfl
@[simp] theorem State.constructed_afring : (s.constructed).afring = 0#4 := rfl
@[simp] theorem State.constructed_sampleRate : (s.constructed).sampleRate = s.sampleRate := rfl
@[simp] theorem State.constructed_bufferSize : (s.constructed).bufferSize = s.bufferSize := rfl
@[simp] theorem State.constructed_lfo :
    (s.constructed).lfo =
      ⟨setFrequency s.draws s.params.twoPi s.params.lfoFreqHz s.sampleRate, oneSample, plusZero⟩ := rfl
@[simp] theorem State.constructed_dcb : (s.constructed).dcb = ⟨plusZero, plusZero⟩ := rfl
@[simp] theorem State.constructed_hsh : (s.constructed).hsh = #v[plusZero, plusZero] := rfl
@[simp] theorem State.constructed_rings : (s.constructed).rings = s.rings := rfl
@[simp] theorem State.constructed_dm : (s.constructed).dm = s.dm := rfl
@[simp] theorem State.constructed_fb : (s.constructed).fb = plusZero := rfl
@[simp] theorem State.constructed_live : (s.constructed).live = s.live := rfl
@[simp] theorem State.constructed_hostQueue : (s.constructed).hostQueue = s.hostQueue := rfl
@[simp] theorem State.constructed_hostResponse :
    (s.constructed).hostResponse = some (responseWord 0#4 0#32 0#32) := rfl
@[simp] theorem State.constructed_allocRequest : (s.constructed).allocRequest = s.allocRequest := rfl
@[simp] theorem State.constructed_allocTraffic : (s.constructed).allocTraffic = s.allocTraffic := rfl
@[simp] theorem State.constructed_allocQueue : (s.constructed).allocQueue = s.allocQueue := rfl
@[simp] theorem State.constructed_draws : (s.constructed).draws = s.draws + 5 := rfl

/-! ### The end of DESTROY -/

@[simp] theorem State.destroyed_ls : (s.destroyed).ls = .empty := rfl
@[simp] theorem State.destroyed_inProgress : (s.destroyed).inProgress = s.inProgress := rfl
@[simp] theorem State.destroyed_spc : (s.destroyed).spc = 0#6 := rfl
@[simp] theorem State.destroyed_rom : (s.destroyed).rom = s.rom := rfl
@[simp] theorem State.destroyed_params : (s.destroyed).params = s.params := rfl
@[simp] theorem State.destroyed_wires : (s.destroyed).wires = s.wires := rfl
@[simp] theorem State.destroyed_af : (s.destroyed).af = s.af := rfl
@[simp] theorem State.destroyed_afring : (s.destroyed).afring = s.afring := rfl
@[simp] theorem State.destroyed_sampleRate : (s.destroyed).sampleRate = s.sampleRate := rfl
@[simp] theorem State.destroyed_bufferSize : (s.destroyed).bufferSize = s.bufferSize := rfl
@[simp] theorem State.destroyed_dm : (s.destroyed).dm = s.dm := rfl
@[simp] theorem State.destroyed_live : (s.destroyed).live = s.live := rfl
@[simp] theorem State.destroyed_hostQueue : (s.destroyed).hostQueue = s.hostQueue := rfl
@[simp] theorem State.destroyed_hostResponse : (s.destroyed).hostResponse = some (responseWord 0#4 0#32 0#32) := rfl
@[simp] theorem State.destroyed_allocRequest : (s.destroyed).allocRequest = s.allocRequest := rfl
@[simp] theorem State.destroyed_allocTraffic : (s.destroyed).allocTraffic = s.allocTraffic := rfl
@[simp] theorem State.destroyed_allocQueue : (s.destroyed).allocQueue = s.allocQueue := rfl
@[simp] theorem State.destroyed_draws : (s.destroyed).draws = s.draws + 83 := rfl

end Machine
end Sys2Proof
end

