-- ==== Sys2Proof/Laws/Ops.lean ====
section
/-! SUPPORT. Sys2Proof/Laws/Ops.lean: for each shared operation, once, everything it can do. -/

namespace Sys2Proof
namespace Machine

/-! ### Wires -/

@[simp] theorem State.wire_setWire_same (s : State) (i : Nibble) (v : Sample) : (s.setWire i v).wire i = some v := by
  simp [State.wire]

theorem State.wire_setWire_other (s : State) {i j : Nibble} (v : Sample) (h : j ≠ i) :
    (s.setWire i v).wire j = s.wire j := by
  have : i.toNat ≠ j.toNat := fun e => h (BitVec.eq_of_toNat_eq e.symm)
  simp [State.wire, this]

theorem State.wire_setWire (s : State) (i j : Nibble) (v : Sample) :
    (s.setWire i v).wire j = if j = i then some v else s.wire j := by
  split
  · subst j; simp
  · exact s.wire_setWire_other v ‹_›

/-- A wire is read through the wire file only. -/
theorem State.wire_congr {s t : State} (h : t.wires = s.wires) (i : Nibble) : t.wire i = s.wire i := by
  simp only [State.wire, h]

@[simp] theorem State.wire_advance (s : State) (i : Nibble) : s.advance.wire i = s.wire i := rfl
@[simp] theorem State.wire_drawn (s : State) (n : Nat) (i : Nibble) : (s.drawn n).wire i = s.wire i := rfl
@[simp] theorem State.wire_ringWriteAdvance (s : State) (r : RingId) (v : Sample) (i : Nibble) :
    (s.ringWriteAdvance r v).wire i = s.wire i := rfl

theorem wire_noWires (s : State) (h : s.wires = noWires) (i : Nibble) : s.wire i = none := by
  simp [State.wire, h, noWires]

theorem State.withWire_some {s : State} {i : Nibble} {v : Sample} (h : s.wire i = some v) (next : Sample → Result) :
    s.withWire i next = next v := by simp [State.withWire, h]

theorem State.withWire_none {s : State} {i : Nibble} (h : s.wire i = none) (next : Sample → Result) :
    s.withWire i next = .fault (.wireHoldsNoValue s.spc i) := by simp [State.withWire, h]

/-- A stage that read a wire and went on read a value. -/
theorem State.withWire_next {s t : State} {i : Nibble} {next : Sample → Result} (h : s.withWire i next = .next t) :
    ∃ v, s.wire i = some v ∧ next v = .next t := by
  unfold State.withWire at h
  split at h
  · exact ⟨_, ‹_›, h⟩
  · cases h

/-! ### Rings -/

@[simp] theorem State.ring_setRing_same (s : State) (r : RingId) (d : Ring) : (s.setRing r d).ring r = d := by
  simp [State.ring]

theorem State.ring_setRing_other (s : State) {r q : RingId} (d : Ring) (h : q ≠ r) :
    (s.setRing r d).ring q = s.ring q := by
  have : r.val ≠ q.val := fun e => h (Fin.ext e.symm)
  simp [State.ring, this]

theorem State.ring_congr {s t : State} (h : t.rings = s.rings) (r : RingId) : t.ring r = s.ring r := by
  simp only [State.ring, h]

@[simp] theorem State.ring_setWire (s : State) (i : Nibble) (v : Sample) (r : RingId) :
    (s.setWire i v).ring r = s.ring r := rfl
@[simp] theorem State.ring_advance (s : State) (r : RingId) : s.advance.ring r = s.ring r := rfl
@[simp] theorem State.ring_drawn (s : State) (n : Nat) (r : RingId) : (s.drawn n).ring r = s.ring r := rfl
@[simp] theorem State.ring_memWrite (s : State) (a : BitVec 32) (v : Sample) (r : RingId) :
    (s.memWrite a v).ring r = s.ring r := rfl

@[simp] theorem State.ring_ringWriteAdvance_same (s : State) (r : RingId) (v : Sample) :
    (s.ringWriteAdvance r v).ring r = (s.ring r).advanced := by simp [State.ringWriteAdvance]

theorem State.ring_ringWriteAdvance_other (s : State) {r q : RingId} (v : Sample) (h : q ≠ r) :
    (s.ringWriteAdvance r v).ring q = s.ring q := by
  simp [State.ringWriteAdvance, State.ring_setRing_other _ _ h]

/-- Memory is read through the delay memory only. -/
theorem State.memRead_congr {s t : State} (h : t.dm = s.dm) (hp : t.params = s.params) (a : BitVec 32) :
    t.memRead a = s.memRead a := by
  simp only [State.memRead, h, hp]

@[simp] theorem State.memRead_setWire (s : State) (i : Nibble) (v : Sample) (a : BitVec 32) :
    (s.setWire i v).memRead a = s.memRead a := rfl
@[simp] theorem State.memRead_advance (s : State) (a : BitVec 32) : s.advance.memRead a = s.memRead a := rfl
@[simp] theorem State.memRead_drawn (s : State) (n : Nat) (a : BitVec 32) : (s.drawn n).memRead a = s.memRead a := rfl
@[simp] theorem State.memRead_setRing (s : State) (r : RingId) (d : Ring) (a : BitVec 32) :
    (s.setRing r d).memRead a = s.memRead a := rfl

/-- `RingWriteAdvance` stores its word at the cursor and changes no other word. -/
theorem State.storesOnly_ringWriteAdvance {s : State} (hm : Memory.wf s.dm = true) (r : RingId) (v : Sample) :
    StoresOnly s (s.ringWriteAdvance r v) (s.ring r).writeAddress v := by
  have h := memRead_memWrite hm (s.ring r).writeAddress
  exact ⟨(h _ v).trans (if_pos rfl), fun b hb => (h b v).trans (if_neg hb)⟩

/-! ### Lifecycle gates -/

theorem State.whenIdle_idle {s : State} (h : s.inProgress = false) (next : Result) : s.whenIdle next = next := by
  simp [State.whenIdle, h]

theorem State.whenIdle_next {s t : State} {next : Result} (h : s.whenIdle next = .next t) :
    s.inProgress = false ∧ next = .next t := by
  unfold State.whenIdle at h
  split at h
  · cases h
  · exact ⟨Bool.eq_false_iff.2 ‹_›, h⟩

theorem State.whenAlone_alone {s : State} (h : s.inProgress = false) (ho : s.overlapped = false) (next : Result) :
    s.whenAlone next = next := by simp [State.whenAlone, State.whenIdle, h, ho]

/-- A command that went on had no other one beside it. -/
theorem State.whenAlone_next {s t : State} {next : Result} (h : s.whenAlone next = .next t) :
    s.inProgress = false ∧ s.overlapped = false ∧ next = .next t := by
  obtain ⟨h1, h2⟩ := State.whenIdle_next h
  split at h2
  · cases h2
  · exact ⟨h1, Bool.eq_false_iff.2 ‹_›, h2⟩

/-- Any other command beside it stops a command of one step. -/
theorem State.whenAlone_refused {s : State} (h : s.inProgress = true ∨ s.overlapped = true) (next : Result) :
    s.whenAlone next = .refused .commandInProgress := by
  unfold State.whenAlone State.whenIdle
  rcases h with h | h <;> simp [h]

theorem State.overlapped_nil {s : State} (h : s.hostQueue = []) : s.overlapped = false := by
  simp [State.overlapped, h]

theorem State.overlapped_cons {s : State} {h : HostIssue} {rest : List HostIssue} (hq : s.hostQueue = h :: rest) :
    s.overlapped = !h.waits := by simp [State.overlapped, hq]

theorem State.whenLifecycle_legal {s : State} {ls : Lifecycle} (h : s.ls = ls) (next : Result) :
    s.whenLifecycle ls next = next := by simp [State.whenLifecycle, h]

theorem State.whenLifecycle_next {s t : State} {ls : Lifecycle} {next : Result}
    (h : s.whenLifecycle ls next = .next t) : s.ls = ls ∧ next = .next t := by
  unfold State.whenLifecycle at h
  split at h
  · exact ⟨‹_›, h⟩
  · cases h

/-! ### The allocator -/

theorem grantable_iff (space : Nat) (live : List Region) (g : Region) :
    grantable space live g = true ↔
      g.base.toNat + g.words ≤ space ∧ ∀ h ∈ live, g.disjoint h = true ∧ g.base ≠ h.base := by
  simp [grantable]

/-- A grantable region keeps the allocator's contract, and only such a region does. -/
theorem liveContract_cons {space : Nat} {live : List Region} (hl : LiveContract space live) (g : Region) :
    LiveContract space (g :: live) ↔ grantable space live g = true := by
  rw [grantable_iff]
  constructor
  · rintro ⟨h1, h2⟩
    exact ⟨h1 g (by simp), fun h hh => (List.pairwise_cons.1 h2).1 h hh⟩
  · rintro ⟨h1, h2⟩
    exact ⟨by simpa using ⟨h1, hl.1⟩, List.pairwise_cons.2 ⟨h2, hl.2⟩⟩

theorem liveContract_tail {space : Nat} {g : Region} {live : List Region} (h : LiveContract space (g :: live)) :
    LiveContract space live :=
  ⟨fun k hk => h.1 k (List.mem_cons_of_mem _ hk), (List.pairwise_cons.1 h.2).2⟩

theorem State.allocate_live (s : State) (size : BitVec 32) :
    (s.allocate size).live =
      match s.allocAnswer size with
      | some base => regionOf base size :: s.live
      | none => s.live := rfl

theorem State.allocate_traffic (s : State) (size : BitVec 32) :
    (s.allocate size).allocTraffic =
      s.allocTraffic ++ [⟨allocWordOf 0#1 size, some (answerWord s.draws (s.allocAnswer size))⟩] := rfl

/-- What the allocator grants obeys its contract. -/
theorem State.allocAnswer_some {s : State} {size base : BitVec 32} (h : s.allocAnswer size = some base) :
    s.allocProposal = some base ∧ grantable s.params.addressSpace s.live (regionOf base size) = true := by
  unfold State.allocAnswer at h
  split at h
  · split at h
    · cases h; exact ⟨‹_›, ‹_›⟩
    · cases h
  · cases h

/-- A proposal that obeys the contract is granted. -/
theorem State.allocAnswer_grant {s : State} {size base : BitVec 32} (hp : s.allocProposal = some base)
    (hg : grantable s.params.addressSpace s.live (regionOf base size) = true) : s.allocAnswer size = some base := by
  simp [State.allocAnswer, hp, hg]

/-- Every request keeps the allocator's contract. -/
theorem State.liveContract_allocate {s : State} (hl : LiveContract s.params.addressSpace s.live)
    (size : BitVec 32) : LiveContract s.params.addressSpace (s.allocate size).live := by
  rw [State.allocate_live]
  split
  · exact (liveContract_cons hl _).2 (State.allocAnswer_some ‹_›).2
  · exact hl

/-- A release keeps the allocator's contract. -/
theorem State.liveContract_release {s : State} {space : Nat} (hl : LiveContract space s.live) (base : BitVec 32) :
    LiveContract space (s.release base).live := by
  have hsub : (s.release base).live.Sublist s.live := List.eraseP_sublist
  exact ⟨fun g hg => hl.1 g (hsub.subset hg), hl.2.sublist hsub⟩

/-- Releasing the newest region takes it off the live set. -/
theorem State.release_head {s : State} {g : Region} {live : List Region} (h : s.live = g :: live) :
    (s.release g.base).live = live := by
  simp [h]

theorem State.holds_head {s : State} {g : Region} {live : List Region} (h : s.live = g :: live) :
    s.holds g.base = true := by simp [State.holds, h]

/-- `FREE` of a held base leaves what the allocator will answer as it was, and draws nothing. -/
theorem State.release_held {s : State} {base : BitVec 32} (h : s.holds base = true) :
    (s.release base).allocQueue = s.allocQueue ∧ (s.release base).draws = s.draws := by simp [h]

/-- `FREE` of a base that is not held takes no region back. -/
theorem State.release_notHeld {s : State} {base : BitVec 32} (h : s.holds base = false) :
    (s.release base).live = s.live := by
  refine List.eraseP_of_forall_not fun g hg he => ?_
  have : s.holds base = true := List.any_eq_true.2 ⟨g, hg, he⟩
  rw [h] at this
  cases this

/-- The releases of a failed CONSTRUCT and of DESTROY change the allocator's fields and the draw counter only. -/
theorem State.releaseRings_frame (rs : List RingId) (s : State) :
    { s with
      live := (s.releaseRings rs).live, allocTraffic := (s.releaseRings rs).allocTraffic,
      allocQueue := (s.releaseRings rs).allocQueue, draws := (s.releaseRings rs).draws } = s.releaseRings rs := by
  induction rs generalizing s with
  | nil => rfl
  | cons r rs ih => exact ih (s.release (s.ring r).base)

/-- The state the loop of CONSTRUCT ends in, if it gives one. -/
def Granting.state? : Granting → Option State
  | .built t => some t
  | .refusedAt _ t => some t
  | .undefined => none

/-- The loop of CONSTRUCT changes descriptors, memory, the allocator's fields and the draw counter only. -/
theorem grantRings_frame (rs done : List RingId) {s t : State} (h : (grantRings rs done s).state? = some t) :
    { s with
      rings := t.rings, dm := t.dm, live := t.live, allocTraffic := t.allocTraffic, allocQueue := t.allocQueue,
      draws := t.draws } = t := by
  induction rs generalizing done s with
  | nil => cases h; rfl
  | cons r rs ih =>
    unfold grantRings at h
    split at h
    · cases h
      have h := State.releaseRings_frame done (s.allocate (s.ringBytes r))
      generalize (s.allocate (s.ringBytes r)).releaseRings done = t at h ⊢
      cases t
      simp only [State.mk.injEq] at h ⊢
      simp_all [State.allocate]
    · split at h
      · exact ih (s := (s.allocate (s.ringBytes r)).installRing r _ _) (r :: done) h
      · cases h

/-- The loop of CONSTRUCT keeps the canonical form of memory. -/
theorem wf_grantRings (rs done : List RingId) {s t : State} (hm : Memory.wf s.dm = true)
    (h : (grantRings rs done s).state? = some t) : Memory.wf t.dm = true := by
  induction rs generalizing done s with
  | nil => cases h; exact hm
  | cons r rs ih =>
    unfold grantRings at h
    split at h
    · cases h
      rw [← State.releaseRings_frame]
      exact hm
    · split at h
      · exact ih (r :: done) (wf_zeroFill _ _ hm) h
      · cases h

/-! ### Operand tables -/

theorem dlyOperand_of_mem {u : Nibble} {r : RingId} (h : (u, r) ∈ dlyUnits) : dlyOperand u = some r := by
  revert u r; decide

/-- Every row of the `AP` table selects its ring and its coefficient. -/
theorem apOperand_of_mem (p : Params) : ∀ q ∈ apUnits, p.apOperand q.1 = some (q.2.1, p.topology.apK[q.2.2]) := by
  unfold apUnits; simp [Params.apOperand]

/-- Every row of the `VAP` table selects its ring and its coefficient. -/
theorem vapOperand_of_mem (p : Params) : ∀ q ∈ vapUnits, p.vapOperand q.1 = some (q.2.1, p.topology.vapK[q.2.2]) := by
  unfold vapUnits; simp [Params.vapOperand]

/-- The constant index of a stage word selects its constant. -/
theorem constOperand_index (p : Params) (ki : Fin 4) :
    p.constOperand (BitVec.ofNat 4 ki.val) = some p.topology.consts[ki] := by
  revert ki; simp [Fin.forall_fin_succ, Params.constOperand]

/-- The tap index of a stage word selects its tap. -/
theorem tapOperand_index (p : Params) (ki : Fin 8) :
    p.tapOperand (BitVec.ofNat 4 ki.val) = some p.topology.taps[ki] := by
  revert ki; simp [Fin.forall_fin_succ, Params.tapOperand]

end Machine
end Sys2Proof
end

