-- ==== Sys2Proof/Laws/PerInstr.lean ====
section
/-! SUPPORT. Sys2Proof/Laws/PerInstr.lean: the statements made of each instruction as syntax, one lemma per constructor.
Family `Sys2Proof.Laws.EncodedPlace`: the word of an instruction belongs to the place the unit takes it from (R91, R96,
R100): a stage to the schedule ROM, and no other instruction there. -/

namespace Sys2Proof
namespace Laws
namespace EncodedPlace

/-- An instruction's word is a stage word exactly when the instruction is one of the fourteen stages. -/
def Statement (i : Instr) : Prop := Machine.isStage i = true ↔ ∃ w, encode i = .stage w

theorem end_ : Statement .end_ :=
  ⟨fun _ => ⟨_, rfl⟩, fun _ => rfl⟩

theorem lfo (rd rb : Nibble) : Statement (.lfo rd rb) :=
  ⟨fun _ => ⟨_, rfl⟩, fun _ => rfl⟩

theorem mulc (rd ra ki : Nibble) : Statement (.mulc rd ra ki) :=
  ⟨fun _ => ⟨_, rfl⟩, fun _ => rfl⟩

theorem addf (rd ra : Nibble) : Statement (.addf rd ra) :=
  ⟨fun _ => ⟨_, rfl⟩, fun _ => rfl⟩

theorem dcb (unit rd ra : Nibble) : Statement (.dcb unit rd ra) :=
  ⟨fun _ => ⟨_, rfl⟩, fun _ => rfl⟩

theorem hsh (unit rd ra : Nibble) : Statement (.hsh unit rd ra) :=
  ⟨fun _ => ⟨_, rfl⟩, fun _ => rfl⟩

theorem dly (unit rd ra : Nibble) : Statement (.dly unit rd ra) :=
  ⟨fun _ => ⟨_, rfl⟩, fun _ => rfl⟩

theorem ap (unit rd ra : Nibble) : Statement (.ap unit rd ra) :=
  ⟨fun _ => ⟨_, rfl⟩, fun _ => rfl⟩

theorem vap (unit rd ra rb : Nibble) : Statement (.vap unit rd ra rb) :=
  ⟨fun _ => ⟨_, rfl⟩, fun _ => rfl⟩

theorem tap (unit rd ki : Nibble) : Statement (.tap unit rd ki) :=
  ⟨fun _ => ⟨_, rfl⟩, fun _ => rfl⟩

theorem stf (ra : Nibble) : Statement (.stf ra) :=
  ⟨fun _ => ⟨_, rfl⟩, fun _ => rfl⟩

theorem in_ (rd : Nibble) : Statement (.in_ rd) :=
  ⟨fun _ => ⟨_, rfl⟩, fun _ => rfl⟩

theorem out (ra rb : Nibble) : Statement (.out ra rb) :=
  ⟨fun _ => ⟨_, rfl⟩, fun _ => rfl⟩

theorem clr (rd : Nibble) : Statement (.clr rd) :=
  ⟨fun _ => ⟨_, rfl⟩, fun _ => rfl⟩

theorem nop : Statement .nop :=
  ⟨fun h => (Bool.false_ne_true h).elim, fun ⟨_, h⟩ => PortWord.noConfusion h⟩

theorem construct (rate : Sample) : Statement (.construct rate) :=
  ⟨fun h => (Bool.false_ne_true h).elim, fun ⟨_, h⟩ => PortWord.noConfusion h⟩

theorem process (x : Sample) : Statement (.process x) :=
  ⟨fun h => (Bool.false_ne_true h).elim, fun ⟨_, h⟩ => PortWord.noConfusion h⟩

theorem destroy : Statement .destroy :=
  ⟨fun h => (Bool.false_ne_true h).elim, fun ⟨_, h⟩ => PortWord.noConfusion h⟩

theorem setbs (value : BitVec 32) : Statement (.setbs value) :=
  ⟨fun h => (Bool.false_ne_true h).elim, fun ⟨_, h⟩ => PortWord.noConfusion h⟩

theorem rdcsr (n : Nibble) : Statement (.rdcsr n) :=
  ⟨fun h => (Bool.false_ne_true h).elim, fun ⟨_, h⟩ => PortWord.noConfusion h⟩

theorem alloc (size : BitVec 32) : Statement (.alloc size) :=
  ⟨fun h => (Bool.false_ne_true h).elim, fun ⟨_, h⟩ => PortWord.noConfusion h⟩

theorem free (base : BitVec 32) : Statement (.free base) :=
  ⟨fun h => (Bool.false_ne_true h).elim, fun ⟨_, h⟩ => PortWord.noConfusion h⟩

end EncodedPlace
end Laws
end Sys2Proof
end

