-- ==== Sys2Proof/Tests/Slice0.lean ====
section
/-! SUPPORT. Sys2Proof/Tests/Slice0.lean: small tests, one step each, whose expected values come from the tables of
spec/30_encoding.md, from spec/opcode_table.json and from the vectors of spec/95_test_vectors.md (named V-…), and for
each statement with hypotheses a witness that meets them all. -/

namespace Sys2Proof
namespace Machine
namespace Test

-- one theorem at a time: many kernel evaluations at once ask for more threads than the memory limit allows
set_option Elab.async false

/-! ### Helpers -/

/-- The next state, if there is one. -/
def nextOf : Result → Option State
  | .next t => some t
  | .fault _ => none
  | .refused _ => none

/-- The fault, if there is one. -/
def faultOf : Result → Option Fault
  | .next _ => none
  | .fault f => some f
  | .refused _ => none

/-- The refusal, if there is one. -/
def refusalOf : Result → Option Refusal
  | .next _ => none
  | .fault _ => none
  | .refused r => some r

/-- The decoded instruction, if there is one. -/
def instrOf (w : PortWord) : Option Instr :=
  match decode w with
  | .ok i => some i
  | .error _ => none

/-- The reason a word is rejected, if it is. -/
def rejectOf (w : PortWord) : Option DecodeReject :=
  match decode w with
  | .ok _ => none
  | .error e => some e

/-- A wire of the next state. -/
def wireAfter (i : Nibble) (r : Result) : Option Sample := (nextOf r).bind fun t => t.wire i

theorem exists_next {r : Result} (h : (nextOf r).isSome = true) : ∃ t, r = .next t := by
  cases r with
  | next t => exact ⟨t, rfl⟩
  | fault f => cases h
  | refused f => cases h

theorem refused_of {r : Result} {e : Refusal} (h : refusalOf r = some e) : r = .refused e := by
  cases r with
  | next t => cases h
  | fault f => cases h
  | refused f => rw [Option.some.inj h]

theorem decode_of {w : PortWord} {i : Instr} (h : instrOf w = some i) : decode w = .ok i := by
  unfold instrOf at h
  split at h
  · rw [‹decode w = _›, Option.some.inj h]
  · cases h

/-- A unit with wires 0 and 1 as given, one ring's descriptor and its region's first words as given. -/
def small (w0 w1 rate : Sample) (r : RingId) (d : Ring) (cells : DelayMemory) : State :=
  ((({ State.reset with ls := .ready, inProgress := true, sampleRate := rate, dm := cells }).setRing r d).setWire 0#4
    w0).setWire 1#4 w1

/-- `small` with no ring. -/
def wired (w0 w1 : Sample) : State := small w0 w1 0x3F800000#32 0 Ring.zero []

/-! ### WellFormed refuses an ill-formed term for each of its checks -/

theorem test_illformed_mulc : Instr.wellFormed (.mulc 0#4 0#4 4#4) = false := by decide

theorem test_illformed_dcb : Instr.wellFormed (.dcb 1#4 0#4 0#4) = false := by decide

theorem test_illformed_hsh : Instr.wellFormed (.hsh 2#4 0#4 0#4) = false := by decide

theorem test_illformed_dly : Instr.wellFormed (.dly 4#4 0#4 0#4) = false := by decide

theorem test_illformed_ap : Instr.wellFormed (.ap 6#4 0#4 0#4) = false := by decide

theorem test_illformed_vap : Instr.wellFormed (.vap 2#4 0#4 0#4 0#4) = false := by decide

theorem test_illformed_tap_unit : Instr.wellFormed (.tap 4#4 0#4 0#4) = false := by decide

theorem test_illformed_tap_ki : Instr.wellFormed (.tap 0#4 0#4 8#4) = false := by decide

theorem test_illformed_rdcsr : Instr.wellFormed (.rdcsr 3#4) = false := by decide

theorem test_wellformed_at_the_bounds :
    [Instr.mulc 0#4 0#4 3#4, .dcb 0#4 0#4 0#4, .hsh 1#4 0#4 0#4, .dly 3#4 0#4 0#4, .ap 5#4 0#4 0#4,
      .vap 1#4 0#4 0#4 0#4, .tap 3#4 0#4 7#4, .rdcsr 2#4].all Instr.wellFormed = true := by decide

/-! ### Decoding: words written out from R92, R96, R101 and the fields of R100, every field different -/

theorem test_decode_end : instrOf (.stage (0b00000000000000000000000000000000#32)) = some (.end_) := by decide +kernel

theorem test_decode_lfo : instrOf (.stage (0b00010000010100000111000000000000#32)) = some (.lfo 5#4 7#4) := by decide +kernel

theorem test_decode_mulc : instrOf (.stage (0b00100000101011000000001000000000#32)) = some (.mulc 10#4 12#4 2#4) := by decide +kernel

theorem test_decode_addf : instrOf (.stage (0b00110000000100110000000000000000#32)) = some (.addf 1#4 3#4) := by decide +kernel

theorem test_decode_dcb : instrOf (.stage (0b01000000011101010000000000000000#32)) = some (.dcb 0#4 7#4 5#4) := by decide +kernel

theorem test_decode_hsh : instrOf (.stage (0b01010001111000110000000000000000#32)) = some (.hsh 1#4 14#4 3#4) := by decide +kernel

theorem test_decode_dly : instrOf (.stage (0b01100010100101000000000000000000#32)) = some (.dly 2#4 9#4 4#4) := by decide +kernel

theorem test_decode_ap : instrOf (.stage (0b01110101001110110000000000000000#32)) = some (.ap 5#4 3#4 11#4) := by decide +kernel

theorem test_decode_vap : instrOf (.stage (0b10000001001011000111000000000000#32)) = some (.vap 1#4 2#4 12#4 7#4) := by decide +kernel

theorem test_decode_tap : instrOf (.stage (0b10010011110100000000011000000000#32)) = some (.tap 3#4 13#4 6#4) := by decide +kernel

theorem test_decode_stf : instrOf (.stage (0b10100000000010010000000000000000#32)) = some (.stf 9#4) := by decide +kernel

theorem test_decode_in : instrOf (.stage (0b10110000011000000000000000000000#32)) = some (.in_ 6#4) := by decide +kernel

theorem test_decode_out : instrOf (.stage (0b11000000000010100011000000000000#32)) = some (.out 10#4 3#4) := by decide +kernel

theorem test_decode_clr : instrOf (.stage (0b11010000111100000000000000000000#32)) = some (.clr 15#4) := by decide +kernel

theorem test_decode_nop : instrOf (.host 0x000000000#36) = some (.nop) := by decide +kernel

theorem test_decode_construct : instrOf (.host 0x1472C4400#36) = some (.construct 0x472C4400#32) := by decide +kernel

theorem test_decode_process : instrOf (.host 0x2BF000000#36) = some (.process 0xBF000000#32) := by decide +kernel

theorem test_decode_destroy : instrOf (.host 0x300000000#36) = some (.destroy) := by decide +kernel

theorem test_decode_setbs : instrOf (.host 0x400000040#36) = some (.setbs 64#32) := by decide +kernel

theorem test_decode_rdcsr : instrOf (.host 0x500000001#36) = some (.rdcsr 1#4) := by decide +kernel

theorem test_decode_alloc : instrOf (.alloc (0b0#1 ++ 0x00010000#32)) = some (.alloc 65536#32) := by decide +kernel

theorem test_decode_free : instrOf (.alloc (0b1#1 ++ 0x00012345#32)) = some (.free 0x12345#32) := by decide +kernel

/-- R95: the four invalid words of V-HOST-1. -/
theorem test_reserved_host_words :
    [rejectOf (.host 0x600000000#36), rejectOf (.host 0x300000001#36), rejectOf (.host 0x500000003#36),
        rejectOf (.host 0x500000012#36), rejectOf (.host 0x000000001#36)] =
      [some .reservedHostOp, some .nonzeroHostData, some .reservedCsr, some .reservedCsr, some .nonzeroHostData] := by
  decide +kernel

/-- R105: reserved stage words. -/
theorem test_reserved_stage_words :
    [rejectOf (.stage 0xE0000000#32), rejectOf (.stage 0xF0000000#32), rejectOf (.stage 0x00000001#32),
        rejectOf (.stage 0x10010000#32), rejectOf (.stage 0x76000000#32), rejectOf (.stage 0x41000000#32),
        rejectOf (.stage 0x90000800#32), rejectOf (.stage 0x20000400#32)] =
      [some .reservedStageOp, some .reservedStageOp, some .nonzeroZ, some .nonzeroUnusedField, some .indexOutOfRange,
        some .indexOutOfRange, some .indexOutOfRange, some .indexOutOfRange] := by
  decide +kernel

/-- No two rows of the opcode table's stage words overlap. -/
theorem test_stage_rows_disjoint :
    stageTable.Pairwise fun p q => p.1 &&& (p.2 &&& q.2) ≠ q.1 &&& (p.2 &&& q.2) := by decide +kernel

theorem test_decodeTableWord :
    decodeTableWord 32 0x70000000 = some (.ap 0#4 0#4 0#4) ∧ decodeTableWord 40 0x500000002 = some (.rdcsr 2#4) ∧
      decodeTableWord 33 0x100000010 = some (.free 16#32) ∧ decodeTableWord 32 0xE0000000 = none ∧
      decodeTableWord 16 0 = none := by decide +kernel

theorem test_withFetchWord_runs_a_stage :
    wireAfter 3#4 (step (State.reset.withFetchWord 32 0xD0300000)) = some 0x00000000#32 := by decide +kernel

theorem test_withFetchWord_runs_a_command :
    (nextOf (step (State.reset.withFetchWord 40 0x400000040))).map (·.bufferSize) = some 64#32 := by decide +kernel

/-! ### Binary32 and the sizes of a ring -/

/-- Ties to even, the subnormal edge, overflow, and the exact zero sums of R9 (hand calculation). -/
theorem test_rounding :
    fadd 0 0x4B800000#32 0x3F800000#32 = 0x4B800000#32 ∧ fadd 0 0x4B800001#32 0x3F800000#32 = 0x4B800002#32 ∧
      fmul 0 0x00800000#32 0x3F000000#32 = 0x00400000#32 ∧ fmul 0 0x00000001#32 0x3F000000#32 = 0x00000000#32 ∧
      fadd 0 0x7F7FFFFF#32 0x7F7FFFFF#32 = 0x7F800000#32 ∧ fadd 0 0x80000000#32 0x00000000#32 = 0x00000000#32 ∧
      fadd 0 0x80000000#32 0x80000000#32 = 0x80000000#32 ∧ fmul 0 0x80000000#32 0x3F800000#32 = 0x80000000#32 ∧
      fdiv 0 0x3F800000#32 0x40400000#32 = 0x3EAAAAAB#32 := by decide +kernel

/-- R10 at its edges (hand calculation): -0.5, -3.25, 2^31 - 128, 2^31. -/
theorem test_conversions :
    truncI32 0xBF000000#32 = some 0#32 ∧ floorI32 0xBF000000#32 = some (-1#32) ∧
      truncI32 0xC0500000#32 = some (-3#32) ∧ floorI32 0xC0500000#32 = some (-4#32) ∧
      truncI32 0x4EFFFFFF#32 = some 0x7FFFFF80#32 ∧ truncI32 0x4F000000#32 = none ∧ floorI32 0xCF000000#32 = none ∧
      i2f 0x7FFFFFFF#32 = 0x4F000000#32 ∧ i2f 0xFFFFFFFF#32 = 0xBF800000#32 := by decide +kernel

/-- V-CAP-1, from the product. -/
theorem test_capacity :
    [0x44700000#32, 0x44800000#32, 0x44800001#32, 0x40000000#32, 0x40000001#32, 0x3FC00000#32, 0x3F800000#32,
        0x3F000000#32, 0x00000000#32].map (fun n => leastPowerOfTwo (ceilNat n)) =
      [1024, 1024, 2048, 2, 4, 2, 1, 1, 1] := by decide +kernel

/-- V-CAP-2 at 48000 Hz. -/
theorem test_ring_sizes :
    allRings.map (fun r =>
        (Config.defaults.ringCapacity 0x473B8000#32 r, Config.defaults.ringDelaySamples 0x473B8000#32 r)) =
      [(1024, some 168#32), (1024, some 240#32), (1024, some 384#32), (1024, some 489#32), (4096, some 1200#32),
        (4096, some 2256#32), (4096, some 1488#32), (16384, some 5808#32), (4096, some 1968#32), (8192, some 3983#32),
        (8192, some 3216#32), (16384, some 8592#32)] := by
  decide +kernel

/-- V-TAP-2 at 48000 Hz. -/
theorem test_tap_samples :
    Config.topology.taps.toList.map (fun t => tapSamples 0 0x473B8000#32 t.offsetS) =
      [some 9#32, some 21#32, some 14#32, some 7#32, some 14#32, some 40#32, some 33#32, some 45#32] := by
  decide +kernel

/-! ### The stages -/

/-- R210: the latch goes to the wire. -/
theorem test_in : wireAfter 5#4 (exec (.in_ 5#4) { wired 0#32 0#32 with inLatch := 0x7FC12345#32 }) =
    some 0x7FC12345#32 := by decide +kernel

/-- V-LFO-2 at 1000 Hz, step 2 (the sine from the new cosine). -/
theorem test_lfo :
    (nextOf (exec (.lfo 1#4 2#4)
      { wired 0#32 0#32 with lfo := ⟨0x3B4DE32E#32, 0x3F800000#32, 0x3B4DE32E#32⟩ })).map
        (fun t => (t.wire 1#4, t.wire 2#4, t.lfo.cos, t.lfo.sin)) =
      some (some 0x3F7FFF5A#32, some 0x3BCDE2EB#32, 0x3F7FFF5A#32, 0x3BCDE2EB#32) := by decide +kernel

/-- R152: with `RD = RB` the wire ends holding the sine. -/
theorem test_lfo_one_wire :
    wireAfter 1#4 (exec (.lfo 1#4 1#4)
      { wired 0#32 0#32 with lfo := ⟨0x3B4DE32E#32, 0x3F800000#32, 0x00000000#32⟩ }) = some 0x3B4DE32E#32 := by
  decide +kernel

/-- R211 with `C[2] = 0.8` on 2.0 (hand calculation: doubling is exact). -/
theorem test_mulc : wireAfter 1#4 (exec (.mulc 1#4 0#4 2#4) (wired 0x40000000#32 0#32)) = some 0x3FCCCCCD#32 := by
  decide +kernel

/-- R212: 1.0 + 2.0, with the feedback scalar kept. -/
theorem test_addf :
    (nextOf (exec (.addf 1#4 0#4) { wired 0x3F800000#32 0#32 with fb := 0x40000000#32 })).map
      (fun t => (t.wire 1#4, t.fb)) = some (some 0x40400000#32, 0x40000000#32) := by decide +kernel

/-- R213. -/
theorem test_stf : (nextOf (exec (.stf 1#4) (wired 0#32 0xFF800001#32))).map (·.fb) = some 0xFF800001#32 := by
  decide +kernel

/-- R214: the cleared wire holds `+0.0`. -/
theorem test_clr : wireAfter 0#4 (exec (.clr 0#4) (wired 0x80000000#32 0#32)) = some 0x00000000#32 := by decide +kernel

/-- R215: left from `RA`, right from `RB`. -/
theorem test_out :
    (nextOf (exec (.out 0#4 1#4) (wired 0x3F800000#32 0x40000000#32))).map (fun t => (t.outL, t.outR)) =
      some (0x3F800000#32, 0x40000000#32) := by decide +kernel

/-- R216, R93. -/
theorem test_end :
    (nextOf (exec .end_ { wired 0#32 0#32 with outL := 0x3F800000#32, outR := 0x40000000#32, spc := 34#6 })).map
      (fun t => (t.hostResponse, t.spc, t.inProgress)) =
      some (some 0x03F80000040000000#68, 0#6, false) := by decide +kernel

/-- V-DCB-1, the second output. -/
theorem test_dcb :
    (nextOf (exec (.dcb 0#4 0#4 0#4) { wired 0x3F800000#32 0#32 with dcb := ⟨0x3F800000#32, 0x3F800000#32⟩ })).map
      (fun t => (t.wire 0#4, t.dcb.x1, t.dcb.y1)) =
      some (some 0x3F7D70A4#32, 0x3F800000#32, 0x3F7D70A4#32) := by decide +kernel

/-- V-DCB-2, the second output. -/
theorem test_dcb_negative :
    wireAfter 1#4 (exec (.dcb 0#4 1#4 0#4)
      { wired 0xBE800000#32 0#32 with dcb := ⟨0x3F000000#32, 0x3F000000#32⟩ }) = some 0xBE828F5C#32 := by decide +kernel

/-- V-HSH-3, the second output, in instance 1. -/
theorem test_hsh :
    (nextOf (exec (.hsh 1#4 0#4 0#4) { wired 0xBF800000#32 0#32 with hsh := #v[0x40000000#32, 0x3F800000#32] })).map
      (fun t => (t.wire 0#4, t.hsh)) = some (some 0xBECCCCCC#32, #v[0x40000000#32, 0xBF800000#32]) := by decide +kernel

/-- The ring of V-DLY-1 before its fourth call, in ring 5. -/
def dlyBefore (x : Sample) : State :=
  small x 0#32 0x3F800000#32 5 ⟨100#32, 8#32, 7#32, 3#32, 0#32, 3#32⟩
    [(100, 0x3F800000#32), (101, 0x40000000#32), (102, 0x40400000#32)]

/-- V-DLY-1, the fourth call: 1.0 comes out, 4.0 goes in. -/
theorem test_dly :
    (nextOf (exec (.dly 0#4 0#4 0#4) (dlyBefore 0x40800000#32))).map
      (fun t => (t.wire 0#4, (t.ring 5).cursor, t.dm)) =
      some (some 0x3F800000#32, 4#32,
        [(100, 0x3F800000#32), (101, 0x40000000#32), (102, 0x40400000#32), (103, 0x40800000#32)]) := by decide +kernel

/-- R176: a line whose delay is the whole capacity reads the cell it is about to write. -/
theorem test_dly_full :
    wireAfter 1#4 (exec (.dly 3#4 1#4 0#4)
      (small 0x40A00000#32 0#32 0x3F800000#32 11 ⟨0#32, 4#32, 3#32, 0#32, 0#32, 4#32⟩ [(0, 0x3F800000#32)])) =
      some 0x3F800000#32 := by decide +kernel

/-- The ring of V-TAP-1 (cursor 4), in ring 7, at a rate that makes `ts` of `T[0]` (0.0002 s) 2. -/
def tapBefore (acc : Sample) : State :=
  small acc 0#32 0x461C4000#32 7 ⟨0#32, 8#32, 7#32, 4#32, 0#32, 3#32⟩
    [(0, 0x41100000#32), (1, 0x41200000#32), (2, 0x41300000#32), (3, 0x41400000#32), (4, 0x40A00000#32),
      (5, 0x40C00000#32), (6, 0x40E00000#32), (7, 0x41000000#32)]

/-- V-TAP-1, lines 5 and 6: 1.0 + 0.5 × 11.0, the ring unchanged. -/
theorem test_tap :
    (nextOf (exec (.tap 1#4 0#4 0#4) (tapBefore 0x3F800000#32))).map
      (fun t => (t.wire 0#4, (t.ring 7).cursor, t.dm == (tapBefore 0#32).dm)) =
      some (some 0x40D00000#32, 4#32, true) := by decide +kernel

/-- V-AP-3, the first two outputs of E1 at 48000 Hz: the impulse, and the impulse's cell 168 calls later. -/
theorem test_ap :
    wireAfter 0#4 (exec (.ap 0#4 0#4 0#4)
        (small 0x3F800000#32 0#32 0x473B8000#32 0 ⟨0#32, 1024#32, 1023#32, 0#32, 0x3B656042#32, 168#32⟩ [])) =
      some 0xBF3851EC#32 ∧
    wireAfter 0#4 (exec (.ap 0#4 0#4 0#4)
        (small 0x00000000#32 0#32 0x473B8000#32 0 ⟨0#32, 1024#32, 1023#32, 168#32, 0x3B656042#32, 168#32⟩
          [(0, 0x3F800000#32)])) =
      some 0x3EF69446#32 := by decide +kernel

/-- V-INT-1, all six rows. -/
theorem test_interpolate :
    let s := small 0#32 0#32 0x3F800000#32 4 ⟨0#32, 8#32, 7#32, 0#32, 0#32, 0#32⟩
      [(0, 0x41200000#32), (1, 0x41A00000#32), (2, 0x41F00000#32), (3, 0x42200000#32), (4, 0x42480000#32),
        (5, 0x42700000#32), (6, 0x428C0000#32), (7, 0x42A00000#32)]
    [0x40000000#32, 0x40200000#32, 0x40300000#32, 0xC0500000#32, 0xBF000000#32, 0x40F00000#32].map
        (fun pos => (floorI32 pos).map fun i => s.interpolate 0 4 pos i) =
      [some 0x41F00000#32, some 0x420C0000#32, some 0x42160000#32, some 0x42660000#32, some 0x42340000#32,
        some 0x42340000#32] := by decide +kernel

/-- The ring of V-VAP-1 before its fourth call, in ring 4, whose coefficient is 0.55. -/
def vapBefore (x offset : Sample) : State :=
  small x offset 0x3F800000#32 4 ⟨0#32, 8#32, 7#32, 3#32, 0x40400000#32, 3#32⟩
    [(0, 0x3F800000#32), (1, 0x40000000#32), (2, 0x40400000#32)]

/-- V-VAP-1, call 3: position -0.25, the delayed word 0.75 between cells 7 and 0 of an almost empty ring. -/
theorem test_vap_position :
    readPosition 0 ((vapBefore 0#32 0#32).ring 4) 0x3E800000#32 0x3F800000#32 = 0xBE800000#32 ∧
      (vapBefore 0#32 0#32).interpolate 0 4 0xBE800000#32 (-1#32) = 0x3F400000#32 := by decide +kernel

/-- P4 of spec/95_test_vectors.md, first call, slot 10: `VAP.0` of V1 on its cleared ring. -/
theorem test_vap :
    wireAfter 0#4 (exec (.vap 0#4 0#4 0#4 1#4)
      (small 0x3D6580B4#32 0x3A03126F#32 0x472C4400#32 4 ⟨0#32, 4096#32, 4095#32, 0#32, 0x3CCCCCCD#32, 1102#32⟩ [])) =
      some 0xBCFC73FA#32 := by decide +kernel

/-! ### Commands and requests -/

/-- A command issued to a state, and one step. -/
def issue (s : State) (w : HostWord) : Result := step { s with hostQueue := [⟨w, true⟩] }

/-- V-HOST-2, the first response. -/
theorem test_rdcsr_after_reset :
    (nextOf (issue State.reset 0x500000002#36)).map (·.hostResponse) = some (some 0#68) := by decide +kernel

theorem test_nop : (nextOf (issue State.reset 0x000000000#36)).map (·.hostResponse) = some (some 0#68) := by
  decide +kernel

/-- V-HOST-2: SETBS 64, then RDCSR BUFFER_SIZE. -/
theorem test_setbs :
    ((nextOf (issue State.reset 0x400000040#36)).bind fun t => (nextOf (issue t 0x500000001#36))).map (·.hostResponse) =
      some (some 64#68) := by decide +kernel

/-- Twelve disjoint bases for a unit at 1000 Hz. -/
def bases : Vector (BitVec 32) 12 :=
  #v[0#32, 32#32, 64#32, 96#32, 128#32, 192#32, 256#32, 512#32, 768#32, 1024#32, 1280#32, 1536#32]

/-- Reset, with an allocator that will grant those bases. -/
def granting : State := { State.reset with allocQueue := bases.toList.map some }

/-- Reset, with an allocator that grants the requests before ring `r` and refuses that one. -/
def refusing (r : RingId) : State :=
  { State.reset with allocQueue := (bases.toList.take r.val).map some ++ [none] }

/-- A unit constructed at 1000 Hz. -/
def built : State := (nextOf (exec (.construct 0x447A0000#32) granting)).getD State.reset

/-- V-ALLOC-1 at 1000 Hz, and `lfo.k` of V-LFO-1. -/
theorem test_construct :
    (built.allocTraffic.map fun e => e.request) =
      [128#33, 128#33, 128#33, 128#33, 256#33, 256#33, 256#33, 1024#33, 256#33, 512#33, 512#33, 1024#33] ∧
    built.status = 1#32 ∧ built.lfo = ⟨0x3B4DE32E#32, 0x3F800000#32, 0x00000000#32⟩ ∧
      (built.ring 9).delaySamples = 83#32 := by decide +kernel

/-- V-ALLOC-2, V-ALLOC-3: failures at rings 5 and 0. -/
theorem test_construct_fails :
    (nextOf (exec (.construct 0x447A0000#32) (refusing 5))).map
        (fun t => (t.hostResponse, t.status, t.live, t.allocTraffic.drop 6)) =
      some (some 0x10000000000000005#68, 0x52#32, [],
        [⟨0x100000080#33, none⟩, ⟨0x100000060#33, none⟩, ⟨0x100000040#33, none⟩, ⟨0x100000020#33, none⟩,
          ⟨0x100000000#33, none⟩]) ∧
    (nextOf (exec (.construct 0x447A0000#32) (refusing 0))).map (fun t => (t.status, t.allocTraffic.length)) =
      some (2#32, 1) := by decide +kernel

/-- V-ALLOC-4: rings 11 to 0 are freed. -/
theorem test_destroy :
    (nextOf (exec .destroy { built with allocTraffic := [] })).map
        (fun t => (t.hostResponse, t.status, t.live, t.allocTraffic.map (·.request))) =
      some (some 0#68, 0#32, [], bases.toList.reverse.map fun b => 1#1 ++ b) := by decide +kernel

/-- R141, R290: a word issued behind a command of one step without waiting is an overlap, one issued during a PROCESS too. -/
theorem test_overlap :
    refusalOf (step { State.reset with hostQueue := [⟨0x000000000#36, true⟩, ⟨0x400000040#36, false⟩] }) =
      some .commandInProgress ∧
    ((nextOf (step { built with hostQueue := [⟨0x23F800000#36, true⟩, ⟨0x000000000#36, false⟩] })).bind
      fun t => refusalOf (step t)) = some .commandInProgress := by decide +kernel

/-- R139: the latch, the wires and the counter. -/
theorem test_process :
    (nextOf (issue built 0x23F800000#36)).map (fun t => (t.inLatch, t.spc, t.inProgress, t.hostResponse)) =
      some (0x3F800000#32, 0#6, true, none) := by decide +kernel

/-- R130, R132: a granted request, and one whose region is held. -/
theorem test_alloc :
    (nextOf (exec (.alloc 16#32) { State.reset with allocQueue := [some 8#32] })).map (·.live) = some [⟨8#32, 4⟩] ∧
      (nextOf (exec (.alloc 16#32) { State.reset with live := [⟨8#32, 4⟩], allocQueue := [some 11#32] })).map (·.live) =
        some [⟨8#32, 4⟩] := by decide +kernel

/-- R131: a held region returns; the FREE of another base takes none back, and is sent all the same. -/
theorem test_free :
    (nextOf (exec (.free 8#32) { State.reset with live := [⟨16#32, 4⟩, ⟨8#32, 4⟩] })).map (·.live) =
      some [⟨16#32, 4⟩] ∧
    (nextOf (exec (.free 9#32) { State.reset with live := [⟨8#32, 4⟩] })).map (fun t => (t.live, t.allocTraffic)) =
      some ([⟨8#32, 4⟩], [⟨0x100000009#33, none⟩]) := by decide +kernel

/-- Other parameters: `C[0] = 2.0`, and 16 address bits. -/
def otherParams : Params :=
  { Config.defaults with
    topology := { Config.topology with consts := #v[0x40000000#32, 0x399D4952#32, 0x3F4CCCCD#32, 0x3F4CCCCD#32] }
    dmAddrW := 16 }

/-- R5: the parameters of the state are the ones used, and with 16 address bits 5 and 2^16 + 5 are one word. -/
theorem test_params :
    wireAfter 1#4 (exec (.mulc 1#4 0#4 0#4) { wired 0x3F800000#32 0#32 with params := otherParams }) =
      some 0x40000000#32 ∧
    ({ State.reset with params := otherParams }.memWrite 0x10005#32 0x3F800000#32).memRead 5#32 = 0x3F800000#32 ∧
    (State.reset.memWrite 0x10005#32 0x3F800000#32).memRead 5#32 = 0#32 := by decide +kernel

/-! ### Witnesses: states and operands that meet a statement's hypotheses -/

/-- A PROCESS of the unit built above, in progress at slot `n`, every wire `+0.0` but wire 1. -/
def running (n : BitVec 6) (w1 : Sample) : State :=
  { built with
    hostResponse := none, inProgress := true, spc := n
    wires := (Vector.replicate 16 (some 0x00000000#32)).set 1 (some w1) }

theorem built_rings (r : RingId) : RingOk 0x447A0000#32 (Config.defaults.row r) (built.ring r) where
  capacity := by
    have : ∀ r : RingId, (built.ring r).capacity =
        BitVec.ofNat 32 (capacityOf 0x447A0000#32 (Config.defaults.row r).maxDelayS) := by
      decide +kernel
    exact this r
  mask := by
    have : ∀ r : RingId, (built.ring r).mask = (built.ring r).capacity - 1#32 := by decide +kernel
    exact this r
  cursor := by
    have : ∀ r : RingId, (built.ring r).cursor.toNat < (built.ring r).capacity.toNat := by decide +kernel
    exact this r
  delayS := by
    have : ∀ r : RingId, (built.ring r).delayS = (Config.defaults.row r).delayS := by decide +kernel
    exact this r
  delaySamples := by
    have : ∀ r : RingId, delaySamplesOf 0x447A0000#32 (Config.defaults.row r).delayS =
        some (built.ring r).delaySamples := by
      decide +kernel
    exact this r

theorem built_contract : LiveContract built.params.addressSpace built.live := by
  unfold LiveContract; decide +kernel

/-- The default parameters are legal. -/
theorem defaults_legal : LegalParams Config.defaults := ⟨by decide, by decide⟩

/-- A row of the defaults whose delay has a defined number of samples at 1000 Hz: every one. -/
theorem defaults_defined (r : RingId) : ∃ ds, truncI32 (fmul 0 0x447A0000#32 (Config.defaults.row r).delayS) = some ds := by
  have : ∀ r : RingId, (truncI32 (fmul 0 0x447A0000#32 (Config.defaults.row r).delayS)).isSome = true := by
    decide +kernel
  exact Option.isSome_iff_exists.1 (this r)

theorem built_facts :
    Memory.wf built.dm = true ∧ built.rom = Config.scheduleRom ∧ built.ls = .ready ∧ built.allocRequest = none ∧
      built.af = false ∧ built.afring = 0#4 ∧ built.live = built.ringRegions ∧ built.sampleRate = 0x447A0000#32 ∧
      built.inProgress = false ∧ built.hostQueue = [] ∧ built.params = Config.defaults := by
  decide +kernel

theorem running_wire (n : BitVec 6) (w1 : Sample) (i : Nibble) : (running n w1).hasWire i := by
  unfold State.hasWire State.wire running
  simp only
  rw [Vector.getElem_set]
  split <;> simp

/-- The invariant holds in a running unit at every slot. -/
theorem running_inv (n : BitVec 6) (w1 : Sample) (hn : n.toNat ≤ 34) : UnitInv (running n w1) := by
  obtain ⟨h1, h2, h3, h4, h5, h6, h7, h8, h9, h10, h11⟩ := built_facts
  exact {
    memory := h1
    rom := h2
    params := by
      show LegalParams built.params
      rw [h11]; exact defaults_legal
    slot := hn
    idle := fun h => Bool.noConfusion h
    running := fun _ => ⟨h3, rfl⟩
    noRequest := h4
    noFailure := fun _ => h6
    failedRing := by show built.afring.toNat ≤ 11; rw [h6]; decide
    constructed := fun _ => h5
    emptyHoldsNothing := fun h => by rw [show (running n w1).ls = built.ls from rfl, h3] at h; cases h
    readyHoldsRings := fun _ => h7
    contract := built_contract
    rate := fun _ => by
      show built.params.admittedRate built.sampleRate = true
      rw [h8, h11]; decide +kernel
    rings := fun _ r => by
      show RingOk built.sampleRate (built.params.row r) (built.ring r)
      rw [h8, h11]; exact built_rings r
    wires := fun _ => ⟨fun _ => running_wire .., fun _ => running_wire .., fun _ => running_wire ..,
      fun _ => running_wire .., fun _ => running_wire ..⟩ }

theorem witness_StepKeepsTheInvariant : UnitInv (running 34#6 0#32) ∧ ∃ t, step (running 34#6 0#32) = .next t :=
  ⟨running_inv _ _ (by decide), exists_next (by decide +kernel)⟩

theorem witness_StepNeverFaultsUnderTheInvariant : UnitInv (running 0#6 0#32) := running_inv _ _ (by decide)

theorem witness_ProcessStopsOnlyOnAnUndefinedConversion :
    UnitInv (running 10#6 0x7F7FFFFF#32) ∧ (running 10#6 0x7F7FFFFF#32).inProgress = true ∧
      (running 10#6 0x7F7FFFFF#32).hostIssue = none ∧
      step (running 10#6 0x7F7FFFFF#32) = .refused .conversionUndefined :=
  ⟨running_inv _ _ (by decide), rfl, by decide +kernel, refused_of (by decide +kernel)⟩

/-- A READY unit with one host command waiting. -/
def withCommand (w : HostWord) : State := { built with hostQueue := [⟨w, true⟩] }

theorem witness_StepRunsTheDecodedInstruction_request :
    ({ State.reset with allocRequest := some 0x000000010#33 }).allocRequest = some 0x000000010#33 ∧
      decode (.alloc 0x000000010#33) = .ok (.alloc 16#32) :=
  ⟨rfl, decode_of (by decide +kernel)⟩

theorem witness_StepRunsTheDecodedInstruction_command :
    (withCommand 0x23F800000#36).allocRequest = none ∧
      (withCommand 0x23F800000#36).hostQueue = ⟨0x23F800000#36, true⟩ :: [] ∧
      ((withCommand 0x23F800000#36).inProgress = true → (HostIssue.mk 0x23F800000#36 true).waits = false) ∧
      decode (.host 0x23F800000#36) = .ok (.process 0x3F800000#32) :=
  ⟨by decide +kernel, rfl, by decide +kernel, decode_of (by decide +kernel)⟩

theorem witness_StepRunsTheDecodedInstruction_stage :
    (running 34#6 0#32).allocRequest = none ∧ (running 34#6 0#32).inProgress = true ∧
      (∀ h ∈ (running 34#6 0#32).hostQueue, h.waits = true) ∧
      (running 34#6 0#32).rom[(running 34#6 0#32).spc.toNat]? = some 0x00000000#32 ∧
      decode (.stage 0x00000000#32) = .ok .end_ :=
  ⟨by decide +kernel, rfl, by decide +kernel, by decide +kernel, decode_of (by decide +kernel)⟩

theorem witness_StepRunsTheDecodedInstruction_waiting :
    State.reset.allocRequest = none ∧ State.reset.hostQueue = [] ∧ State.reset.inProgress = false := ⟨rfl, rfl, rfl⟩

theorem witness_ProcessRunsTheScheduleOnce :
    let s := withCommand 0x23F800000#36
    s.ls = .ready ∧ s.inProgress = false ∧ s.allocRequest = none ∧ s.rom = Config.scheduleRom ∧
      s.hostQueue = [⟨0x23F800000#36, true⟩] ∧ (0x23F800000#36 : HostWord) = 0x2#4 ++ 0x3F800000#32 ∧
      (perSample s.params s.sampleRate 0x3F800000#32 s.signal).isSome = true := by decide +kernel

theorem witness_DecodeOfEncodeIsTheInstruction : (Instr.tap 3#4 15#4 7#4).wellFormed = true := by decide

theorem witness_OnlyEncodedWordsDecode : decode (.stage 0x93F00700#32) = .ok (.tap 3#4 15#4 7#4) :=
  decode_of (by decide +kernel)

theorem witness_ReservedHostWordsAreRefused :
    let s := withCommand 0x500000012#36
    s.allocRequest = none ∧ s.hostQueue = [⟨0x500000012#36, true⟩] ∧
      (s.inProgress = true → (HostIssue.mk 0x500000012#36 true).waits = false) ∧
      (0x500000012#36 : HostWord) = 5#4 ++ 0x00000012#32 ∧ 2 < (0x00000012#32).toNat := by decide +kernel

/-- A unit whose schedule holds a reserved word (`AP.6`) where it fetches next. -/
def reservedNext : State := State.reset.placeWord (.stage 0x76000000#32)

theorem witness_ReservedStageWordsAreRefused :
    reservedNext.allocRequest = none ∧ reservedNext.inProgress = true ∧ (∀ h ∈ reservedNext.hostQueue, h.waits = true) ∧
      reservedNext.rom[reservedNext.spc.toNat]? = some 0x76000000#32 ∧
      ¬ ((∃ row ∈ stageTable, 0x76000000#32 &&& row.2 = row.1) ∧
        ¬ (0x76000000 ≤ (0x76000000#32).toNat ∧ (0x76000000#32).toNat < 0x78000000)) := by decide +kernel

theorem witness_ReadAfterWrite :
    Memory.wf (dlyBefore 0#32).dm = true ∧ (dlyBefore 0#32).params.dmAddrW = 32 ∧
      (0x10005#32).toNat % 2 ^ otherParams.dmAddrW = (5#32).toNat % 2 ^ otherParams.dmAddrW := by decide +kernel

theorem witness_CanonicalMemoriesThatReadAlikeAreEqual :
    Memory.wf [(0, 0x3F800000#32), (4294967295, 0x80000000#32)] = true := by decide +kernel

/-- The largest power of two a capacity can be, at a base where a negative index wraps (hand calculation). -/
theorem witness_MaskedIndexIsTheMathematicalModulo :
    let d : Ring := ⟨0xFFFFFFFF#32, 0x80000000#32, 0x7FFFFFFF#32, 0#32, 0#32, 0#32⟩
    31 ≤ 31 ∧ d.capacity = BitVec.ofNat 32 (2 ^ 31) ∧ d.mask = d.capacity - 1#32 ∧
      (d.address (-1#32)).toNat = 2147483646 := by decide +kernel

/-- The largest ring at the top of the address space. -/
def topRing : Ring := ⟨0xFF000000#32, 0x01000000#32, 0x00FFFFFF#32, 0#32, 0#32, 0#32⟩

theorem witness_EffectiveAddressStaysInTheRing :
    topRing.capacity = BitVec.ofNat 32 (2 ^ 24) ∧ topRing.mask = topRing.capacity - 1#32 ∧
      topRing.base.toNat + topRing.capacity.toNat ≤ Config.defaults.addressSpace ∧
      (0xFFF0#32).toNat + (16#32).toNat ≤ otherParams.addressSpace := by decide +kernel

theorem witness_CapacityIsTheLeastPowerOfTwo :
    ∃ n, valueOf (fmul 0 0x473B8000#32 0x3CA3D70A#32) = some n :=
  ⟨_, valueOf_finite (neg := false) (m := 15728640) (e := -14) (by decide +kernel)⟩

theorem witness_DelayLineReturnsItsInputLater :
    let s := small 0#32 0#32 0x3F800000#32 5 ⟨100#32, 8#32, 7#32, 0#32, 0#32, 8#32⟩ []
    ((0#4, 5) : Nibble × RingId) ∈ dlyUnits ∧ Memory.wf s.dm = true ∧ (s.ring 5).capacity = BitVec.ofNat 32 (2 ^ 3) ∧
      (s.ring 5).mask = (s.ring 5).capacity - 1#32 ∧ (s.ring 5).cursor.toNat < 2 ^ 3 ∧
      (s.ring 5).base.toNat + 2 ^ 3 ≤ s.params.addressSpace ∧ 1 ≤ (s.ring 5).delaySamples.toNat ∧
      (s.ring 5).delaySamples.toNat ≤ 2 ^ 3 ∧
      (∀ j < 2 ^ 3, s.memRead ((s.ring 5).base + BitVec.ofNat 32 j) = 0x00000000#32) := by decide +kernel

theorem witness_TapSeesTheSamplesGiven :
    let s := small 0#32 0#32 0x3F800000#32 5 ⟨100#32, 8#32, 7#32, 7#32, 0#32, 3#32⟩ []
    ((0#4, 5) : Nibble × RingId) ∈ dlyUnits ∧ Memory.wf s.dm = true ∧ (s.ring 5).capacity = BitVec.ofNat 32 (2 ^ 3) ∧
      (s.ring 5).mask = (s.ring 5).capacity - 1#32 ∧ (s.ring 5).cursor.toNat < 2 ^ 3 ∧
      (s.ring 5).base.toNat + 2 ^ 3 ≤ s.params.addressSpace ∧
      (∀ j < 2 ^ 3, s.memRead ((s.ring 5).base + BitVec.ofNat 32 j) = 0x00000000#32) ∧
      (delayRun 0#4 [0x3F800000#32, 0x40000000#32] s).isSome = true := by decide +kernel

/-- The values of a few samples the witnesses use. -/
theorem value_one : valueOf 0x3F800000#32 = some (ratOf false 8388608 (-23)) := valueOf_finite (by decide +kernel)
theorem value_minus_one : valueOf 0xBF800000#32 = some (ratOf true 8388608 (-23)) := valueOf_finite (by decide +kernel)
theorem value_zero : valueOf 0x00000000#32 = some (ratOf false 0 (-149)) := valueOf_finite (by decide +kernel)

theorem witness_SumsAndProductsAreCorrectlyRounded :
    (∃ x, valueOf 0x7F7FFFFF#32 = some x) ∧ ∃ y, valueOf 0x00000001#32 = some y :=
  ⟨⟨_, valueOf_finite (neg := false) (m := 16777215) (e := 104) (by decide +kernel)⟩,
    ⟨_, valueOf_finite (neg := false) (m := 1) (e := -149) (by decide +kernel)⟩⟩

theorem witness_QuotientsAreCorrectlyRounded :
    ∃ x y, valueOf 0x3F800000#32 = some x ∧ valueOf 0xBF800000#32 = some y ∧ y ≠ 0 :=
  ⟨_, _, value_one, value_minus_one, by rw [ratOf, signed_cast]; norm_num⟩

theorem witness_SpecialValuesOfSumsAndProducts :
    isNaN 0x7F800001#32 = true ∧ isNaN 0x7F800000#32 = false ∧ 0xFF800000#32 ∈ infinities ∧
      0x7F800000#32 ∈ infinities ∧ (∃ x, valueOf 0x3F800000#32 = some x ∧ x ≠ 0) ∧
      ∃ x y, valueOf 0x3F800000#32 = some x ∧ valueOf 0xBF800000#32 = some y ∧ x + y = 0 :=
  ⟨by decide, by decide, by decide, by decide, ⟨_, value_one, by rw [ratOf, signed_cast]; norm_num⟩,
    ⟨_, _, value_one, value_minus_one, by rw [ratOf, ratOf, signed_cast, signed_cast]; norm_num⟩⟩

theorem witness_ConversionsFollowTheirDefinition :
    (∃ q, valueOf 0x4EFFFFFF#32 = some q ∧ |q| < 2 ^ 31) ∧ ∀ q, valueOf 0xCF000000#32 = some q → 2 ^ 31 ≤ |q| := by
  constructor
  · refine ⟨_, valueOf_finite (neg := false) (m := 16777215) (e := 7) (by decide +kernel), ?_⟩
    rw [ratOf, signed_cast]; norm_num
  · intro q h
    rw [valueOf_finite (neg := true) (m := 8388608) (e := 8) (by decide +kernel)] at h
    rw [← Option.some.inj h, ratOf, signed_cast]; norm_num

/-- Wires 0 and 1 as given, with wire 2 empty. -/
theorem witness_wires :
    (wired 0x3F800000#32 0x40000000#32).wire 0#4 = some 0x3F800000#32 ∧
      (wired 0x3F800000#32 0x40000000#32).wire 1#4 = some 0x40000000#32 ∧
      (wired 0x3F800000#32 0x40000000#32).wire 2#4 = none := by decide +kernel

theorem witness_MulcScalesByAConstant : (wired 0x3F800000#32 0#32).wire 0#4 = some 0x3F800000#32 := by decide +kernel

theorem witness_AddfAddsTheFeedbackScalar : (wired 0x3F800000#32 0#32).wire 0#4 = some 0x3F800000#32 := by
  decide +kernel

theorem witness_StfStoresTheFeedbackScalar : (wired 0x3F800000#32 0#32).wire 0#4 = some 0x3F800000#32 := by
  decide +kernel

theorem witness_OutDeliversTheStereoPair :
    (wired 0x3F800000#32 0x40000000#32).wire 0#4 = some 0x3F800000#32 ∧
      (wired 0x3F800000#32 0x40000000#32).wire 1#4 = some 0x40000000#32 := by decide +kernel

theorem witness_DcbFiltersItsInput : (wired 0x3F800000#32 0#32).wire 0#4 = some 0x3F800000#32 := by decide +kernel

theorem witness_HshFiltersItsInput : (wired 0x3F800000#32 0#32).wire 0#4 = some 0x3F800000#32 := by decide +kernel

theorem witness_DlyReadsThenWritesItsRing :
    ((0#4, 5) : Nibble × RingId) ∈ dlyUnits ∧ (dlyBefore 0x3F800000#32).wire 0#4 = some 0x3F800000#32 ∧
      Memory.wf (dlyBefore 0x3F800000#32).dm = true := by decide +kernel

theorem witness_TapAddsAGainedCell :
    ((1#4, 7) : Nibble × RingId) ∈ dlyUnits ∧ (tapBefore 0x3F800000#32).params.topology.taps[0].offsetS = 0x3951B717#32 ∧
      (tapBefore 0x3F800000#32).wire 0#4 = some 0x3F800000#32 ∧
      truncI32 (fmul 0 (tapBefore 0x3F800000#32).sampleRate 0x3951B717#32) = some 2#32 ∧
      (tapBefore 0x3F800000#32).draws = 0 := by decide +kernel

theorem witness_ApIsASchroederAllpass :
    ((5#4, 10, 5) : Nibble × RingId × Fin 6) ∈ apUnits ∧
      (wired 0x3F800000#32 0#32).wire 0#4 = some 0x3F800000#32 ∧
      Memory.wf (wired 0x3F800000#32 0#32).dm = true := by decide +kernel

theorem witness_VapIsAModulatedAllpass :
    let s := vapBefore 0x40800000#32 0x3E800000#32
    ((0#4, 4, 0) : Nibble × RingId × Fin 2) ∈ vapUnits ∧ s.wire 0#4 = some 0x40800000#32 ∧
      s.wire 1#4 = some 0x3E800000#32 ∧ Memory.wf s.dm = true ∧ s.draws = 0 ∧
      floorI32 (fsub 2 (i2f (s.ring 4).cursor)
        (fmul 1 (fadd 0 (s.ring 4).delayS 0x3E800000#32) s.sampleRate)) = some (-1#32) := by decide +kernel

theorem witness_VapWithAnIntegerDelayIsTheFixedAllpass :
    let s := vapBefore 0x40800000#32 0x00000000#32
    let d := s.memRead ((s.ring 4).base + (((s.ring 4).cursor - (s.ring 4).delaySamples) &&& (s.ring 4).mask))
    let y2 := s.memRead ((s.ring 4).base + (((s.ring 4).cursor - (s.ring 4).delaySamples + 1#32) &&& (s.ring 4).mask))
    ((0#4, 4, 0) : Nibble × RingId × Fin 2) ∈ vapUnits ∧ s.wire 0#4 = some 0x40800000#32 ∧
      s.wire 1#4 = some 0x00000000#32 ∧ Memory.wf s.dm = true ∧ (s.ring 4).cursor.toNat < 2 ^ 24 ∧
      (s.ring 4).delaySamples.toNat < 2 ^ 24 ∧ s.draws = 0 ∧
      fmul 1 (fadd 0 (s.ring 4).delayS 0x00000000#32) s.sampleRate = i2f (s.ring 4).delaySamples ∧
      d = 0x3F800000#32 ∧ y2 = 0x40000000#32 ∧ fsub 4 y2 d = 0x3F800000#32 ∧ d ≠ 0x80000000#32 := by decide +kernel

/-- The two cells of the witness above, and their difference, are finite. -/
theorem witness_VapWithAnIntegerDelay_finite :
    (∃ v, valueOf 0x3F800000#32 = some v) ∧ ∃ v, valueOf 0x40000000#32 = some v :=
  ⟨⟨_, value_one⟩, ⟨_, valueOf_finite (neg := false) (m := 8388608) (e := -22) (by decide +kernel)⟩⟩

theorem witness_InPlaceStagesGiveTheSameResult :
    let s := wired 0x3F800000#32 0x3F800000#32
    (∃ t, exec (.dcb 0#4 3#4 0#4) s = .next t) ∧ (∃ t, exec (.hsh 1#4 3#4 0#4) s = .next t) ∧
      (∃ t, exec (.dly 3#4 3#4 0#4) s = .next t) ∧ (∃ t, exec (.ap 5#4 3#4 0#4) s = .next t) ∧
      ∃ t, exec (.vap 1#4 3#4 0#4 1#4) s = .next t :=
  ⟨exists_next (by decide +kernel), exists_next (by decide +kernel), exists_next (by decide +kernel),
    exists_next (by decide +kernel), exists_next (by decide +kernel)⟩

theorem witness_ReadingAnEmptyWireFaults :
    (wired 0x3F800000#32 0#32).wire 2#4 = none ∧ (wired 0x3F800000#32 0#32).wire 0#4 = some 0x3F800000#32 := by
  decide +kernel

/-- The sample rate at which every tap's product overflows the conversion. -/
def fastState : State := small 0x3F800000#32 0#32 0x7F7FFFFF#32 4 Ring.zero []

theorem witness_UndefinedConversionsAreRefused :
    fastState.wire 0#4 = some 0x3F800000#32 ∧ fastState.wire 1#4 = some 0#32 ∧ fastState.draws = 0 ∧
      (fastState.params.topology.taps.toList.all fun q => truncI32 (fmul 0 fastState.sampleRate q.offsetS) == none) =
        true ∧
      floorI32 (fsub 2 (i2f ((running 10#6 0x7F7FFFFF#32).ring 4).cursor)
        (fmul 1 (fadd 0 ((running 10#6 0x7F7FFFFF#32).ring 4).delayS 0x7F7FFFFF#32)
          (running 10#6 0x7F7FFFFF#32).sampleRate)) = none := by decide +kernel

theorem witness_StagesAdvanceTheCounterByOne :
    isStage .end_ = true ∧ isStage (.clr 0#4) = true ∧ (∃ t, exec .end_ (running 34#6 0#32) = .next t) ∧
      ∃ t, exec (.clr 0#4) (running 33#6 0#32) = .next t :=
  ⟨rfl, rfl, exists_next (by decide +kernel), exists_next (by decide +kernel)⟩

theorem witness_StagesLeaveTheAllocatorAndTheRegistersAlone :
    isStage (.vap 0#4 0#4 0#4 1#4) = true ∧ ∃ t, exec (.vap 0#4 0#4 0#4 1#4) (running 10#6 0#32) = .next t :=
  ⟨rfl, exists_next (by decide +kernel)⟩

theorem witness_EachComponentIsWrittenByItsOwnStage :
    isStage (.lfo 1#4 2#4) = true ∧ ∃ t, exec (.lfo 1#4 2#4) (running 1#6 0#32) = .next t :=
  ⟨rfl, exists_next (by decide +kernel)⟩

theorem witness_OnlyTheNamedCommandsWriteTheRegisters :
    (∃ t, exec (.construct 0x447A0000#32) granting = .next t) ∧ ∃ t, exec .destroy built = .next t :=
  ⟨exists_next (by decide +kernel), exists_next (by decide +kernel)⟩

theorem witness_OnlyConstructAnswersAllocationFailed :
    ∃ t, exec (.construct 0x447A0000#32) (refusing 11) = .next t ∧ t.hostResponse ≠ (refusing 11).hostResponse ∧
      t.hostResponse = some (1#4 ++ 0x00000000#32 ++ 0x0000000B#32) := by
  have h : ∀ r : Result, (nextOf r).map (·.hostResponse) = some (some (1#4 ++ 0x00000000#32 ++ 0x0000000B#32)) →
      ∃ t, r = .next t ∧ t.hostResponse = some (1#4 ++ 0x00000000#32 ++ 0x0000000B#32) := by
    intro r hr
    cases r with
    | next t => exact ⟨t, rfl, Option.some.inj hr⟩
    | fault f => cases hr
    | refused f => cases hr
  obtain ⟨t, h1, h2⟩ := h (exec (.construct 0x447A0000#32) (refusing 11)) (by decide +kernel)
  exact ⟨t, h1, by rw [h2]; decide, h2⟩

theorem witness_BufferSizeInfluencesNothing :
    (∀ x, Instr.rdcsr 0#4 ≠ .setbs x) ∧ Instr.rdcsr 0#4 ≠ .rdcsr 1#4 ∧ (∃ t, exec (.rdcsr 0#4) built = .next t) ∧
      exec (.rdcsr 3#4) built = .refused (.reservedEncoding .reservedCsr) ∧
      faultOf (exec (.stf 2#4) (wired 0#32 0#32)) = some (.wireHoldsNoValue 0#6 2#4) :=
  ⟨fun _ h => Instr.noConfusion h, by decide, exists_next (by decide +kernel), refused_of (by decide +kernel),
    by decide +kernel⟩

theorem witness_NopSetbsAndRdcsrAnswer : State.reset.inProgress = false ∧ State.reset.overlapped = false := ⟨rfl, rfl⟩

theorem witness_ProcessLatchesAndStartsTheSchedule : built.inProgress = false ∧ built.ls = .ready := by decide +kernel

theorem witness_ProtocolViolationsAreRefused :
    (State.reset.inProgress = false ∧ State.reset.overlapped = false ∧ State.reset.ls = .empty) ∧
      (built.inProgress = false ∧ built.overlapped = false ∧ built.ls = .ready) ∧
      (running 0#6 0#32).inProgress = true ∧
      ({ built with hostQueue := [⟨0x000000000#36, false⟩] }).hostQueue = ⟨0x000000000#36, false⟩ :: [] := by
  decide +kernel

/-- The greatest admitted rate, 83886080.0: the largest product is exactly 2^24. -/
theorem witness_ConstructCompletesOrIsRefusedByItsRateAndDelays_admitted :
    State.reset.inProgress = false ∧ State.reset.overlapped = false ∧ State.reset.ls = .empty ∧ fmul 0 0x4CA00000#32 0x3E4CCCCD#32 = 0x4B800000#32 ∧
      ∃ q, valueOf 0x4CA00000#32 = some q ∧ 0 < q ∧
        ∀ r : RingId, ∃ n, valueOf (fmul 0 0x4CA00000#32 (State.reset.params.row r).maxDelayS) = some n ∧
          n ≤ 2 ^ State.reset.params.capMaxLog2 := by
  obtain ⟨⟨q, h1, h2⟩, h3⟩ := (admittedRate_iff State.reset.params 0x4CA00000#32).1 (by decide +kernel)
  exact ⟨rfl, rfl, rfl, by decide +kernel, q, h1, h2, h3⟩

/-- The next rate above it, and the rates 0, infinity and NaN. -/
theorem witness_ConstructCompletesOrIsRefusedByItsRateAndDelays_refused :
    [0x4CA00001#32, 0x00000000#32, 0x80000000#32, 0xC47A0000#32, 0x7F800000#32, 0x7FC00000#32].map
        (fun rate => refusalOf (exec (.construct rate) State.reset)) =
      List.replicate 6 (some .sampleRateNotAdmitted) := by decide +kernel

/-- Parameters with an infinite delay of E1: the rate is admitted, and the delay in samples undefined. -/
def undefinedDelay : Params :=
  { Config.defaults with
    topology := { Config.topology with rings := Config.topology.rings.set 0 ⟨0x3CA3D70A#32, 0x7F800000#32⟩ } }

/-- Granted, E1's conversion stops the command; refused first, it is AllocationFailed. -/
theorem witness_ConstructCompletesOrIsRefusedByItsRateAndDelays_undefined :
    undefinedDelay.admittedRate 0x447A0000#32 = true ∧
      truncI32 (fmul 0 0x447A0000#32 (undefinedDelay.row 0).delayS) = none ∧
      refusalOf (exec (.construct 0x447A0000#32) { granting with params := undefinedDelay }) =
        some .conversionUndefined ∧
      (nextOf (exec (.construct 0x447A0000#32) { refusing 0 with params := undefinedDelay })).isSome = true := by
  decide +kernel

theorem witness_ConstructBuildsTheUnit :
    granting.inProgress = false ∧ granting.overlapped = false ∧ granting.ls = .empty ∧ LegalParams granting.params ∧
      granting.params.admittedRate 0x447A0000#32 = true ∧
      (∀ r : RingId, ∃ ds, truncI32 (fmul 0 0x447A0000#32 (granting.params.row r).delayS) = some ds) ∧
      granting.allocQueue = bases.toList.map some ++ [] ∧
      LiveContract granting.params.addressSpace ((allRings.reverse.map fun r =>
        ⟨bases[r], capacityOf 0x447A0000#32 (granting.params.row r).maxDelayS⟩) ++ granting.live) :=
  ⟨rfl, rfl, rfl, defaults_legal, by decide +kernel, defaults_defined, rfl, by unfold LiveContract; decide +kernel⟩

theorem witness_ConstructFailsAtTheFirstRefusedRing (r : RingId) (hr : r = 0 ∨ r = 11) :
    (refusing r).inProgress = false ∧ (refusing r).overlapped = false ∧ (refusing r).ls = .empty ∧ LegalParams (refusing r).params ∧
      (refusing r).params.admittedRate 0x447A0000#32 = true ∧
      (refusing r).allocQueue = (bases.toList.take r.val).map some ++ none :: [] ∧
      (∀ q ∈ allRings.take r.val, ∃ ds, truncI32 (fmul 0 0x447A0000#32 ((refusing r).params.row q).delayS) = some ds) ∧
      LiveContract (refusing r).params.addressSpace (((allRings.take r.val).reverse.map fun q =>
        ⟨bases[q], capacityOf 0x447A0000#32 ((refusing r).params.row q).maxDelayS⟩) ++ (refusing r).live) := by
  have hrate : Config.defaults.admittedRate 0x447A0000#32 = true := by decide +kernel
  refine ⟨rfl, rfl, rfl, defaults_legal, hrate, rfl, fun q _ => defaults_defined q, ?_⟩
  unfold LiveContract
  rcases hr with rfl | rfl <;> decide +kernel

theorem witness_DestroyReleasesEveryRingOnce :
    built.inProgress = false ∧ built.overlapped = false ∧ built.ls = .ready ∧ built.live = built.ringRegions ∧
      LiveContract built.params.addressSpace built.live :=
  ⟨built_facts.2.2.2.2.2.2.2.2.1, by decide +kernel, built_facts.2.2.1, built_facts.2.2.2.2.2.2.1, built_contract⟩

/-- A region next to the held one is allowed, one that shares its last word is not. -/
theorem witness_AllocGrantsADisjointRegionOrNothing :
    let s : State := { State.reset with live := [⟨8#32, 4⟩], allocQueue := [some 12#32] }
    LiveContract s.params.addressSpace s.live ∧ s.allocQueue = some 12#32 :: [] ∧
      LiveContract s.params.addressSpace (⟨12#32, (16#32).toNat / 4⟩ :: s.live) ∧
      ¬ LiveContract s.params.addressSpace (⟨11#32, (16#32).toNat / 4⟩ :: s.live) := by
  unfold LiveContract; decide +kernel

theorem witness_FreeReturnsTheNamedRegion :
    let s : State := { State.reset with live := [⟨16#32, 4⟩, ⟨8#32, 4⟩] }
    LiveContract s.params.addressSpace s.live ∧ (⟨8#32, 4⟩ : Region) ∈ s.live ∧ ∀ g ∈ s.live, g.base ≠ 12#32 := by
  unfold LiveContract; decide +kernel

end Test
end Machine
end Sys2Proof
end

section
/-! PROOFS. The statements drawn from spec/00_scope.md: binary32 arithmetic (R9), the conversions (R10), the stages that
refuse an undefined one (R10, R196), and the parameters after reset (R5, R6, R7). -/

namespace Sys2Proof
namespace Machine

/-! ### The classes of patterns -/

/-- The class of a pattern whose sign bit is inverted. -/
def FloatClass.negated : FloatClass → FloatClass
  | .nan => .nan
  | .inf s => .inf !s
  | .finite s m e => .finite (!s) m e

theorem expField_fneg (x : Sample) : expField (fneg x) = expField x := by
  rw [expField, fneg, BitVec.extractLsb'_xor, show BitVec.extractLsb' 23 8 0x80000000#32 = 0#8 by decide,
    BitVec.xor_zero, expField]

theorem fracField_fneg (x : Sample) : fracField (fneg x) = fracField x := by
  rw [fracField, fneg, BitVec.extractLsb'_xor, show BitVec.extractLsb' 0 23 0x80000000#32 = 0#23 by decide,
    BitVec.xor_zero, fracField]

theorem msb_fneg (x : Sample) : (fneg x).msb = !x.msb := by
  rw [fneg, BitVec.msb_xor, show (0x80000000#32).msb = true by decide, Bool.xor_true]

theorem fneg_fneg (x : Sample) : fneg (fneg x) = x := by
  rw [fneg, fneg, BitVec.xor_assoc, BitVec.xor_self, BitVec.xor_zero]

theorem classify_fneg (x : Sample) : classify (fneg x) = (classify x).negated := by
  unfold classify
  rw [expField_fneg, fracField_fneg, msb_fneg]
  repeat' split
  all_goals rfl

/-- A finite pattern's significand has 24 bits, and its sign is the pattern's sign bit. -/
theorem classify_finite_bounds {x : Sample} {s : Bool} {m : Nat} {e : Int} (h : classify x = .finite s m e) :
    m < 2 ^ 24 ∧ s = x.msb := by
  have hf : fracField x < 2 ^ 23 := (x.extractLsb' 0 23).isLt
  unfold classify at h
  repeat' split at h
  · cases h
  · cases h
  · obtain ⟨rfl, rfl, -⟩ := FloatClass.finite.inj h
    exact ⟨by omega, rfl⟩
  · obtain ⟨rfl, rfl, -⟩ := FloatClass.finite.inj h
    exact ⟨by omega, rfl⟩

/-- The two patterns of magnitude zero are the zeros (R90). -/
theorem eq_zero_of_classify {x : Sample} {s : Bool} {e : Int} (h : classify x = .finite s 0 e) : x = packSign s 0 := by
  have hs := (classify_finite_bounds h).2
  have hx := x.isLt
  have hmag : x.toNat % 2 ^ 31 = 0 := by
    unfold classify at h
    rw [expField_eq, fracField_eq] at h
    repeat' split at h
    · cases h
    · cases h
    · have := (FloatClass.finite.inj h).2.1
      omega
    · have := (FloatClass.finite.inj h).2.1
      omega
  apply BitVec.eq_of_toNat_eq
  rw [toNat_packSign s (by norm_num), hs, msb_eq]
  by_cases hsign : 2 ^ 31 ≤ x.toNat
  · rw [decide_eq_true hsign, if_pos rfl]; omega
  · rw [decide_eq_false hsign, if_neg Bool.false_ne_true]; omega

theorem classify_infinity (s : Bool) : classify (infinity s) = .inf s := by
  cases s <;> decide

theorem exists_infinity_of_mem {a : Sample} (h : a ∈ infinities) : ∃ s, a = infinity s := by
  simp only [infinities, List.mem_cons, List.not_mem_nil, or_false] at h
  rcases h with rfl | rfl
  · exact ⟨false, by decide⟩
  · exact ⟨true, by decide⟩

/-! ### Signed magnitudes -/

theorem signed_not (s : Bool) (m : Nat) : signed (!s) m = -signed s m := by
  cases s <;> simp [signed]

theorem ratOf_not (s : Bool) (m : Nat) (e : Int) : ratOf (!s) m e = -ratOf s m e := by
  rw [ratOf, ratOf, signed_not, Int.cast_neg, neg_mul]

theorem valueOf_fneg (x : Sample) : valueOf (fneg x) = (valueOf x).map (- ·) := by
  rw [valueOf_classify, valueOf_classify, classify_fneg]
  cases classify x with
  | nan => rfl
  | inf s => rfl
  | finite s m e => simp [FloatClass.negated, ratOf_not]

theorem ratOf_eq_zero {s : Bool} {m : Nat} {e : Int} : ratOf s m e = 0 ↔ m = 0 := by
  have hp : (2 : ℚ) ^ e ≠ 0 := by positivity
  cases s
  · simp [ratOf_nonneg, hp]
  · simp [ratOf_neg, hp]

theorem ratOf_mul (s t : Bool) (m n : Nat) (e f : Int) :
    ratOf s m e * ratOf t n f = ratOf (s ^^ t) (m * n) (e + f) := by
  have h : signed (s ^^ t) (m * n) = signed s m * signed t n := by cases s <;> cases t <;> simp [signed]
  rw [ratOf, ratOf, ratOf, h, zpow_add₀ (by norm_num), Int.cast_mul]
  ring

/-- An integer is its sign and its magnitude. -/
theorem signed_natAbs (z : Int) : signed (z < 0) z.natAbs = z := by
  unfold signed
  split <;> rename_i h <;> simp only [decide_eq_true_eq] at h <;> omega

/-- A signed magnitude written with a smaller exponent. -/
theorem ratOf_rescale (s : Bool) (m : Nat) {e f : Int} (h : f ≤ e) :
    ratOf s m e = ((signed s m * 2 ^ (e - f).toNat : Int) : ℚ) * 2 ^ f := by
  have : (2 : ℚ) ^ e = 2 ^ (e - f).toNat * 2 ^ f := by
    rw [← zpow_natCast, Int.toNat_of_nonneg (by omega), ← zpow_add₀ (by norm_num), Int.sub_add_cancel]
  rw [ratOf, this]
  push_cast
  ring

/-! ### The operations on finite samples -/

/-- One rounding ends every operation: of a magnitude, zero included. -/
theorem isRounded_ratOf (s : Bool) (m : Nat) (e : Int) : IsRounded (ratOf s m e) (packSign s (roundMagnitude m e)) := by
  by_cases hm : m = 0
  · rw [ratOf_eq_zero.2 hm, hm]
    exact isRounded_zero s
  · exact isRounded_packSign s hm e

/-- The exact sum in units of the smaller of the two exponents. -/
def exactSum (sa : Bool) (ma : Nat) (ea : Int) (sb : Bool) (mb : Nat) (eb : Int) : Int :=
  signed sa ma * 2 ^ (ea - min ea eb).toNat + signed sb mb * 2 ^ (eb - min ea eb).toNat

theorem addFinite_eq (sa : Bool) (ma : Nat) (ea : Int) (sb : Bool) (mb : Nat) (eb : Int) :
    addFinite sa ma ea sb mb eb =
      if exactSum sa ma ea sb mb eb = 0 then packSign (sa && sb) 0
      else packSign (exactSum sa ma ea sb mb eb < 0)
        (roundMagnitude (exactSum sa ma ea sb mb eb).natAbs (min ea eb)) := rfl

theorem ratOf_add (sa : Bool) (ma : Nat) (ea : Int) (sb : Bool) (mb : Nat) (eb : Int) :
    ratOf sa ma ea + ratOf sb mb eb = (exactSum sa ma ea sb mb eb : ℚ) * 2 ^ min ea eb := by
  rw [ratOf_rescale sa ma (min_le_left ea eb), ratOf_rescale sb mb (min_le_right ea eb), ← add_mul, ← Int.cast_add,
    exactSum]

theorem exactSum_eq_zero {sa : Bool} {ma : Nat} {ea : Int} {sb : Bool} {mb : Nat} {eb : Int} :
    exactSum sa ma ea sb mb eb = 0 ↔ ratOf sa ma ea + ratOf sb mb eb = 0 := by
  have hp : (2 : ℚ) ^ min ea eb ≠ 0 := by positivity
  rw [ratOf_add, mul_eq_zero, or_iff_left hp, Int.cast_eq_zero]

theorem isRounded_addFinite (sa : Bool) (ma : Nat) (ea : Int) (sb : Bool) (mb : Nat) (eb : Int) :
    IsRounded (ratOf sa ma ea + ratOf sb mb eb) (addFinite sa ma ea sb mb eb) := by
  rw [addFinite_eq]
  split
  · rw [exactSum_eq_zero.1 ‹_›]
    exact isRounded_zero _
  · have hexact : ratOf sa ma ea + ratOf sb mb eb =
        ratOf (exactSum sa ma ea sb mb eb < 0) (exactSum sa ma ea sb mb eb).natAbs (min ea eb) := by
      rw [ratOf_add, ratOf, signed_natAbs]
    rw [hexact]
    exact isRounded_ratOf _ _ _

theorem fadd_finite {a b : Sample} {sa sb : Bool} {ma mb : Nat} {ea eb : Int} (n : Nat)
    (ha : classify a = .finite sa ma ea) (hb : classify b = .finite sb mb eb) :
    fadd n a b = addFinite sa ma ea sb mb eb := by rw [fadd, ha, hb]

theorem fmul_finite {a b : Sample} {sa sb : Bool} {ma mb : Nat} {ea eb : Int} (n : Nat)
    (ha : classify a = .finite sa ma ea) (hb : classify b = .finite sb mb eb) :
    fmul n a b = packSign (sa ^^ sb) (roundMagnitude (ma * mb) (ea + eb)) := by rw [fmul, ha, hb]

theorem isRounded_fadd (n : Nat) {a b : Sample} {x y : ℚ} (ha : valueOf a = some x) (hb : valueOf b = some y) :
    IsRounded (x + y) (fadd n a b) := by
  obtain ⟨sa, ma, ea, ca, rfl⟩ := classify_of_valueOf ha
  obtain ⟨sb, mb, eb, cb, rfl⟩ := classify_of_valueOf hb
  rw [fadd_finite n ca cb]
  exact isRounded_addFinite ..

theorem isRounded_fsub (n : Nat) {a b : Sample} {x y : ℚ} (ha : valueOf a = some x) (hb : valueOf b = some y) :
    IsRounded (x - y) (fsub n a b) := by
  rw [sub_eq_add_neg]
  exact isRounded_fadd n ha (by rw [valueOf_fneg, hb]; rfl)

theorem isRounded_fmul (n : Nat) {a b : Sample} {x y : ℚ} (ha : valueOf a = some x) (hb : valueOf b = some y) :
    IsRounded (x * y) (fmul n a b) := by
  obtain ⟨sa, ma, ea, ca, rfl⟩ := classify_of_valueOf ha
  obtain ⟨sb, mb, eb, cb, rfl⟩ := classify_of_valueOf hb
  rw [fmul_finite n ca cb, ratOf_mul]
  exact isRounded_ratOf ..

/-- Settles O21: every operation on finite samples rounds an exact integer multiple of a power of two once. -/
theorem sumsAndProductsAreCorrectlyRounded : Obligations.SumsAndProductsAreCorrectlyRounded :=
  fun n _ _ _ _ ha hb => ⟨isRounded_fadd n ha hb, isRounded_fsub n ha hb, isRounded_fmul n ha hb⟩

/-! ### Quotients -/

/-- What rounds to a given value is an interval: a competitor that loses at both ends loses in between, since it loses
on one side of the midpoint. -/
theorem notNearer_between {v w q₁ q q₂ : ℚ} {even : Prop} (hl : q₁ ≤ q) (hu : q ≤ q₂)
    (h₁ : |v - q₁| < |w - q₁| ∨ w = v ∨ (|v - q₁| = |w - q₁| ∧ even))
    (h₂ : |v - q₂| < |w - q₂| ∨ w = v ∨ (|v - q₂| = |w - q₂| ∧ even)) :
    |v - q| < |w - q| ∨ w = v ∨ (|v - q| = |w - q| ∧ even) := by
  have lt_iff : ∀ p, |v - p| < |w - p| ↔ (v - w) * (v + w - 2 * p) < 0 := fun p => by
    rw [← sq_lt_sq, ← sub_neg]; ring_nf
  have eq_iff : ∀ p, |v - p| = |w - p| ↔ (v - w) * (v + w - 2 * p) = 0 := fun p => by
    rw [← sq_eq_sq_iff_abs_eq_abs, ← sub_eq_zero]; ring_nf
  obtain ⟨p, hp, hqp⟩ : ∃ p, (|v - p| < |w - p| ∨ w = v ∨ (|v - p| = |w - p| ∧ even)) ∧
      (v - w) * (v + w - 2 * q) ≤ (v - w) * (v + w - 2 * p) := by
    rcases le_total w v with hwv | hwv
    · exact ⟨q₁, h₁, mul_le_mul_of_nonneg_left (by linarith) (by linarith)⟩
    · exact ⟨q₂, h₂, mul_le_mul_of_nonpos_left (by linarith) (by linarith)⟩
  rw [lt_iff, eq_iff] at hp ⊢
  rcases hp with hp | hwv | ⟨hp, heven⟩
  · exact Or.inl (hqp.trans_lt hp)
  · exact Or.inr (Or.inl hwv)
  · rcases (hqp.trans_eq hp).lt_or_eq with hlt | heq
    · exact Or.inl hlt
    · exact Or.inr (Or.inr ⟨heq, heven⟩)

theorem valueOf_infinity (s : Bool) : valueOf (infinity s) = none := by
  rw [valueOf_classify, classify_infinity]

/-- What rounds to a finite pattern lies below the overflow bound. -/
theorem isRounded_finite_iff {q v : ℚ} {r : Sample} (hr : valueOf r = some v) :
    IsRounded q r ↔ |q| < 2 ^ 128 - 2 ^ 103 ∧
      ∀ c w, valueOf c = some w → |v - q| < |w - q| ∨ w = v ∨ (|v - q| = |w - q| ∧ r.toNat % 2 = 0) := by
  unfold IsRounded
  split
  · simp only [Option.some.injEq, exists_eq_left', true_and, *]
  · have hinf : r ≠ if q < 0 then 0xFF800000#32 else 0x7F800000#32 := by
      intro h
      split at h
      · exact absurd (hr.symm.trans (h ▸ valueOf_infinity true)) (Option.some_ne_none v)
      · exact absurd (hr.symm.trans (h ▸ valueOf_infinity false)) (Option.some_ne_none v)
    simp only [false_and, *]

/-- A pattern with no finite value is a rounding only at or beyond the overflow bound, as an infinity. -/
theorem isRounded_overflow_iff {q : ℚ} {r : Sample} (hr : valueOf r = none) :
    IsRounded q r ↔ 2 ^ 128 - 2 ^ 103 ≤ |q| ∧ r = if q < 0 then 0xFF800000#32 else 0x7F800000#32 := by
  unfold IsRounded
  split
  · simp only [hr, reduceCtorEq, false_and, exists_false, not_le.2 ‹_›]
  · simp only [not_lt.1 ‹_›, true_and]

/-- What rounds to one pattern is an interval. -/
theorem isRounded_between {q₁ q q₂ : ℚ} {r : Sample} (hl : q₁ ≤ q) (hu : q ≤ q₂) (h₁ : IsRounded q₁ r)
    (h₂ : IsRounded q₂ r) : IsRounded q r := by
  cases hr : valueOf r with
  | some v =>
    rw [isRounded_finite_iff hr] at *
    obtain ⟨hb₁, hn₁⟩ := h₁
    obtain ⟨hb₂, hn₂⟩ := h₂
    rw [abs_lt] at *
    exact ⟨⟨by linarith, by linarith⟩, fun c w hw => notNearer_between hl hu (hn₁ c w hw) (hn₂ c w hw)⟩
  | none =>
    rw [isRounded_overflow_iff hr] at *
    obtain ⟨hb₁, hr₁⟩ := h₁
    obtain ⟨hb₂, hr₂⟩ := h₂
    rw [le_abs'] at *
    have hB : (0 : ℚ) < 2 ^ 128 - 2 ^ 103 := by norm_num
    by_cases hneg : q₂ < 0
    · rw [if_pos hneg] at hr₂
      rw [if_pos (hu.trans_lt hneg)]
      exact ⟨Or.inl (by rcases hb₂ with h | h <;> linarith), hr₂⟩
    · have hpos : ¬ q₁ < 0 := fun h => by
        rw [if_pos h, hr₂, if_neg hneg] at hr₁
        exact absurd hr₁ (by decide)
      rw [if_neg hpos] at hr₁
      rw [if_neg (by linarith)]
      exact ⟨Or.inr (by rcases hb₁ with h | h <;> linarith), hr₁⟩

/-- Below the rounding place only whether digits remain counts, not which they are. -/
theorem roundShift_sticky {a d j k : Nat} (hd : 0 < d) (hj : d < 2 ^ j) :
    roundShift (a * 2 ^ j + d) (k + 1 + j) =
      if 2 ^ k ≤ a % 2 ^ (k + 1) then a / 2 ^ (k + 1) + 1 else a / 2 ^ (k + 1) := by
  have hp : 0 < 2 ^ j := by positivity
  have hquot : (a * 2 ^ j + d) / 2 ^ j = a := by
    rw [mul_comm, Nat.mul_add_div hp, Nat.div_eq_of_lt hj, add_zero]
  have hrem : (a * 2 ^ j + d) % 2 ^ j = d := by
    rw [mul_comm, Nat.mul_add_mod, Nat.mod_eq_of_lt hj]
  unfold roundShift
  rw [pow_add, mul_comm (2 ^ (k + 1)), Nat.mod_mul, ← Nat.div_div_eq_div_mul, hquot, hrem, pow_succ 2 k]
  have hlow : ∀ l : Nat, (2 ^ j * (2 ^ k * 2) < 2 * (d + 2 ^ j * l) ∨
      (2 * (d + 2 ^ j * l) = 2 ^ j * (2 ^ k * 2) ∧ a / (2 ^ k * 2) % 2 = 1)) ↔ 2 ^ k ≤ l := by
    intro l
    constructor
    · intro h
      by_contra hl
      have : 2 ^ j * (l + 1) ≤ 2 ^ j * 2 ^ k := Nat.mul_le_mul_left _ (by omega)
      rw [← mul_assoc] at h
      rw [mul_add] at this
      omega
    · intro h
      have : 2 ^ j * 2 ^ k ≤ 2 ^ j * l := Nat.mul_le_mul_left _ h
      left
      rw [← mul_assoc]
      omega
  simp only [hlow]

theorem log2_sticky {a d j : Nat} (ha : a ≠ 0) (hj : d < 2 ^ j) : Nat.log2 (a * 2 ^ j + d) = Nat.log2 a + j := by
  rw [Nat.log2_eq_iff (by positivity)]
  have h1 := Nat.log2_self_le ha
  have h2 : a + 1 ≤ 2 ^ (Nat.log2 a + 1) := Nat.lt_log2_self
  have h3 := Nat.mul_le_mul_right (2 ^ j) h1
  have h4 := Nat.mul_le_mul_right (2 ^ j) h2
  rw [← pow_add] at h3 h4
  rw [show Nat.log2 a + j + 1 = Nat.log2 a + 1 + j by omega]
  rw [add_mul] at h4
  omega

/-- With 25 digits `a` above it, every nonempty tail `d` of `j` digits rounds alike. -/
theorem roundMagnitude_sticky {a d j : Nat} (f : Int) (ha : 2 ^ 24 ≤ a) (hd : 0 < d) (hj : d < 2 ^ j) :
    roundMagnitude (a * 2 ^ j + d) (f - j) = roundMagnitude (a * 2 ^ 1 + 1) (f - 1) := by
  have hlog : 24 ≤ Nat.log2 a := (Nat.le_log2 (by omega)).2 ha
  obtain ⟨k, hk⟩ : ∃ k : Nat, lastPlace a f = f + k + 1 :=
    ⟨(lastPlace a f - f - 1).toNat, by unfold lastPlace; omega⟩
  have tail : ∀ {d j : Nat}, 0 < d → d < 2 ^ j → roundMagnitude (a * 2 ^ j + d) (f - j) =
      min ((lastPlace a f + 149).toNat * 2 ^ 23 +
        if 2 ^ k ≤ a % 2 ^ (k + 1) then a / 2 ^ (k + 1) + 1 else a / 2 ^ (k + 1)) 0x7F800000 := by
    intro d j hd hj
    have hplace : lastPlace (a * 2 ^ j + d) (f - j) = lastPlace a f := by
      unfold lastPlace
      rw [log2_sticky (by omega) hj]
      omega
    rw [roundMagnitude, if_neg (by omega), hplace, significand, if_neg (by omega),
      show (lastPlace a f - (f - j)).toNat = k + 1 + j by omega, roundShift_sticky hd hj]
  exact (tail hd hj).trans (tail one_pos one_lt_two).symm

/-- A magnitude between two that round alike rounds as they do. -/
theorem isRounded_of_bracket (neg : Bool) {m₁ m₂ mag : Nat} {e : Int} {x : ℚ} (h₁ : roundMagnitude m₁ e = mag)
    (h₂ : roundMagnitude m₂ e = mag) (hl : (m₁ : ℚ) * 2 ^ e ≤ x) (hu : x ≤ (m₂ : ℚ) * 2 ^ e) :
    IsRounded (if neg then -x else x) (packSign neg mag) := by
  have hr₁ := isRounded_ratOf neg m₁ e
  have hr₂ := isRounded_ratOf neg m₂ e
  rw [h₁] at hr₁
  rw [h₂] at hr₂
  cases neg with
  | false =>
    rw [ratOf_nonneg] at hr₁ hr₂
    exact isRounded_between hl hu hr₁ hr₂
  | true =>
    rw [ratOf_neg] at hr₁ hr₂
    exact isRounded_between (neg_le_neg hu) (neg_le_neg hl) hr₂ hr₁

/-- A fraction that is no integer keeps `2^-b` away from the integers around it. -/
theorem fraction_bracket {n b : Nat} (hb : b ≠ 0) (hrem : n % b ≠ 0) :
    (n / b * 2 ^ b + 1) * b ≤ n * 2 ^ b ∧ n * 2 ^ b ≤ (n / b * 2 ^ b + (2 ^ b - 1)) * b := by
  have hn := Nat.div_add_mod n b
  have hlt := Nat.mod_lt n (Nat.pos_of_ne_zero hb)
  have hpow : b < 2 ^ b := Nat.lt_two_pow_self
  generalize n / b = a at *
  generalize n % b = r at *
  generalize 2 ^ b = p at *
  obtain ⟨p, rfl⟩ : ∃ p', p = p' + 1 := ⟨p - 1, by omega⟩
  rw [← hn, Nat.add_sub_cancel]
  constructor
  · nlinarith [Nat.pos_of_ne_zero hrem]
  · nlinarith

/-- The 64 extra bits and the sticky bit of `quotient` are enough for one correct rounding. -/
theorem isRounded_quotient (neg : Bool) {ma mb : Nat} (hma : ma ≠ 0) (hmb : mb ≠ 0) (hlt : mb < 2 ^ 24) (e : Int) :
    IsRounded (if neg then -((ma : ℚ) / mb * 2 ^ e) else (ma : ℚ) / mb * 2 ^ e)
      (packSign neg (roundMagnitude (quotient ma mb) (e - 65))) := by
  have hmb' : (0 : ℚ) < mb := by exact_mod_cast Nat.pos_of_ne_zero hmb
  have hscale : ∀ j : Nat, (ma : ℚ) / mb * 2 ^ e = ((ma * 2 ^ 64 * 2 ^ j : Nat) : ℚ) / mb * 2 ^ (e - 64 - j) := by
    intro j
    have : (2 : ℚ) ^ e = 2 ^ 64 * 2 ^ j * 2 ^ (e - 64 - j) := by
      rw [← zpow_natCast, ← zpow_natCast, ← zpow_add₀ (by norm_num), ← zpow_add₀ (by norm_num)]
      congr 1
      push_cast
      ring
    rw [this]
    push_cast
    ring
  by_cases hrem : ma * 2 ^ 64 % mb = 0
  · have hdiv : ((ma * 2 ^ 64 * 2 ^ 1 : Nat) : ℚ) / mb = (quotient ma mb : Nat) := by
      rw [div_eq_iff hmb'.ne', quotient, if_pos hrem]
      norm_cast
      rw [add_zero, mul_assoc 2, Nat.div_mul_cancel (Nat.dvd_of_mod_eq_zero hrem), pow_one, mul_comm 2]
    have hexact : (ma : ℚ) / mb * 2 ^ e = (quotient ma mb : ℚ) * 2 ^ (e - 65) := by
      rw [hscale 1, hdiv, Nat.cast_one, sub_sub]; norm_num
    exact isRounded_of_bracket neg rfl rfl hexact.ge hexact.le
  · have ha : 2 ^ 24 ≤ ma * 2 ^ 64 / mb := by
      rw [Nat.le_div_iff_mul_le (by omega)]
      nlinarith [Nat.pos_of_ne_zero hma]
    have hpow : mb < 2 ^ mb := Nat.lt_two_pow_self
    have hmag : ∀ d, 0 < d → d < 2 ^ mb → roundMagnitude (ma * 2 ^ 64 / mb * 2 ^ mb + d) (e - 64 - mb) =
        roundMagnitude (quotient ma mb) (e - 65) := by
      intro d hd hj
      rw [roundMagnitude_sticky _ ha hd hj, quotient, if_neg hrem, pow_one, mul_comm 2, sub_sub]
      norm_num
    obtain ⟨hlo, hhi⟩ := fraction_bracket hmb hrem
    rw [hscale mb]
    refine isRounded_of_bracket neg (hmag _ one_pos (by omega)) (hmag (2 ^ mb - 1) (by omega) (by omega)) ?_ ?_
    · gcongr
      rw [le_div_iff₀ hmb']
      exact_mod_cast hlo
    · gcongr
      rw [div_le_iff₀ hmb']
      exact_mod_cast hhi

theorem fdiv_finite {a b : Sample} {sa sb : Bool} {ma mb : Nat} {ea eb : Int} (n : Nat)
    (ha : classify a = .finite sa ma ea) (hb : classify b = .finite sb mb eb) (hmb : mb ≠ 0) :
    fdiv n a b = packSign (sa ^^ sb) (roundMagnitude (quotient ma mb) (ea - eb - 65)) := by
  rw [fdiv, ha, hb]
  exact if_neg hmb

theorem ratOf_div (s t : Bool) (m n : Nat) (e f : Int) :
    ratOf s m e / ratOf t n f =
      if (s ^^ t) then -((m : ℚ) / n * 2 ^ (e - f)) else (m : ℚ) / n * 2 ^ (e - f) := by
  rw [zpow_sub₀ (by norm_num), div_mul_div_comm]
  cases s <;> cases t <;> simp [ratOf_nonneg, ratOf_neg, neg_div, div_neg]

theorem isRounded_fdiv (n : Nat) {a b : Sample} {x y : ℚ} (ha : valueOf a = some x) (hb : valueOf b = some y)
    (hy : y ≠ 0) : IsRounded (x / y) (fdiv n a b) := by
  obtain ⟨sa, ma, ea, ca, rfl⟩ := classify_of_valueOf ha
  obtain ⟨sb, mb, eb, cb, rfl⟩ := classify_of_valueOf hb
  have hmb : mb ≠ 0 := fun h => hy (ratOf_eq_zero.2 h)
  rw [fdiv_finite n ca cb hmb]
  by_cases hma : ma = 0
  · have hzero : quotient ma mb = 0 := by simp [quotient, hma]
    rw [ratOf_eq_zero.2 hma, zero_div, hzero]
    exact isRounded_zero _
  · rw [ratOf_div]
    exact isRounded_quotient _ hma hmb (classify_finite_bounds cb).1 _

/-- Settles O22: the quotient lies between two finer ones that round as its 64 extra bits and sticky bit do, and what
rounds to one pattern is an interval. -/
theorem quotientsAreCorrectlyRounded : Obligations.QuotientsAreCorrectlyRounded :=
  fun n _ _ _ _ ha hb hy => isRounded_fdiv n ha hb hy

/-! ### Special values -/

theorem fadd_nan {a b : Sample} (n : Nat) (h : classify a = .nan ∨ classify b = .nan) : fadd n a b = quietNaN n := by
  unfold fadd
  rcases h with h | h
  · rw [h]
  · cases ha : classify a <;> rw [h]

theorem fsub_nan {a b : Sample} (n : Nat) (h : classify a = .nan ∨ classify b = .nan) : fsub n a b = quietNaN n :=
  fadd_nan n (h.imp_right fun hb => by rw [classify_fneg, hb, FloatClass.negated])

theorem fmul_nan {a b : Sample} (n : Nat) (h : classify a = .nan ∨ classify b = .nan) : fmul n a b = quietNaN n := by
  unfold fmul
  rcases h with h | h
  · rw [h]
  · cases ha : classify a <;> rw [h]

theorem fdiv_nan {a b : Sample} (n : Nat) (h : classify a = .nan ∨ classify b = .nan) : fdiv n a b = quietNaN n := by
  unfold fdiv
  rcases h with h | h
  · rw [h]
  · cases ha : classify a <;> rw [h]

theorem fneg_infinity (s : Bool) : fneg (infinity s) = infinity (!s) := by cases s <;> decide

theorem fadd_infinity_finite {b : Sample} {t : Bool} {m : Nat} {e : Int} (n : Nat) (s : Bool)
    (hb : classify b = .finite t m e) : fadd n (infinity s) b = infinity s := by
  rw [fadd, classify_infinity, hb]

theorem fadd_finite_infinity {a : Sample} {t : Bool} {m : Nat} {e : Int} (n : Nat) (s : Bool)
    (ha : classify a = .finite t m e) : fadd n a (infinity s) = infinity s := by
  rw [fadd, classify_infinity, ha]

theorem fadd_infinities (n : Nat) (s t : Bool) :
    fadd n (infinity s) (infinity t) = if s = t then infinity s else quietNaN n := by
  rw [fadd, classify_infinity, classify_infinity]

theorem fmul_infinities (n : Nat) (s t : Bool) : fmul n (infinity s) (infinity t) = infinity (s ^^ t) := by
  rw [fmul, classify_infinity, classify_infinity]

theorem fmul_infinity_finite {b : Sample} {t : Bool} {m : Nat} {e : Int} (n : Nat) (s : Bool)
    (hb : classify b = .finite t m e) :
    fmul n (infinity s) b = if m = 0 then quietNaN n else infinity (s ^^ t) := by
  rw [fmul, classify_infinity, hb]

theorem fmul_finite_infinity {a : Sample} {t : Bool} {m : Nat} {e : Int} (n : Nat) (s : Bool)
    (ha : classify a = .finite t m e) :
    fmul n a (infinity s) = if m = 0 then quietNaN n else infinity (t ^^ s) := by
  rw [fmul, classify_infinity, ha]

theorem isQuietNaN_of_nan_operand (n : Nat) {a b : Sample} (h : isNaN a = true ∨ isNaN b = true) :
    isQuietNaN (fadd n a b) = true ∧ isQuietNaN (fsub n a b) = true ∧ isQuietNaN (fmul n a b) = true ∧
      isQuietNaN (fdiv n a b) = true := by
  have hc : classify a = .nan ∨ classify b = .nan := h.imp classify_nan classify_nan
  rw [fadd_nan n hc, fsub_nan n hc, fmul_nan n hc, fdiv_nan n hc]
  simp only [isQuietNaN_quietNaN, and_self]

theorem infinity_plus_finite (n : Nat) {a b : Sample} {x : ℚ} (ha : a ∈ infinities) (hb : valueOf b = some x) :
    fadd n a b = a ∧ fadd n b a = a ∧ fsub n a b = a ∧ fsub n b a = a ^^^ 0x80000000#32 := by
  obtain ⟨s, rfl⟩ := exists_infinity_of_mem ha
  obtain ⟨t, m, e, hc, -⟩ := classify_of_valueOf hb
  have hneg : classify (fneg b) = .finite (!t) m e := by rw [classify_fneg, hc, FloatClass.negated]
  refine ⟨fadd_infinity_finite n s hc, fadd_finite_infinity n s hc, fadd_infinity_finite n s hneg, ?_⟩
  rw [fsub, fneg_infinity, fadd_finite_infinity n _ hc, ← fneg_infinity, fneg]

theorem infinity_plus_infinity (n : Nat) {a : Sample} (ha : a ∈ infinities) :
    fadd n a a = a ∧ fsub n a (a ^^^ 0x80000000#32) = a ∧ isQuietNaN (fsub n a a) = true ∧
      isQuietNaN (fadd n a (a ^^^ 0x80000000#32)) = true := by
  obtain ⟨s, rfl⟩ := exists_infinity_of_mem ha
  have hsame : fadd n (infinity s) (infinity s) = infinity s := by rw [fadd_infinities, if_pos rfl]
  have hopposite : isQuietNaN (fadd n (infinity s) (fneg (infinity s))) = true := by
    rw [fneg_infinity, fadd_infinities, if_neg (Bool.self_ne_not s), isQuietNaN_quietNaN]
  refine ⟨hsame, ?_, hopposite, hopposite⟩
  rw [← fneg, fsub, fneg_fneg, hsame]

theorem classify_zero (s : Bool) : classify (packSign s 0) = .finite s 0 (-149) := by
  cases s <;> decide

theorem infinity_times_zero (n : Nat) {a b : Sample} (ha : a ∈ infinities)
    (hb : b = 0x00000000#32 ∨ b = 0x80000000#32) :
    isQuietNaN (fmul n a b) = true ∧ isQuietNaN (fmul n b a) = true := by
  obtain ⟨s, rfl⟩ := exists_infinity_of_mem ha
  obtain ⟨t, rfl⟩ : ∃ t, b = packSign t 0 := hb.elim (fun h => ⟨false, h⟩) (fun h => ⟨true, h⟩)
  rw [fmul_infinity_finite n s (classify_zero t), fmul_finite_infinity n s (classify_zero t), if_pos rfl, if_pos rfl]
  exact ⟨isQuietNaN_quietNaN n, isQuietNaN_quietNaN n⟩

theorem msb_infinity (s : Bool) : (infinity s).msb = s := by cases s <;> decide

/-- The infinity of the exclusive-or of two signs, as the statement of R9 writes it. -/
theorem infinity_xor (s t : Bool) : infinity (s ^^ t) = if s = t then 0x7F800000#32 else 0xFF800000#32 := by
  cases s <;> cases t <;> decide

theorem infinity_times_nonzero (n : Nat) {a b : Sample} (ha : a ∈ infinities)
    (hb : b ∈ infinities ∨ ∃ x, valueOf b = some x ∧ x ≠ 0) :
    fmul n a b = (if a.msb = b.msb then 0x7F800000#32 else 0xFF800000#32) ∧
      fmul n b a = if a.msb = b.msb then 0x7F800000#32 else 0xFF800000#32 := by
  obtain ⟨s, rfl⟩ := exists_infinity_of_mem ha
  rw [← infinity_xor, msb_infinity]
  rcases hb with hb | ⟨x, hb, hx⟩
  · obtain ⟨t, rfl⟩ := exists_infinity_of_mem hb
    rw [fmul_infinities, fmul_infinities, msb_infinity, Bool.xor_comm t]
    exact ⟨rfl, rfl⟩
  · obtain ⟨t, m, e, hc, rfl⟩ := classify_of_valueOf hb
    have hm : m ≠ 0 := fun h => hx (ratOf_eq_zero.2 h)
    rw [fmul_infinity_finite n s hc, fmul_finite_infinity n s hc, if_neg hm, if_neg hm,
      (classify_finite_bounds hc).2, Bool.xor_comm b.msb]
    exact ⟨rfl, rfl⟩

/-- Both signs negative and a zero sum leave only the negative zeros. -/
theorem eq_zero_of_negative_sum {a b : Sample} {ma mb : Nat} {ea eb : Int} (ha : classify a = .finite true ma ea)
    (hb : classify b = .finite true mb eb) (hsum : ratOf true ma ea + ratOf true mb eb = 0) :
    a = 0x80000000#32 ∧ b = 0x80000000#32 := by
  have hxa : (0 : ℚ) ≤ ma * 2 ^ ea := by positivity
  have hxb : (0 : ℚ) ≤ mb * 2 ^ eb := by positivity
  rw [ratOf_neg, ratOf_neg] at hsum
  obtain rfl : ma = 0 := (ratOf_eq_zero (s := true) (e := ea)).1 (by rw [ratOf_neg]; linarith)
  obtain rfl : mb = 0 := (ratOf_eq_zero (s := true) (e := eb)).1 (by rw [ratOf_neg]; linarith)
  exact ⟨eq_zero_of_classify ha, eq_zero_of_classify hb⟩

theorem fadd_exact_zero (n : Nat) {a b : Sample} {x y : ℚ} (ha : valueOf a = some x) (hb : valueOf b = some y)
    (hsum : x + y = 0) :
    fadd n a b = if a = 0x80000000#32 ∧ b = 0x80000000#32 then 0x80000000#32 else 0x00000000#32 := by
  obtain ⟨sa, ma, ea, ca, rfl⟩ := classify_of_valueOf ha
  obtain ⟨sb, mb, eb, cb, rfl⟩ := classify_of_valueOf hb
  rw [fadd_finite n ca cb, addFinite_eq, if_pos (exactSum_eq_zero.2 hsum)]
  split
  · rename_i hzero
    obtain ⟨rfl, rfl⟩ := hzero
    rw [(classify_finite_bounds ca).2, (classify_finite_bounds cb).2]
    decide
  · rename_i hzero
    have hsign : (sa && sb) = false := by
      rw [Bool.and_eq_false_iff]
      by_contra hboth
      simp only [not_or, Bool.not_eq_false] at hboth
      obtain ⟨rfl, rfl⟩ := hboth
      exact hzero (eq_zero_of_negative_sum ca cb hsum)
    rw [hsign]
    rfl

theorem fsub_exact_zero (n : Nat) {a b : Sample} {x y : ℚ} (ha : valueOf a = some x) (hb : valueOf b = some y)
    (hdiff : x - y = 0) :
    fsub n a b = if a = 0x80000000#32 ∧ b = 0x00000000#32 then 0x80000000#32 else 0x00000000#32 := by
  have hb' : valueOf (fneg b) = some (-y) := by rw [valueOf_fneg, hb]; rfl
  have hzero : fneg b = 0x80000000#32 ↔ b = 0x00000000#32 :=
    ⟨fun h => by rw [← fneg_fneg b, h]; rfl, fun h => by rw [h]; rfl⟩
  rw [fsub, fadd_exact_zero n ha hb' (by rw [← sub_eq_add_neg, hdiff])]
  simp only [hzero]

theorem msb_packSign_roundMagnitude (s : Bool) (m : Nat) (e : Int) : (packSign s (roundMagnitude m e)).msb = s := by
  have hmag : roundMagnitude m e ≤ 0x7F800000 := by
    unfold roundMagnitude
    split
    · omega
    · exact min_le_right _ _
  rw [msb_eq, toNat_packSign s (by omega)]
  cases s
  · exact decide_eq_false (by simp; omega)
  · exact decide_eq_true (by simp)

theorem msb_fmul (n : Nat) {a b : Sample} {x y : ℚ} (ha : valueOf a = some x) (hb : valueOf b = some y) :
    (fmul n a b).msb = (a.msb ^^ b.msb) := by
  obtain ⟨sa, ma, ea, ca, -⟩ := classify_of_valueOf ha
  obtain ⟨sb, mb, eb, cb, -⟩ := classify_of_valueOf hb
  rw [fmul_finite n ca cb, msb_packSign_roundMagnitude, (classify_finite_bounds ca).2, (classify_finite_bounds cb).2]

/-- Settles O23: each clause by the classes of its operands. -/
theorem specialValuesOfSumsAndProducts : Obligations.SpecialValuesOfSumsAndProducts :=
  ⟨fun n _ _ => isQuietNaN_of_nan_operand n, fun n _ _ _ => infinity_plus_finite n, fun n _ => infinity_plus_infinity n,
    fun n _ _ => infinity_times_zero n, fun n _ _ => infinity_times_nonzero n,
    fun n _ _ _ _ ha hb => ⟨fadd_exact_zero n ha hb, fsub_exact_zero n ha hb, msb_fmul n ha hb⟩⟩

/-! ### Conversions -/

theorem isRounded_i2f (i : BitVec 32) : IsRounded (i.toInt : ℚ) (i2f i) := by
  have hsign : i.msb = decide (i.toInt < 0) := by rw [BitVec.msb_eq_toInt]
  have hval : (i.toInt : ℚ) = ratOf i.msb i.toInt.natAbs 0 := by
    rw [hsign, ratOf, signed_natAbs, zpow_zero, mul_one]
  rw [hval]
  exact isRounded_ratOf ..

theorem wholePart_eq_floor (m : Nat) (e : Int) : wholePart m e = ⌊(m : ℚ) * 2 ^ e⌋₊ := by
  unfold wholePart
  split
  · rename_i he
    obtain ⟨k, rfl⟩ := Int.eq_ofNat_of_zero_le he
    rw [Int.toNat_natCast, zpow_natCast]
    exact_mod_cast (Nat.floor_natCast (R := ℚ) (m * 2 ^ k)).symm
  · rename_i he
    obtain ⟨k, rfl⟩ : ∃ k : Nat, e = -k := ⟨(-e).toNat, by omega⟩
    rw [neg_neg, Int.toNat_natCast, zpow_neg, zpow_natCast, ← div_eq_mul_inv]
    exact_mod_cast (Nat.floor_div_eq_div (K := ℚ) m (2 ^ k)).symm

theorem ceilPart_eq_ceil (m : Nat) (e : Int) : ceilPart m e = ⌈(m : ℚ) * 2 ^ e⌉₊ :=
  eq_of_forall_ge_iff fun b => by rw [ceilPart_le_iff, Nat.ceil_le]

theorem abs_ratOf (s : Bool) (m : Nat) (e : Int) : |ratOf s m e| = (m : ℚ) * 2 ^ e := by
  have hp : (0 : ℚ) ≤ m * 2 ^ e := by positivity
  cases s
  · rw [ratOf_nonneg, abs_of_nonneg hp]
  · rw [ratOf_neg, abs_neg, abs_of_nonneg hp]

/-- The test of both conversions is the domain of R10. -/
theorem wholePart_lt_iff (s : Bool) (m : Nat) (e : Int) : wholePart m e < 2 ^ 31 ↔ |ratOf s m e| < 2 ^ 31 := by
  rw [wholePart_eq_floor, abs_ratOf, Nat.floor_lt (by positivity)]
  norm_num

/-- The signed whole part is the value with its fraction discarded. -/
theorem signed_wholePart (s : Bool) (m : Nat) (e : Int) :
    |((signed s (wholePart m e) : Int) : ℚ)| ≤ |ratOf s m e| ∧
      |ratOf s m e| < |((signed s (wholePart m e) : Int) : ℚ)| + 1 ∧
      0 ≤ ((signed s (wholePart m e) : Int) : ℚ) * ratOf s m e := by
  have hp : (0 : ℚ) ≤ m * 2 ^ e := by positivity
  have habs : |((signed s (wholePart m e) : Int) : ℚ)| = wholePart m e := by
    cases s <;> simp [signed]
  have hsign : ((signed s (wholePart m e) : Int) : ℚ) * ratOf s m e = wholePart m e * (m * 2 ^ e) := by
    cases s
    · rw [ratOf_nonneg, signed]; simp
    · rw [ratOf_neg, signed]; simp
  rw [habs, hsign, abs_ratOf, wholePart_eq_floor]
  exact ⟨Nat.floor_le hp, Nat.lt_floor_add_one _, by positivity⟩

/-- Down for a positive magnitude is up for a negative one. -/
theorem signed_floorPart (s : Bool) (m : Nat) (e : Int) :
    signed s (if s then ceilPart m e else wholePart m e) = ⌊ratOf s m e⌋ := by
  have hp : (0 : ℚ) ≤ m * 2 ^ e := by positivity
  cases s
  · rw [ratOf_nonneg, ← Int.natCast_floor_eq_floor hp, ← wholePart_eq_floor]
    rfl
  · rw [ratOf_neg, Int.floor_neg, ← Int.natCast_ceil_eq_ceil hp, ← ceilPart_eq_ceil]
    rfl

theorem toInt_ofInt_of_bounds {z : Int} (hl : -2 ^ 31 ≤ z) (hu : z < 2 ^ 31) : (BitVec.ofInt 32 z).toInt = z := by
  rw [BitVec.toInt_ofInt]
  exact Int.bmod_eq_of_le (by omega) (by omega)

theorem truncI32_finite {x : Sample} {s : Bool} {m : Nat} {e : Int} (h : classify x = .finite s m e) :
    truncI32 x = if wholePart m e < 2 ^ 31 then some (BitVec.ofInt 32 (signed s (wholePart m e))) else none := by
  rw [truncI32, h]

theorem floorI32_finite {x : Sample} {s : Bool} {m : Nat} {e : Int} (h : classify x = .finite s m e) :
    floorI32 x = if wholePart m e < 2 ^ 31 then some (BitVec.ofInt 32 ⌊ratOf s m e⌋) else none := by
  rw [floorI32, h, ← signed_floorPart]

/-- Outside the domain of R10 both conversions give nothing. -/
theorem conversions_undefined {x : Sample} (h : ∀ q, valueOf x = some q → 2 ^ 31 ≤ |q|) :
    truncI32 x = none ∧ floorI32 x = none := by
  cases hc : classify x with
  | nan => rw [truncI32, floorI32, hc]; exact ⟨rfl, rfl⟩
  | inf s => rw [truncI32, floorI32, hc]; exact ⟨rfl, rfl⟩
  | finite s m e =>
    have hlarge : ¬ wholePart m e < 2 ^ 31 := by
      rw [wholePart_lt_iff s]
      exact not_lt.2 (h _ (valueOf_finite hc))
    rw [truncI32_finite hc, floorI32_finite hc, if_neg hlarge, if_neg hlarge]
    exact ⟨rfl, rfl⟩

theorem truncI32_discards_fraction {x : Sample} {q : ℚ} (hx : valueOf x = some q) (hq : |q| < 2 ^ 31) :
    ∃ i, truncI32 x = some i ∧ |(i.toInt : ℚ)| ≤ |q| ∧ |q| < |(i.toInt : ℚ)| + 1 ∧ 0 ≤ (i.toInt : ℚ) * q := by
  obtain ⟨s, m, e, hc, rfl⟩ := classify_of_valueOf hx
  have hsmall := (wholePart_lt_iff s m e).2 hq
  refine ⟨_, by rw [truncI32_finite hc, if_pos hsmall], ?_⟩
  rw [toInt_ofInt_of_bounds (by unfold signed; split <;> omega) (by unfold signed; split <;> omega)]
  exact signed_wholePart s m e

theorem floorI32_is_floor {x : Sample} {q : ℚ} (hx : valueOf x = some q) (hq : |q| < 2 ^ 31) :
    ∃ i, floorI32 x = some i ∧ i.toInt = ⌊q⌋ := by
  obtain ⟨s, m, e, hc, rfl⟩ := classify_of_valueOf hx
  have hsmall := (wholePart_lt_iff s m e).2 hq
  refine ⟨_, by rw [floorI32_finite hc, if_pos hsmall], ?_⟩
  obtain ⟨hl, hu⟩ := abs_lt.1 hq
  exact toInt_ofInt_of_bounds (Int.le_floor.2 (by push_cast; exact hl.le)) (Int.floor_lt.2 (by push_cast; exact hu))

/-- Settles O24: the whole part is the natural floor of the magnitude, and the int32 range is the domain of R10. -/
theorem conversionsFollowTheirDefinition : Obligations.ConversionsFollowTheirDefinition :=
  ⟨isRounded_i2f, fun _ _ hx hq => ⟨truncI32_discards_fraction hx hq, floorI32_is_floor hx hq⟩,
    fun _ => conversions_undefined⟩

/-! ### Where a conversion stops a stage -/

/-- `VAP` is refused where the floor of its read position is undefined (R196). -/
theorem execVap_undefined {s : State} {unit rd ra rb : Nibble} {r : RingId} {k x offset : Sample}
    (hu : s.params.vapOperand unit = some (r, k)) (ha : s.wire ra = some x) (hb : s.wire rb = some offset)
    (hpos : floorI32 (readPosition s.draws (s.ring r) offset s.sampleRate) = none) :
    execVap unit rd ra rb s = .refused .conversionUndefined := by
  simp only [execVap, hu, State.withWire_some ha, State.withWire_some hb, hpos]

/-- `TAP` is refused where its sample count is undefined (R178). -/
theorem execTap_undefined {s : State} {unit rd ki : Nibble} {r : RingId} {t : TapRow} {acc : Sample}
    (hu : dlyOperand unit = some r) (ht : s.params.tapOperand ki = some t) (hd : s.wire rd = some acc)
    (hts : tapSamples s.draws s.sampleRate t.offsetS = none) :
    execTap unit rd ki s = .refused .conversionUndefined := by
  simp only [execTap, hu, ht, State.withWire_some hd, hts]

/-- Settles O41: the operand tables select the ring, the wires hold values, and the conversion gives nothing. -/
theorem undefinedConversionsAreRefused : Obligations.UndefinedConversionsAreRefused :=
  fun s _ _ _ _ _ ha hb =>
    ⟨fun p hp hpos => execVap_undefined (vapOperand_of_mem s.params p hp) ha hb hpos,
      fun _ hp ki hts => execTap_undefined (dlyOperand_of_mem hp) (tapOperand_index s.params ki) ha hts⟩

/-! ### The parameters -/

/-- Settles O57: `State.reset` carries `Config.defaults`, read off table by table. -/
theorem defaultParametersAreTheTables : Obligations.DefaultParametersAreTheTables :=
  ⟨rfl, rfl, rfl, rfl, rfl, rfl, rfl, rfl, rfl, rfl, rfl, rfl, rfl⟩

end Machine
end Sys2Proof
end

section
/-! PROOFS. The statements drawn from spec/10_state.md: the invariant after reset and after every step (R22, R36, R37),
the fault of an empty wire (R37), and which instruction writes which element (R23 to R32). -/

namespace Sys2Proof

/-- The wires an instruction reads (R101); a `TAP` reads its accumulator. -/
def Instr.reads : Instr → List Nibble
  | .mulc _ ra _ | .addf _ ra | .dcb _ _ ra | .hsh _ _ ra | .dly _ _ ra | .ap _ _ ra | .stf ra => [ra]
  | .vap _ _ ra rb | .out ra rb => [ra, rb]
  | .tap _ rd _ => [rd]
  | .end_ | .lfo _ _ | .in_ _ | .clr _ | .nop | .construct _ | .process _ | .destroy | .setbs _ | .rdcsr _ | .alloc _
  | .free _ => []

/-- The wires a stage writes (R101). -/
def Instr.writes : Instr → List Nibble
  | .lfo rd rb => [rd, rb]
  | .mulc rd _ _ | .addf rd _ | .dcb _ rd _ | .hsh _ rd _ | .dly _ rd _ | .ap _ rd _ | .vap _ rd _ _ | .tap _ rd _
  | .in_ rd | .clr rd => [rd]
  | .end_ | .stf _ | .out _ _ | .nop | .construct _ | .process _ | .destroy | .setbs _ | .rdcsr _ | .alloc _
  | .free _ => []

namespace Machine

/-! ### What a completed instruction did -/

theorem execMulc_next {rd ra ki : Nibble} {s t : State} (h : execMulc rd ra ki s = .next t) :
    ∃ c x, s.params.constOperand ki = some c ∧ s.wire ra = some x ∧
      t = ((s.setWire rd (fmul s.draws x c)).drawn 1).advance := by
  unfold execMulc at h
  split at h
  · obtain ⟨x, hx, h⟩ := State.withWire_next h
    exact ⟨_, x, ‹_›, hx, (Host.Outcome.next.inj h).symm⟩
  · cases h

theorem execAddf_next {rd ra : Nibble} {s t : State} (h : execAddf rd ra s = .next t) :
    ∃ x, s.wire ra = some x ∧ t = ((s.setWire rd (fadd s.draws x s.fb)).drawn 1).advance := by
  obtain ⟨x, hx, h⟩ := State.withWire_next h
  exact ⟨x, hx, (Host.Outcome.next.inj h).symm⟩

theorem execStf_next {ra : Nibble} {s t : State} (h : execStf ra s = .next t) :
    ∃ x, s.wire ra = some x ∧ t = { s with fb := x }.advance := by
  obtain ⟨x, hx, h⟩ := State.withWire_next h
  exact ⟨x, hx, (Host.Outcome.next.inj h).symm⟩

theorem execOut_next {ra rb : Nibble} {s t : State} (h : execOut ra rb s = .next t) :
    ∃ l r, s.wire ra = some l ∧ s.wire rb = some r ∧ t = { s with outL := l, outR := r }.advance := by
  obtain ⟨l, hl, h⟩ := State.withWire_next h
  obtain ⟨r, hr, h⟩ := State.withWire_next h
  exact ⟨l, r, hl, hr, (Host.Outcome.next.inj h).symm⟩

theorem execDcb_next {unit rd ra : Nibble} {s t : State} (h : execDcb unit rd ra s = .next t) :
    ∃ x, unit = 0#4 ∧ s.wire ra = some x ∧
      t = (({ s with dcb := ⟨x, dcbOutput s.draws s.params.dcbK x s.dcb⟩ }.setWire rd
        (dcbOutput s.draws s.params.dcbK x s.dcb)).drawn 3).advance := by
  unfold execDcb at h
  split at h
  · obtain ⟨x, hx, h⟩ := State.withWire_next h
    exact ⟨x, ‹_›, hx, (Host.Outcome.next.inj h).symm⟩
  · cases h

theorem execHsh_next {unit rd ra : Nibble} {s t : State} (h : execHsh unit rd ra s = .next t) :
    ∃ u x, hshOperand unit = some u ∧ s.wire ra = some x ∧
      t = (({ s with hsh := s.hsh.set u x }.setWire rd
        (hshOutput s.draws s.params.hshK x s.hsh[u])).drawn 4).advance := by
  unfold execHsh at h
  split at h
  · obtain ⟨x, hx, h⟩ := State.withWire_next h
    exact ⟨_, x, ‹_›, hx, (Host.Outcome.next.inj h).symm⟩
  · cases h

theorem execDly_next {unit rd ra : Nibble} {s t : State} (h : execDly unit rd ra s = .next t) :
    ∃ r x, dlyOperand unit = some r ∧ s.wire ra = some x ∧
      t = ((s.ringWriteAdvance r x).setWire rd (s.ringRead r (s.ring r).delayIndex)).advance := by
  unfold execDly at h
  split at h
  · obtain ⟨x, hx, h⟩ := State.withWire_next h
    exact ⟨_, x, ‹_›, hx, (Host.Outcome.next.inj h).symm⟩
  · cases h

theorem execTap_next {unit rd ki : Nibble} {s t : State} (h : execTap unit rd ki s = .next t) :
    ∃ r tap acc ts, dlyOperand unit = some r ∧ s.params.tapOperand ki = some tap ∧ s.wire rd = some acc ∧
      tapSamples s.draws s.sampleRate tap.offsetS = some ts ∧
      t = ((s.setWire rd (tapOutput (s.draws + 1) acc tap.gain (s.ringRead r ((s.ring r).tapIndex ts)))).drawn
        3).advance := by
  unfold execTap at h
  split at h
  · obtain ⟨acc, hacc, h⟩ := State.withWire_next h
    split at h
    · exact ⟨_, _, acc, _, ‹_›, ‹_›, hacc, ‹_›, (Host.Outcome.next.inj h).symm⟩
    · cases h
  · cases h

theorem execAp_next {unit rd ra : Nibble} {s t : State} (h : execAp unit rd ra s = .next t) :
    ∃ r k x, s.params.apOperand unit = some (r, k) ∧ s.wire ra = some x ∧
      t = ((s.allpass s.draws r k x (s.ringRead r (s.ring r).delayIndex) rd).drawn 4).advance := by
  unfold execAp at h
  split at h
  · obtain ⟨x, hx, h⟩ := State.withWire_next h
    exact ⟨_, _, x, ‹_›, hx, (Host.Outcome.next.inj h).symm⟩
  · cases h

theorem execVap_next {unit rd ra rb : Nibble} {s t : State} (h : execVap unit rd ra rb s = .next t) :
    ∃ r k x offset i, s.params.vapOperand unit = some (r, k) ∧ s.wire ra = some x ∧ s.wire rb = some offset ∧
      floorI32 (readPosition s.draws (s.ring r) offset s.sampleRate) = some i ∧
      t = ((s.allpass (s.draws + 7) r k x (s.interpolate (s.draws + 3) r
        (readPosition s.draws (s.ring r) offset s.sampleRate) i) rd).drawn 11).advance := by
  unfold execVap at h
  split at h
  · obtain ⟨x, hx, h⟩ := State.withWire_next h
    obtain ⟨offset, ho, h⟩ := State.withWire_next h
    dsimp only at h
    split at h
    · exact ⟨_, _, x, offset, _, ‹_›, hx, ho, ‹_›, (Host.Outcome.next.inj h).symm⟩
    · cases h
  · cases h

theorem execNop_next {s t : State} (h : execNop s = .next t) :
    s.inProgress = false ∧ t = s.respond 0#4 0#32 0#32 := by
  obtain ⟨hidle, -, h⟩ := State.whenAlone_next h
  exact ⟨hidle, (Host.Outcome.next.inj h).symm⟩

theorem execSetbs_next {v : BitVec 32} {s t : State} (h : execSetbs v s = .next t) :
    s.inProgress = false ∧ t = { s with bufferSize := v }.respond 0#4 0#32 0#32 := by
  obtain ⟨hidle, -, h⟩ := State.whenAlone_next h
  exact ⟨hidle, (Host.Outcome.next.inj h).symm⟩

theorem execRdcsr_next {n : Nibble} {s t : State} (h : execRdcsr n s = .next t) :
    s.inProgress = false ∧ ∃ v, s.csr n = some v ∧ t = s.respond 0#4 0#32 v := by
  obtain ⟨hidle, -, h⟩ := State.whenAlone_next h
  split at h
  · exact ⟨hidle, _, ‹_›, (Host.Outcome.next.inj h).symm⟩
  · cases h

theorem execProcess_next {x : Sample} {s t : State} (h : execProcess x s = .next t) :
    s.inProgress = false ∧ s.ls = .ready ∧
      t = { s with inLatch := x, wires := noWires, spc := 0#6, inProgress := true, hostResponse := none } := by
  obtain ⟨hidle, h⟩ := State.whenIdle_next h
  obtain ⟨hls, h⟩ := State.whenLifecycle_next h
  exact ⟨hidle, hls, (Host.Outcome.next.inj h).symm⟩

theorem execDestroy_next {s t : State} (h : execDestroy s = .next t) :
    s.inProgress = false ∧ s.ls = .ready ∧ t = (s.releaseRings allRings.reverse).destroyed := by
  obtain ⟨hidle, -, h⟩ := State.whenAlone_next h
  obtain ⟨hls, h⟩ := State.whenLifecycle_next h
  exact ⟨hidle, hls, (Host.Outcome.next.inj h).symm⟩

/-- CONSTRUCT ends in one of two ways: every ring granted, or AllocationFailed at a refused one. -/
theorem execConstruct_next {rate : Sample} {s t : State} (h : execConstruct rate s = .next t) :
    s.inProgress = false ∧ s.ls = .empty ∧ s.params.admittedRate rate = true ∧
      ((∃ u, grantRings allRings [] { s with sampleRate := rate } = .built u ∧ t = u.constructed) ∨
        ∃ r u, grantRings allRings [] { s with sampleRate := rate } = .refusedAt r u ∧
          t = u.raiseAllocationFailed r) := by
  obtain ⟨hidle, -, h⟩ := State.whenAlone_next h
  obtain ⟨hls, h⟩ := State.whenLifecycle_next h
  split at h
  · refine ⟨hidle, hls, ‹_›, ?_⟩
    split at h
    · exact .inl ⟨_, ‹_›, (Host.Outcome.next.inj h).symm⟩
    · exact .inr ⟨_, _, ‹_›, (Host.Outcome.next.inj h).symm⟩
    · cases h
  · cases h

/-! ### The frame of every instruction -/

/-- `s` with the elements that an instruction may change taken from `t`. -/
def frame (i : Instr) (s t : State) : State :=
  match i with
  | .mulc _ _ _ | .addf _ _ | .tap _ _ _ | .in_ _ | .clr _ =>
    { s with wires := t.wires, spc := t.spc, draws := t.draws }
  | .lfo _ _ => { s with lfo := t.lfo, wires := t.wires, spc := t.spc, draws := t.draws }
  | .dcb _ _ _ => { s with dcb := t.dcb, wires := t.wires, spc := t.spc, draws := t.draws }
  | .hsh _ _ _ => { s with hsh := t.hsh, wires := t.wires, spc := t.spc, draws := t.draws }
  | .dly _ _ _ | .ap _ _ _ | .vap _ _ _ _ =>
    { s with wires := t.wires, spc := t.spc, draws := t.draws, rings := t.rings, dm := t.dm }
  | .stf _ => { s with fb := t.fb, spc := t.spc }
  | .out _ _ => { s with outL := t.outL, outR := t.outR, spc := t.spc }
  | .end_ => { s with spc := t.spc, inProgress := t.inProgress, hostResponse := t.hostResponse }
  | .nop | .rdcsr _ => { s with hostResponse := t.hostResponse }
  | .setbs _ => { s with bufferSize := t.bufferSize, hostResponse := t.hostResponse }
  | .process _ =>
    { s with inLatch := t.inLatch, wires := t.wires, spc := t.spc, inProgress := t.inProgress,
             hostResponse := t.hostResponse }
  | .construct _ =>
    { s with ls := t.ls, af := t.af, afring := t.afring, sampleRate := t.sampleRate, rings := t.rings, dm := t.dm,
             live := t.live, allocTraffic := t.allocTraffic, allocQueue := t.allocQueue, lfo := t.lfo, dcb := t.dcb,
             hsh := t.hsh, fb := t.fb, wires := t.wires, spc := t.spc, inLatch := t.inLatch, outL := t.outL,
             outR := t.outR, hostResponse := t.hostResponse, draws := t.draws }
  | .destroy =>
    { s with ls := t.ls, live := t.live, allocTraffic := t.allocTraffic, allocQueue := t.allocQueue, lfo := t.lfo,
             dcb := t.dcb, hsh := t.hsh, rings := t.rings, fb := t.fb, spc := t.spc, inLatch := t.inLatch,
             outL := t.outL, outR := t.outR, hostResponse := t.hostResponse, draws := t.draws }
  | .alloc _ | .free _ =>
    { s with live := t.live, allocTraffic := t.allocTraffic, allocQueue := t.allocQueue, draws := t.draws }

theorem execConstruct_frame {rate : Sample} {s t : State} (h : execConstruct rate s = .next t) :
    frame (.construct rate) s t = t := by
  obtain ⟨-, -, -, ⟨u, hu, rfl⟩ | ⟨r, u, hu, rfl⟩⟩ := execConstruct_next h
  all_goals
    rw [← grantRings_frame allRings [] (t := u) (congrArg Granting.state? hu)]
    rfl

theorem execDestroy_frame {s t : State} (h : execDestroy s = .next t) : frame .destroy s t = t := by
  obtain ⟨-, -, rfl⟩ := execDestroy_next h
  rw [← State.releaseRings_frame]
  rfl

/-- An instruction that completes changes the elements of its frame only. -/
theorem exec_frame {i : Instr} {s t : State} (h : exec i s = .next t) : frame i s t = t := by
  cases i with
  | mulc => obtain ⟨_, _, -, -, rfl⟩ := execMulc_next h; rfl
  | addf => obtain ⟨_, -, rfl⟩ := execAddf_next h; rfl
  | dcb => obtain ⟨_, -, -, rfl⟩ := execDcb_next h; rfl
  | hsh => obtain ⟨_, _, -, -, rfl⟩ := execHsh_next h; rfl
  | dly => obtain ⟨_, _, -, -, rfl⟩ := execDly_next h; rfl
  | ap => obtain ⟨_, _, _, -, -, rfl⟩ := execAp_next h; rfl
  | vap => obtain ⟨_, _, _, _, _, -, -, -, -, rfl⟩ := execVap_next h; rfl
  | tap => obtain ⟨_, _, _, _, -, -, -, -, rfl⟩ := execTap_next h; rfl
  | stf => obtain ⟨_, -, rfl⟩ := execStf_next h; rfl
  | out => obtain ⟨_, _, -, -, rfl⟩ := execOut_next h; rfl
  | nop => obtain ⟨-, rfl⟩ := execNop_next h; rfl
  | setbs => obtain ⟨-, rfl⟩ := execSetbs_next h; rfl
  | rdcsr => obtain ⟨-, _, -, rfl⟩ := execRdcsr_next h; rfl
  | process => obtain ⟨-, -, rfl⟩ := execProcess_next h; rfl
  | construct => exact execConstruct_frame h
  | destroy => exact execDestroy_frame h
  | end_ | lfo | in_ | clr | alloc | free => cases h; rfl

/-- Settles O44: each stage's frame names its own components. -/
theorem eachComponentIsWrittenByItsOwnStage : Obligations.EachComponentIsWrittenByItsOwnStage := by
  intro i s t hi h
  rw [← exec_frame h]
  cases i <;> simp [frame, isStage] at hi ⊢

/-- Settles O45: the registers stand in the frames of the named commands only. -/
theorem onlyTheNamedCommandsWriteTheRegisters : Obligations.OnlyTheNamedCommandsWriteTheRegisters := by
  intro i s t h
  rw [← exec_frame h]
  cases i <;> simp [frame]

/-! ### Another value in BUFFER_SIZE -/

/-- The state with `v` in `BUFFER_SIZE`. -/
def State.buffered (v : BitVec 32) (s : State) : State := { s with bufferSize := v }

/-- The outcome with `v` in `BUFFER_SIZE` of its next state; a stop is the same. -/
def Result.buffered (v : BitVec 32) : Result → Result
  | .next t => .next (t.buffered v)
  | .fault f => .fault f
  | .refused r => .refused r

/-- The end of CONSTRUCT's loop with `v` in `BUFFER_SIZE`. -/
def Granting.buffered (v : BitVec 32) : Granting → Granting
  | .built t => .built (t.buffered v)
  | .refusedAt r t => .refusedAt r (t.buffered v)
  | .undefined => .undefined

section
variable {s : State} {v : BitVec 32}

theorem buffered_params : (s.buffered v).params = s.params := rfl
theorem buffered_wire (i : Nibble) : (s.buffered v).wire i = s.wire i := rfl
theorem buffered_ring (r : RingId) : (s.buffered v).ring r = s.ring r := rfl
theorem buffered_sampleRate : (s.buffered v).sampleRate = s.sampleRate := rfl
theorem buffered_draws : (s.buffered v).draws = s.draws := rfl
theorem buffered_ls : (s.buffered v).ls = s.ls := rfl
theorem buffered_inProgress : (s.buffered v).inProgress = s.inProgress := rfl
theorem buffered_overlapped : (s.buffered v).overlapped = s.overlapped := rfl
theorem buffered_ringBytes (r : RingId) : (s.buffered v).ringBytes r = s.ringBytes r := rfl
theorem buffered_allocAnswer (size : BitVec 32) : (s.buffered v).allocAnswer size = s.allocAnswer size := rfl

theorem allocate_buffered (size : BitVec 32) : (s.buffered v).allocate size = (s.allocate size).buffered v := rfl

theorem installRing_buffered (r : RingId) (base ds : BitVec 32) :
    (s.buffered v).installRing r base ds = (s.installRing r base ds).buffered v := rfl

theorem withWire_buffered {i : Nibble} {next next' : Sample → Result} (h : ∀ x, next' x = (next x).buffered v) :
    (s.buffered v).withWire i next' = (s.withWire i next).buffered v := by
  rw [State.withWire, State.withWire, buffered_wire]
  split
  · exact h _
  · rfl

theorem whenIdle_buffered {next next' : Result} (h : next' = next.buffered v) :
    (s.buffered v).whenIdle next' = (s.whenIdle next).buffered v := by
  rw [State.whenIdle, State.whenIdle, buffered_inProgress]
  split
  · rfl
  · exact h

theorem whenAlone_buffered {next next' : Result} (h : next' = next.buffered v) :
    (s.buffered v).whenAlone next' = (s.whenAlone next).buffered v := by
  refine whenIdle_buffered ?_
  rw [buffered_overlapped]
  split
  · rfl
  · exact h

theorem whenLifecycle_buffered {ls : Lifecycle} {next next' : Result} (h : next' = next.buffered v) :
    (s.buffered v).whenLifecycle ls next' = (s.whenLifecycle ls next).buffered v := by
  rw [State.whenLifecycle, State.whenLifecycle, buffered_ls]
  split
  · exact h
  · rfl

theorem releaseRings_buffered (rs : List RingId) :
    (s.buffered v).releaseRings rs = (s.releaseRings rs).buffered v := by
  induction rs generalizing s with
  | nil => rfl
  | cons r rs ih => exact ih (s := s.release (s.ring r).base)

theorem grantRings_buffered (rs done : List RingId) :
    grantRings rs done (s.buffered v) = (grantRings rs done s).buffered v := by
  induction rs generalizing done s with
  | nil => rfl
  | cons r rs ih =>
    rw [grantRings, grantRings, buffered_ringBytes, buffered_allocAnswer, allocate_buffered]
    split
    · rw [releaseRings_buffered]
      rfl
    · rw [buffered_params, buffered_sampleRate]
      split
      · rw [installRing_buffered, ih]
      · rfl

theorem execVap_buffered (unit rd ra rb : Nibble) :
    execVap unit rd ra rb (s.buffered v) = (execVap unit rd ra rb s).buffered v := by
  rw [execVap, execVap, buffered_params]
  split
  · refine withWire_buffered fun x => withWire_buffered fun offset => ?_
    dsimp only
    rw [buffered_ring, buffered_sampleRate, buffered_draws]
    split
    · rfl
    · rfl
  · rfl

theorem execTap_buffered (unit rd ki : Nibble) :
    execTap unit rd ki (s.buffered v) = (execTap unit rd ki s).buffered v := by
  rw [execTap, execTap, buffered_params]
  split
  · refine withWire_buffered fun acc => ?_
    rw [buffered_sampleRate, buffered_draws]
    split
    · rfl
    · rfl
  · rfl

theorem execConstruct_buffered (rate : Sample) :
    execConstruct rate (s.buffered v) = (execConstruct rate s).buffered v := by
  refine whenAlone_buffered (whenLifecycle_buffered ?_)
  have hloop := grantRings_buffered (s := { s with sampleRate := rate }) (v := v) allRings []
  rw [buffered_params]
  split
  · unfold State.buffered at hloop ⊢
    rw [hloop]
    cases grantRings allRings [] { s with sampleRate := rate } <;> rfl
  · rfl

theorem csr_buffered {n : Nibble} (hn : n ≠ 1#4) : (s.buffered v).csr n = s.csr n := by
  have : n.toNat ≠ 1 := fun h => hn (BitVec.eq_of_toNat_eq h)
  unfold State.csr
  split
  · rfl
  · contradiction
  · rfl
  · rfl

theorem execRdcsr_buffered {n : Nibble} (hn : n ≠ 1#4) : execRdcsr n (s.buffered v) = (execRdcsr n s).buffered v := by
  refine whenAlone_buffered ?_
  rw [csr_buffered hn]
  cases s.csr n <;> rfl

/-- An instruction that neither writes nor reads `BUFFER_SIZE` commutes with a change of it. -/
theorem exec_buffered {i : Instr} (hset : ∀ x, i ≠ .setbs x) (hread : i ≠ .rdcsr 1#4) :
    exec i (s.buffered v) = Result.buffered v (exec i s) := by
  cases i with
  | mulc | dcb | hsh | dly | ap =>
    simp only [exec, execMulc, execDcb, execHsh, execDly, execAp, buffered_params]
    split
    · exact withWire_buffered fun _ => rfl
    · rfl
  | vap unit rd ra rb => exact execVap_buffered unit rd ra rb
  | tap unit rd ki => exact execTap_buffered unit rd ki
  | addf | stf => exact withWire_buffered fun _ => rfl
  | out ra rb => exact withWire_buffered fun _ => withWire_buffered fun _ => rfl
  | nop => exact whenAlone_buffered rfl
  | process x => exact whenIdle_buffered (whenLifecycle_buffered rfl)
  | construct rate => exact execConstruct_buffered rate
  | destroy =>
    refine whenAlone_buffered (whenLifecycle_buffered ?_)
    rw [releaseRings_buffered]
    rfl
  | setbs x => exact absurd rfl (hset x)
  | rdcsr n => exact execRdcsr_buffered fun h => hread (congrArg Instr.rdcsr h)
  | end_ | lfo | in_ | clr | alloc | free => rfl

end

/-- Settles O47: each instruction commutes with a change of `BUFFER_SIZE`. -/
theorem bufferSizeInfluencesNothing : Obligations.BufferSizeInfluencesNothing := by
  intro i s v hset hread
  have hexec : exec i { s with bufferSize := v } = Result.buffered v (exec i s) := exec_buffered hset hread
  refine ⟨fun t h => ?_, fun f h => ?_, fun r h => ?_⟩ <;> rw [hexec, h] <;> rfl

/-! ### Reading an empty wire -/

section
variable {s : State} {rd ra rb unit : Nibble} {r : RingId} {k : Sample}

theorem execMulc_empty (h : s.wire ra = none) (ki : Fin 4) :
    execMulc rd ra (BitVec.ofNat 4 ki.val) s = .fault (.wireHoldsNoValue s.spc ra) := by
  rw [execMulc, constOperand_index]
  exact State.withWire_none h _

theorem execHsh_empty (h : s.wire ra = none) (u : Fin 2) :
    execHsh (BitVec.ofNat 4 u.val) rd ra s = .fault (.wireHoldsNoValue s.spc ra) := by
  rw [execHsh, show hshOperand (BitVec.ofNat 4 u.val) = some u by revert u; decide]
  exact State.withWire_none h _

theorem execDly_empty (h : s.wire ra = none) (hu : dlyOperand unit = some r) :
    execDly unit rd ra s = .fault (.wireHoldsNoValue s.spc ra) := by
  rw [execDly, hu]
  exact State.withWire_none h _

theorem execAp_empty (h : s.wire ra = none) (hu : s.params.apOperand unit = some (r, k)) :
    execAp unit rd ra s = .fault (.wireHoldsNoValue s.spc ra) := by
  rw [execAp, hu]
  exact State.withWire_none h _

theorem execVap_empty (h : s.wire ra = none) (hu : s.params.vapOperand unit = some (r, k)) :
    execVap unit rd ra rb s = .fault (.wireHoldsNoValue s.spc ra) := by
  rw [execVap, hu]
  exact State.withWire_none h _

theorem execVap_empty_offset {x : Sample} (ha : s.wire ra = some x) (hb : s.wire rb = none)
    (hu : s.params.vapOperand unit = some (r, k)) :
    execVap unit rd ra rb s = .fault (.wireHoldsNoValue s.spc rb) := by
  rw [execVap, hu]
  exact (State.withWire_some ha _).trans (State.withWire_none hb _)

theorem execTap_empty (h : s.wire rd = none) (hu : dlyOperand unit = some r) (ki : Fin 8) :
    execTap unit rd (BitVec.ofNat 4 ki.val) s = .fault (.wireHoldsNoValue s.spc rd) := by
  rw [execTap, hu, tapOperand_index]
  exact State.withWire_none h _

end

/-- Settles O40: each stage reads its wire before anything else, once its unit is found in the operand tables. -/
theorem readingAnEmptyWireFaults : Obligations.ReadingAnEmptyWireFaults :=
  fun s _ _ _ h =>
    ⟨State.withWire_none h _, State.withWire_none h _, State.withWire_none h _, execMulc_empty h,
      State.withWire_none h _, execHsh_empty h, fun _ hp => execDly_empty h (dlyOperand_of_mem hp),
      fun p hp => execAp_empty h (apOperand_of_mem s.params p hp),
      fun p hp => execVap_empty h (vapOperand_of_mem s.params p hp),
      fun _ hp => execTap_empty h (dlyOperand_of_mem hp),
      fun _ _ hx => ⟨(State.withWire_some hx _).trans (State.withWire_none h _),
        fun p hp => execVap_empty_offset hx h (vapOperand_of_mem s.params p hp)⟩⟩

/-! ### The invariant after reset -/

/-- Settles O2: no wire is read before slot 0, no region is held, and nothing is in progress. -/
theorem resetMeetsTheInvariant : Obligations.ResetMeetsTheInvariant where
  memory := wf_reset
  rom := rfl
  params := ⟨le_rfl, le_rfl⟩
  slot := by decide
  idle := fun _ => rfl
  running := nofun
  noRequest := rfl
  noFailure := fun _ => rfl
  failedRing := by decide
  constructed := nofun
  emptyHoldsNothing := fun _ => rfl
  readyHoldsRings := nofun
  contract := ⟨nofun, .nil⟩
  rate := nofun
  rings := nofun
  wires := nofun

/-! ### The schedule -/

/-- The instruction of a slot, as the decoder reads it from the ROM (R106). -/
def scheduledInstr (k : Fin 35) : Instr :=
  match decode (.stage Config.scheduleRom[k]) with
  | .ok i => i
  | .error _ => .end_

theorem decode_scheduleRom : ∀ k : Fin 35, decode (.stage Config.scheduleRom[k]) = .ok (scheduledInstr k) := by decide

theorem isStage_scheduledInstr : ∀ k : Fin 35, isStage (scheduledInstr k) = true := by decide

theorem scheduledInstr_eq_end : ∀ k : Fin 35, scheduledInstr k = .end_ ↔ k = 34 := by decide

/-- The wires the schedule has written before slot `k`, as `WiresWritten` lists them (R37). -/
def writtenBefore (k : Nat) (w : Nibble) : Prop :=
  (w = 0#4 ∧ 1 ≤ k) ∨ (w = 1#4 ∧ 2 ≤ k) ∨ (w = 2#4 ∧ 2 ≤ k) ∨ (w = 3#4 ∧ 24 ≤ k) ∨ (w = 4#4 ∧ 29 ≤ k)

theorem wiresWritten_iff (s : State) : WiresWritten s ↔ ∀ w, writtenBefore s.spc.toNat w → s.hasWire w := by
  constructor
  · rintro ⟨h0, h1, h2, h3, h4⟩ w (⟨rfl, h⟩ | ⟨rfl, h⟩ | ⟨rfl, h⟩ | ⟨rfl, h⟩ | ⟨rfl, h⟩)
    exacts [h0 h, h1 h, h2 h, h3 h, h4 h]
  · intro h
    exact ⟨fun hk => h _ (.inl ⟨rfl, hk⟩), fun hk => h _ (.inr (.inl ⟨rfl, hk⟩)),
      fun hk => h _ (.inr (.inr (.inl ⟨rfl, hk⟩))), fun hk => h _ (.inr (.inr (.inr (.inl ⟨rfl, hk⟩)))),
      fun hk => h _ (.inr (.inr (.inr (.inr ⟨rfl, hk⟩))))⟩

/-- A slot reads only wires the slots before it wrote (R37). -/
theorem scheduledInstr_reads (k : Fin 35) {w : Nibble} (hw : w ∈ (scheduledInstr k).reads) : writtenBefore k w := by
  have : ∀ k : Fin 35, ∀ w ∈ (scheduledInstr k).reads, writtenBefore k w := by
    unfold writtenBefore; decide
  exact this k w hw

/-- What is written before the next slot was written before, or is written by this slot. -/
theorem writtenBefore_succ (k : Fin 35) {w : Nibble} (hw : writtenBefore (k + 1) w) :
    writtenBefore k w ∨ w ∈ (scheduledInstr k).writes := by
  have : ∀ k : Fin 35, ∀ w, writtenBefore (k + 1) w → writtenBefore k w ∨ w ∈ (scheduledInstr k).writes := by
    unfold writtenBefore; decide
  exact this k w hw

/-! ### Where a fault can come from -/

section
variable {s : State} {f : Fault} {next : Result}

theorem withWire_ne_fault {w : Nibble} {next : Sample → Result} (h : s.hasWire w) (hn : ∀ x, next x ≠ .fault f) :
    s.withWire w next ≠ .fault f := by
  obtain ⟨x, hx⟩ := Option.isSome_iff_exists.1 h
  rw [State.withWire_some hx]
  exact hn x

theorem whenIdle_ne_fault (hn : next ≠ .fault f) : s.whenIdle next ≠ .fault f := by
  unfold State.whenIdle
  split
  · nofun
  · exact hn

theorem whenAlone_ne_fault (hn : next ≠ .fault f) : s.whenAlone next ≠ .fault f := by
  refine whenIdle_ne_fault ?_
  split
  · nofun
  · exact hn

theorem whenLifecycle_ne_fault {ls : Lifecycle} (hn : next ≠ .fault f) : s.whenLifecycle ls next ≠ .fault f := by
  unfold State.whenLifecycle
  split
  · exact hn
  · nofun

theorem execVap_ne_fault {unit rd ra rb : Nibble} (ha : s.hasWire ra) (hb : s.hasWire rb) :
    execVap unit rd ra rb s ≠ .fault f := by
  unfold execVap
  split
  · refine withWire_ne_fault ha fun x => withWire_ne_fault hb fun offset => ?_
    dsimp only
    split <;> nofun
  · nofun

theorem execTap_ne_fault {unit rd ki : Nibble} (h : s.hasWire rd) : execTap unit rd ki s ≠ .fault f := by
  unfold execTap
  split
  · refine withWire_ne_fault h fun acc => ?_
    split <;> nofun
  · nofun

theorem execConstruct_ne_fault {rate : Sample} : execConstruct rate s ≠ .fault f := by
  refine whenAlone_ne_fault (whenLifecycle_ne_fault ?_)
  split
  · split <;> nofun
  · nofun

/-- An instruction faults only on a wire it reads (R37). -/
theorem exec_ne_fault {i : Instr} (h : ∀ w ∈ i.reads, s.hasWire w) : exec i s ≠ .fault f := by
  cases i with
  | mulc | dcb | hsh | dly | ap =>
    simp only [exec, execMulc, execDcb, execHsh, execDly, execAp]
    split
    · exact withWire_ne_fault (h _ (List.mem_singleton_self _)) nofun
    · nofun
  | addf | stf => exact withWire_ne_fault (h _ (List.mem_singleton_self _)) nofun
  | out ra rb =>
    exact withWire_ne_fault (h ra List.mem_cons_self) fun _ =>
      withWire_ne_fault (h rb (List.mem_cons_of_mem _ (List.mem_singleton_self rb))) nofun
  | vap unit rd ra rb =>
    exact execVap_ne_fault (h ra List.mem_cons_self) (h rb (List.mem_cons_of_mem _ (List.mem_singleton_self rb)))
  | tap unit rd ki => exact execTap_ne_fault (h rd (List.mem_singleton_self rd))
  | nop | setbs => exact whenAlone_ne_fault nofun
  | rdcsr n =>
    refine whenAlone_ne_fault ?_
    split <;> nofun
  | process x => exact whenIdle_ne_fault (whenLifecycle_ne_fault nofun)
  | destroy => exact whenAlone_ne_fault (whenLifecycle_ne_fault nofun)
  | construct rate => exact execConstruct_ne_fault
  | end_ | lfo | in_ | clr | alloc | free => nofun

end

/-! ### What a step of a unit with the invariant runs -/

/-- The host port carries host commands only (R92). -/
theorem decode_host_cases {w : HostWord} {i : Instr} (h : decode (.host w) = .ok i) :
    i = .nop ∨ (∃ x, i = .construct x) ∨ (∃ x, i = .process x) ∨ i = .destroy ∨ (∃ v, i = .setbs v) ∨
      ∃ n, i = .rdcsr n := by
  change decodeHost w = .ok i at h
  unfold decodeHost at h
  repeat' split at h
  all_goals cases h
  all_goals simp

theorem reads_of_decode_host {w : HostWord} {i : Instr} (h : decode (.host w) = .ok i) : i.reads = [] := by
  obtain rfl | ⟨_, rfl⟩ | ⟨_, rfl⟩ | rfl | ⟨_, rfl⟩ | ⟨_, rfl⟩ := decode_host_cases h <;> rfl

theorem UnitInv.fetchSlot_val {s : State} (hs : UnitInv s) : s.fetchSlot.val = s.spc.toNat := by
  have := hs.slot
  rw [State.fetchSlot, dif_pos (by omega)]

theorem UnitInv.stageWord {s : State} (hs : UnitInv s) : s.stageWord = some Config.scheduleRom[s.fetchSlot] := by
  have hslot := hs.slot
  rw [State.stageWord, hs.rom, Vector.getElem?_eq_getElem (by omega)]
  simp only [Fin.getElem_fin, hs.fetchSlot_val]

/-- A unit with the invariant waits, refuses a reserved host word, or runs a host command or the stage of its slot. -/
theorem UnitInv.step_cases {s : State} (hs : UnitInv s) :
    step s = .next s ∨ (∃ r, step s = .refused r) ∨
      (∃ w i, decode (.host w) = .ok i ∧ step s = exec i s.takeHost) ∨
      (s.inProgress = true ∧ step s = exec (scheduledInstr s.fetchSlot) s) := by
  unfold step State.fetch
  rw [hs.noRequest, hs.stageWord]
  dsimp only
  cases s.hostIssue with
  | some c =>
    dsimp only
    cases hd : decode (.host c.word) with
    | ok i => exact .inr (.inr (.inl ⟨_, i, hd, rfl⟩))
    | error e => exact .inr (.inl ⟨_, rfl⟩)
  | none =>
    dsimp only
    cases hp : s.inProgress with
    | true =>
      refine .inr (.inr (.inr ⟨rfl, ?_⟩))
      simp only [if_true, decode_scheduleRom]
    | false => exact .inl rfl

/-- In a PROCESS the stage of the slot finds every wire it reads written (R37). -/
theorem UnitInv.reads_written {s : State} (hs : UnitInv s) (hp : s.inProgress = true) :
    ∀ w ∈ (scheduledInstr s.fetchSlot).reads, s.hasWire w := fun w hw =>
  (wiresWritten_iff s).1 (hs.wires hp) w (hs.fetchSlot_val ▸ scheduledInstr_reads _ hw)

/-- Settles O4: a host command reads no wire, and the schedule has written what its slots read. -/
theorem stepNeverFaultsUnderTheInvariant : Obligations.StepNeverFaultsUnderTheInvariant := by
  intro s f hs
  obtain h | ⟨r, h⟩ | ⟨w, i, hd, h⟩ | ⟨hp, h⟩ := hs.step_cases
  · rw [h]; nofun
  · rw [h]; nofun
  · rw [h]
    exact exec_ne_fault fun w hw => by rw [reads_of_decode_host hd] at hw; cases hw
  · rw [h]
    exact exec_ne_fault (hs.reads_written hp)

/-! ### What a stage does -/

theorem hasWire_setWire {s : State} {i w : Nibble} {v : Sample} (h : s.hasWire w ∨ w ∈ [i]) :
    (s.setWire i v).hasWire w := by
  unfold State.hasWire
  rw [State.wire_setWire]
  split
  · rfl
  · exact h.resolve_right fun hw => absurd (List.mem_singleton.1 hw) ‹_›

/-- What every stage does: it goes on to the next slot unless it is `END`, leaves no wire empty that held a value and
fills those it writes, and changes rings and memory by one `RingWriteAdvance` or not at all. -/
structure StageEffect (i : Instr) (s t : State) : Prop where
  counter : i ≠ .end_ → t.spc = s.spc + 1#6
  wires : ∀ w, s.hasWire w ∨ w ∈ i.writes → t.hasWire w
  rings : (t.rings = s.rings ∧ t.dm = s.dm) ∨
    ∃ r v, t.rings = (s.ringWriteAdvance r v).rings ∧ t.dm = (s.ringWriteAdvance r v).dm

theorem execLfo_effect {rd rb : Nibble} {s t : State} (h : execLfo rd rb s = .next t) :
    StageEffect (.lfo rd rb) s t := by
  cases h
  refine ⟨fun _ => rfl, fun w hw => hasWire_setWire ?_, .inl ⟨rfl, rfl⟩⟩
  obtain hw | hw := hw
  · exact .inl (hasWire_setWire (.inl hw))
  · obtain rfl | hw := List.mem_cons.1 hw
    · exact .inl (hasWire_setWire (.inr (List.mem_singleton_self _)))
    · exact .inr hw

theorem exec_stage_effect {i : Instr} {s t : State} (hi : isStage i = true) (h : exec i s = .next t) :
    StageEffect i s t := by
  have kept {w : Nibble} (hw : s.hasWire w ∨ w ∈ []) : s.hasWire w := hw.resolve_right List.not_mem_nil
  cases i with
  | mulc =>
    obtain ⟨_, _, -, -, rfl⟩ := execMulc_next h
    exact ⟨fun _ => rfl, fun _ => hasWire_setWire, .inl ⟨rfl, rfl⟩⟩
  | addf => obtain ⟨_, -, rfl⟩ := execAddf_next h; exact ⟨fun _ => rfl, fun _ => hasWire_setWire, .inl ⟨rfl, rfl⟩⟩
  | dcb => obtain ⟨_, -, -, rfl⟩ := execDcb_next h; exact ⟨fun _ => rfl, fun _ => hasWire_setWire, .inl ⟨rfl, rfl⟩⟩
  | hsh =>
    obtain ⟨_, _, -, -, rfl⟩ := execHsh_next h
    exact ⟨fun _ => rfl, fun _ => hasWire_setWire, .inl ⟨rfl, rfl⟩⟩
  | tap =>
    obtain ⟨_, _, _, _, -, -, -, -, rfl⟩ := execTap_next h
    exact ⟨fun _ => rfl, fun _ => hasWire_setWire, .inl ⟨rfl, rfl⟩⟩
  | in_ | clr => cases h; exact ⟨fun _ => rfl, fun _ => hasWire_setWire, .inl ⟨rfl, rfl⟩⟩
  | lfo => exact execLfo_effect h
  | dly =>
    obtain ⟨r, x, -, -, rfl⟩ := execDly_next h
    exact ⟨fun _ => rfl, fun _ => hasWire_setWire, .inr ⟨r, x, rfl, rfl⟩⟩
  | ap =>
    obtain ⟨r, k, x, -, -, rfl⟩ := execAp_next h
    exact ⟨fun _ => rfl, fun _ => hasWire_setWire, .inr ⟨r, allpassWritten s.draws k x _, rfl, rfl⟩⟩
  | vap =>
    obtain ⟨r, k, x, offset, i, -, -, -, -, rfl⟩ := execVap_next h
    exact ⟨fun _ => rfl, fun _ => hasWire_setWire, .inr ⟨r, allpassWritten (s.draws + 7) k x _, rfl, rfl⟩⟩
  | stf => obtain ⟨_, -, rfl⟩ := execStf_next h; exact ⟨fun _ => rfl, fun _ => kept, .inl ⟨rfl, rfl⟩⟩
  | out => obtain ⟨_, _, -, -, rfl⟩ := execOut_next h; exact ⟨fun _ => rfl, fun _ => kept, .inl ⟨rfl, rfl⟩⟩
  | end_ => cases h; exact ⟨fun hend => absurd rfl hend, fun _ => kept, .inl ⟨rfl, rfl⟩⟩
  | nop | construct | process | destroy | setbs | rdcsr | alloc | free => cases hi

/-- What no stage changes, as one equation. -/
theorem exec_stage_frame {i : Instr} {s t : State} (hi : isStage i = true) (h : exec i s = .next t) :
    { s with
      wires := t.wires, spc := t.spc, draws := t.draws, lfo := t.lfo, dcb := t.dcb, hsh := t.hsh, fb := t.fb
      rings := t.rings, dm := t.dm, outL := t.outL, outR := t.outR, inProgress := t.inProgress
      hostResponse := t.hostResponse } = t := by
  have hf := exec_frame h
  cases i with
  | end_ | lfo | mulc | addf | dcb | hsh | dly | ap | vap | tap | stf | in_ | out | clr => rw [← hf]; rfl
  | nop | construct | process | destroy | setbs | rdcsr | alloc | free => cases hi

/-- Only `END` completes the PROCESS. -/
theorem exec_stage_continues {i : Instr} {s t : State} (hi : isStage i = true) (hend : i ≠ .end_)
    (h : exec i s = .next t) : t.inProgress = s.inProgress ∧ t.hostResponse = s.hostResponse := by
  have hf := exec_frame h
  cases i with
  | lfo | mulc | addf | dcb | hsh | dly | ap | vap | tap | stf | in_ | out | clr => rw [← hf]; exact ⟨rfl, rfl⟩
  | end_ => exact absurd rfl hend
  | nop | construct | process | destroy | setbs | rdcsr | alloc | free => cases hi

/-! ### What a stage keeps of the invariant -/

/-- The masked cursor stays below the capacity, whatever the capacity. -/
theorem RingOk.advanced {rate : Sample} {row : RingRow} {d : Ring} (h : RingOk rate row d) :
    RingOk rate row d.advanced :=
  { h with
    cursor := by
      have hlt := h.cursor
      have hpos : 1#32 ≤ d.capacity := by rw [BitVec.le_def, BitVec.toNat_ofNat]; omega
      have hmask : d.mask.toNat = d.capacity.toNat - 1 := by rw [h.mask, BitVec.toNat_sub_of_le hpos]; rfl
      have hand : ((d.cursor + 1#32) &&& d.mask).toNat ≤ d.mask.toNat := by
        rw [BitVec.toNat_and]; exact Nat.and_le_right
      show ((d.cursor + 1#32) &&& d.mask).toNat < d.capacity.toNat
      omega }

theorem ringRegions_congr {s t : State} (h : ∀ r, (t.ring r).region = (s.ring r).region) :
    t.ringRegions = s.ringRegions := List.map_congr_left fun r _ => h r

section
variable {i : Instr} {s t : State}

theorem StageEffect.memory (h : StageEffect i s t) (hm : Memory.wf s.dm = true) : Memory.wf t.dm = true := by
  obtain ⟨-, hdm⟩ | ⟨r, v, -, hdm⟩ := h.rings
  · rw [hdm]; exact hm
  · rw [hdm]; exact wf_ringWriteAdvance r v hm

/-- A stage leaves a descriptor alone or advances its cursor. -/
theorem StageEffect.ring (h : StageEffect i s t) (q : RingId) :
    t.ring q = s.ring q ∨ t.ring q = (s.ring q).advanced := by
  obtain ⟨hr, -⟩ | ⟨r, v, hr, -⟩ := h.rings
  · exact .inl (State.ring_congr hr q)
  · rw [State.ring_congr hr q]
    by_cases hq : q = r
    · exact .inr (by rw [hq, State.ring_ringWriteAdvance_same])
    · exact .inl (State.ring_ringWriteAdvance_other s v hq)

theorem StageEffect.ringRegions (h : StageEffect i s t) : t.ringRegions = s.ringRegions :=
  ringRegions_congr fun r => by
    obtain hr | hr := h.ring r
    · rw [hr]
    · rw [hr]; rfl

theorem StageEffect.ringOk (h : StageEffect i s t) {rate : Sample} {row : RingRow} {r : RingId}
    (hr : RingOk rate row (s.ring r)) : RingOk rate row (t.ring r) := by
  obtain he | he := h.ring r
  · rw [he]; exact hr
  · rw [he]; exact hr.advanced

/-- The wires written before the next slot hold values after the stage of this one. -/
theorem UnitInv.wires_next (hs : UnitInv s) (hp : s.inProgress = true)
    (h : StageEffect (scheduledInstr s.fetchSlot) s t) (hspc : t.spc.toNat = s.spc.toNat + 1) : WiresWritten t := by
  refine (wiresWritten_iff t).2 fun w hw => h.wires w ?_
  rw [hspc, ← hs.fetchSlot_val] at hw
  exact (writtenBefore_succ s.fetchSlot hw).imp_left fun hw =>
    (wiresWritten_iff s).1 (hs.wires hp) w (hs.fetchSlot_val ▸ hw)

/-- A stage keeps every clause of the invariant but those about the counter and the PROCESS in progress. -/
theorem UnitInv.of_stage (hs : UnitInv s) (hp : s.inProgress = true) (hi : isStage i = true) (h : exec i s = .next t)
    (hslot : t.spc.toNat ≤ 34) (hidle : t.inProgress = false → t.spc = 0#6)
    (hrun : t.inProgress = true → t.hostResponse = none ∧ WiresWritten t) : UnitInv t := by
  have he := exec_stage_effect hi h
  have hf := exec_stage_frame hi h
  rw [← hf]
  exact { hs with
    memory := he.memory hs.memory
    slot := hslot
    idle := hidle
    running := fun hr => ⟨(hs.running hp).1, (hrun hr).1⟩
    readyHoldsRings := fun hls => (hs.readyHoldsRings hls).trans he.ringRegions.symm
    rings := fun hls r => he.ringOk (hs.rings hls r)
    wires := fun hr => by rw [hf]; exact (hrun hr).2 }

/-- The stage of a slot keeps the invariant: `END`, the last one, completes the PROCESS, and every other one leads to the
next slot. -/
theorem UnitInv.stage (hs : UnitInv s) (hp : s.inProgress = true)
    (h : exec (scheduledInstr s.fetchSlot) s = .next t) : UnitInv t := by
  have hi := isStage_scheduledInstr s.fetchSlot
  by_cases hlast : s.fetchSlot = 34
  · have hend := (scheduledInstr_eq_end _).2 hlast
    rw [hend] at h
    cases h
    exact hs.of_stage (i := .end_) hp rfl rfl (Nat.zero_le _) (fun _ => rfl) nofun
  · have hne := fun e => hlast ((scheduledInstr_eq_end _).1 e)
    have he := exec_stage_effect hi h
    obtain ⟨hprog, hresp⟩ := exec_stage_continues hi hne h
    have hval := hs.fetchSlot_val
    have hspc : t.spc.toNat = s.spc.toNat + 1 := by
      rw [he.counter hne, BitVec.toNat_add, BitVec.toNat_ofNat]
      omega
    refine hs.of_stage hp hi h ?_ (fun hidle => ?_) fun _ => ⟨hresp.trans (hs.running hp).2, hs.wires_next hp he hspc⟩
    · omega
    · rw [hprog, hp] at hidle
      cases hidle

end

/-! ### The size of a ring -/

theorem ceilNat_le_of_atMost {x : Sample} {b : Nat} (h : atMost x b = true) : ceilNat x ≤ b := by
  unfold atMost at h
  unfold ceilNat
  cases hc : classify x with
  | nan => exact Nat.zero_le b
  | inf _ => exact Nat.zero_le b
  | finite neg m e =>
    rw [hc] at h
    cases neg
    · simpa using h
    · exact Nat.zero_le b

theorem leastPowerOfTwo_pos (n : Nat) : 0 < leastPowerOfTwo n := by
  unfold leastPowerOfTwo
  split
  · exact one_pos
  · exact Nat.two_pow_pos _

theorem leastPowerOfTwo_le {n e : Nat} (h : n ≤ 2 ^ e) : leastPowerOfTwo n ≤ 2 ^ e := by
  unfold leastPowerOfTwo
  split
  · exact Nat.one_le_two_pow
  · exact Nat.pow_le_pow_right two_pos ((Nat.log2_lt (by omega)).2 (by omega))

/-- At an admitted rate a ring's capacity is positive and within `CAP_MAX_LOG2` (R133, R171). -/
theorem ringCapacity_bounds {p : Params} {rate : Sample} (h : p.admittedRate rate = true) (r : RingId) :
    0 < p.ringCapacity rate r ∧ p.ringCapacity rate r ≤ 2 ^ p.capMaxLog2 := by
  unfold Params.admittedRate at h
  have hall : ∀ r : RingId, r ∈ allRings := by decide
  have hr := List.all_eq_true.1 (Bool.and_eq_true_iff.1 h).2 r (hall r)
  exact ⟨leastPowerOfTwo_pos _, leastPowerOfTwo_le (ceilNat_le_of_atMost hr)⟩

/-- With legal parameters the request of `4 * capacity` bytes and the capacity fit their words. -/
theorem ringCapacity_fits {p : Params} {rate : Sample} (hp : LegalParams p) (h : p.admittedRate rate = true)
    (r : RingId) : 4 * p.ringCapacity rate r < 2 ^ 32 := by
  have hcap : 2 ^ p.capMaxLog2 ≤ 2 ^ 24 := Nat.pow_le_pow_right two_pos hp.capacities
  have := (ringCapacity_bounds h r).2
  omega

/-! ### The loop of CONSTRUCT -/

/-- Half way through CONSTRUCT: the rings `done`, the last one first, are set up, and exactly their regions are held. -/
structure GrantedSoFar (done : List RingId) (s : State) : Prop where
  params : LegalParams s.params
  rate : s.params.admittedRate s.sampleRate = true
  live : s.live = done.map fun r => (s.ring r).region
  contract : LiveContract s.params.addressSpace s.live
  rings : ∀ r ∈ done, RingOk s.sampleRate (s.params.row r) (s.ring r)

/-- The descriptor CONSTRUCT gives a granted ring (R133). -/
theorem ring_installRing_same (s : State) (r : RingId) (base ds : BitVec 32) :
    (s.installRing r base ds).ring r =
      ⟨base, BitVec.ofNat 32 (s.params.ringCapacity s.sampleRate r),
        BitVec.ofNat 32 (s.params.ringCapacity s.sampleRate r) - 1#32, 0#32, (s.params.row r).delayS, ds⟩ :=
  State.ring_setRing_same s r _

theorem ring_installRing_other (s : State) {r q : RingId} (base ds : BitVec 32) (h : q ≠ r) :
    (s.installRing r base ds).ring q = s.ring q := State.ring_setRing_other s _ h

section
variable {s : State} {done : List RingId} {r : RingId} {base ds : BitVec 32}

theorem GrantedSoFar.toNat_capacity (h : GrantedSoFar done s) (r : RingId) :
    (BitVec.ofNat 32 (s.params.ringCapacity s.sampleRate r)).toNat = s.params.ringCapacity s.sampleRate r := by
  have := ringCapacity_fits h.params h.rate r
  rw [BitVec.toNat_ofNat]
  omega

/-- The region granted for `4 * capacity` bytes is the one the new descriptor stands for. -/
theorem GrantedSoFar.regionOf_ringBytes (h : GrantedSoFar done s) (r : RingId) (base ds : BitVec 32) :
    regionOf base (s.ringBytes r) = ((s.installRing r base ds).ring r).region := by
  have hfit := ringCapacity_fits h.params h.rate r
  rw [ring_installRing_same, regionOf, Ring.region, h.toNat_capacity, State.ringBytes, BitVec.toNat_ofNat]
  congr 1
  omega

theorem GrantedSoFar.ringOk_installRing (h : GrantedSoFar done s)
    (hds : s.params.ringDelaySamples s.sampleRate r = some ds) :
    RingOk s.sampleRate (s.params.row r) ((s.installRing r base ds).ring r) := by
  rw [ring_installRing_same]
  refine ⟨rfl, rfl, ?_, rfl, hds⟩
  show 0 < (BitVec.ofNat 32 (s.params.ringCapacity s.sampleRate r)).toNat
  rw [h.toNat_capacity]
  exact (ringCapacity_bounds h.rate r).1

/-- One turn of the loop: a ring granted and set up joins those before it. -/
theorem GrantedSoFar.install (h : GrantedSoFar done s) (hr : r ∉ done)
    (hans : s.allocAnswer (s.ringBytes r) = some base) (hds : s.params.ringDelaySamples s.sampleRate r = some ds) :
    GrantedSoFar (r :: done) ((s.allocate (s.ringBytes r)).installRing r base ds) where
  params := h.params
  rate := h.rate
  contract := State.liveContract_allocate h.contract _
  live := by
    rw [State.installRing_live, State.allocate_live, hans, List.map_cons, h.live]
    refine congrArg₂ List.cons (h.regionOf_ringBytes r base ds) (List.map_congr_left fun q hq => ?_)
    rw [ring_installRing_other _ _ _ (ne_of_mem_of_not_mem hq hr)]
    rfl
  rings := fun q hq => by
    obtain rfl | hq := List.mem_cons.1 hq
    · exact h.ringOk_installRing hds
    · rw [ring_installRing_other _ _ _ (ne_of_mem_of_not_mem hq hr)]
      exact h.rings q hq

end

/-- Releasing the rings whose regions are held takes exactly them off the live set. -/
theorem releaseRings_live (rs : List RingId) {s : State} {rest : List Region}
    (h : s.live = (rs.map fun r => (s.ring r).region) ++ rest) : (s.releaseRings rs).live = rest := by
  induction rs generalizing s with
  | nil => exact h
  | cons r rs ih => exact ih (State.release_head h)

/-- How CONSTRUCT's loop may end: the rings `done` set up, or no region held. -/
def Granting.Ended (done : List RingId) : Granting → Prop
  | .built t => GrantedSoFar done t
  | .refusedAt _ t => t.live = []
  | .undefined => True

theorem GrantedSoFar.grantRings_ended (rs : List RingId) {done : List RingId} {s : State} (h : GrantedSoFar done s)
    (hnd : (rs.reverse ++ done).Nodup) : (grantRings rs done s).Ended (rs.reverse ++ done) := by
  induction rs generalizing done s with
  | nil => exact h
  | cons r rs ih =>
    rw [List.reverse_cons, List.append_assoc, List.singleton_append] at hnd ⊢
    have hr : r ∉ done := (List.nodup_cons.1 hnd.of_append_right).1
    rw [grantRings]
    split
    · refine releaseRings_live done ?_
      rw [State.allocate_live, ‹s.allocAnswer _ = none›, h.live, List.append_nil]
      rfl
    · split
      · exact ih (h.install hr ‹_› ‹_›) hnd
      · trivial

/-! ### What a host command keeps of the invariant -/

section
variable {s t : State}

/-- A state in EMPTY with no region held and nothing in progress needs little else. -/
theorem unitInv_of_empty (memory : Memory.wf s.dm = true) (rom : s.rom = Config.scheduleRom)
    (params : LegalParams s.params) (spc : s.spc = 0#6) (idle : s.inProgress = false)
    (noRequest : s.allocRequest = none) (noFailure : s.af = false → s.afring = 0#4) (failedRing : s.afring.toNat ≤ 11)
    (empty : s.ls = .empty) (live : s.live = []) : UnitInv s where
  memory := memory
  rom := rom
  params := params
  slot := by rw [spc]; exact Nat.zero_le 34
  idle := fun _ => spc
  running := fun h => by rw [idle] at h; cases h
  noRequest := noRequest
  noFailure := noFailure
  failedRing := failedRing
  constructed := fun h => by rw [empty] at h; cases h
  emptyHoldsNothing := fun _ => live
  readyHoldsRings := fun h => by rw [empty] at h; cases h
  contract := by rw [live]; exact ⟨nofun, .nil⟩
  rate := fun h => by rw [empty] at h; cases h
  rings := fun h => by rw [empty] at h; cases h
  wires := fun h => by rw [idle] at h; cases h

/-- All twelve rings granted, CONSTRUCT ends in READY with everything the invariant asks of it there. -/
theorem GrantedSoFar.constructed (h : GrantedSoFar allRings.reverse s) (memory : Memory.wf s.dm = true)
    (rom : s.rom = Config.scheduleRom) (idle : s.inProgress = false) (noRequest : s.allocRequest = none) :
    UnitInv s.constructed where
  memory := memory
  rom := rom
  params := h.params
  slot := Nat.zero_le 34
  idle := fun _ => rfl
  running := fun hr => Bool.noConfusion (idle.symm.trans hr)
  noRequest := noRequest
  noFailure := fun _ => rfl
  failedRing := Nat.zero_le 11
  constructed := fun _ => rfl
  emptyHoldsNothing := nofun
  readyHoldsRings := fun _ => h.live
  contract := h.contract
  rate := fun _ => h.rate
  rings := fun _ r => h.rings r (by revert r; decide)
  wires := fun hr => Bool.noConfusion (idle.symm.trans hr)

theorem UnitInv.takeHost (hs : UnitInv s) : UnitInv s.takeHost :=
  { hs with
    running := fun hr => ⟨(hs.running hr).1, rfl⟩
    wires := fun hr => (wiresWritten_iff _).2 ((wiresWritten_iff s).1 (hs.wires hr)) }

theorem UnitInv.respond (hs : UnitInv s) (hidle : s.inProgress = false) (code : Nibble) (left right : BitVec 32) :
    UnitInv (s.respond code left right) :=
  { hs with
    running := fun hr => Bool.noConfusion (hidle.symm.trans hr)
    wires := fun hr => Bool.noConfusion (hidle.symm.trans hr) }

theorem UnitInv.buffered (hs : UnitInv s) (hidle : s.inProgress = false) (v : BitVec 32) : UnitInv (s.buffered v) :=
  { hs with wires := fun hr => Bool.noConfusion (hidle.symm.trans hr) }

theorem UnitInv.process {x : Sample} (hs : UnitInv s) (h : execProcess x s = .next t) : UnitInv t := by
  obtain ⟨-, hls, rfl⟩ := execProcess_next h
  have hnone : ∀ w, ¬ writtenBefore 0 w := by unfold writtenBefore; decide
  exact { hs with
    slot := Nat.zero_le 34
    idle := nofun
    running := fun _ => ⟨hls, rfl⟩
    wires := fun _ => (wiresWritten_iff _).2 fun w hw => absurd hw (hnone w) }

theorem UnitInv.destroy (hs : UnitInv s) (h : execDestroy s = .next t) : UnitInv t := by
  have hf := execDestroy_frame h
  obtain ⟨hidle, hls, rfl⟩ := execDestroy_next h
  have hlive : (s.releaseRings allRings.reverse).destroyed.live = [] :=
    releaseRings_live _ ((hs.readyHoldsRings hls).trans (List.append_nil _).symm)
  rw [← hf]
  exact unitInv_of_empty hs.memory hs.rom hs.params rfl hidle hs.noRequest hs.noFailure hs.failedRing rfl hlive

theorem UnitInv.construct {rate : Sample} (hs : UnitInv s) (h : execConstruct rate s = .next t) : UnitInv t := by
  obtain ⟨hidle, hls, hrate, hloop⟩ := execConstruct_next h
  have hstart : GrantedSoFar [] { s with sampleRate := rate } :=
    ⟨hs.params, hrate, hs.emptyHoldsNothing hls, hs.contract, nofun⟩
  have hend := hstart.grantRings_ended allRings (by decide)
  obtain ⟨u, hu, rfl⟩ | ⟨r, u, hu, rfl⟩ := hloop
  all_goals
    have hstate := congrArg Granting.state? hu
    have hmem := wf_grantRings allRings [] (s := { s with sampleRate := rate }) hs.memory hstate
    have hf := grantRings_frame allRings [] hstate
    have hrom : u.rom = Config.scheduleRom := by rw [← hf]; exact hs.rom
    have hidle : u.inProgress = false := by rw [← hf]; exact hidle
    have hreq : u.allocRequest = none := by rw [← hf]; exact hs.noRequest
    rw [hu] at hend
  · exact GrantedSoFar.constructed hend hmem hrom hidle hreq
  · have hparams : LegalParams u.params := by rw [← hf]; exact hs.params
    have hring : (BitVec.ofNat 4 r.val).toNat ≤ 11 := by rw [BitVec.toNat_ofNat]; omega
    exact unitInv_of_empty hmem hrom hparams rfl hidle hreq nofun hring rfl hend

/-- A host command keeps the invariant. -/
theorem UnitInv.hostCommand {w : HostWord} {i : Instr} (hs : UnitInv s) (hd : decode (.host w) = .ok i)
    (h : exec i s = .next t) : UnitInv t := by
  obtain rfl | ⟨_, rfl⟩ | ⟨_, rfl⟩ | rfl | ⟨v, rfl⟩ | ⟨_, rfl⟩ := decode_host_cases hd
  · obtain ⟨hidle, rfl⟩ := execNop_next h
    exact hs.respond hidle _ _ _
  · exact hs.construct h
  · exact hs.process h
  · exact hs.destroy h
  · obtain ⟨hidle, rfl⟩ := execSetbs_next h
    exact (hs.buffered hidle v).respond hidle _ _ _
  · obtain ⟨hidle, _, -, rfl⟩ := execRdcsr_next h
    exact hs.respond hidle _ _ _

end

/-- Settles O3: a step waits, runs a host command, or runs the stage of its slot, and each keeps the invariant. -/
theorem stepKeepsTheInvariant : Obligations.StepKeepsTheInvariant := by
  intro s t hs h
  obtain he | ⟨r, he⟩ | ⟨w, i, hd, he⟩ | ⟨hp, he⟩ := hs.step_cases
  · rw [he] at h
    cases h
    exact hs
  · rw [he] at h
    cases h
  · exact hs.takeHost.hostCommand hd (he.symm.trans h)
  · exact hs.stage hp (he.symm.trans h)

end Machine
end Sys2Proof
end

section
/-! PROOFS. The statements drawn from spec/20_memory.md: the delay memory as a store of words (R60, R70), the effective
address of a ring (R61, R62), stages in place (R74), and what no stage changes (R73, R76). -/

namespace Sys2Proof
namespace Machine

/-! ### The delay memory -/

/-- Settles O14: `MemRead` after `MemWrite` compares word addresses, which with 32 address bits are the addresses. -/
theorem readAfterWrite : Obligations.ReadAfterWrite := by
  intro s a b v hm
  have hread := memRead_memWrite hm a b v
  refine ⟨hread, fun hw => ?_, wf_memWrite a v hm⟩
  have hword := wordAddress_eq hw.ge
  rw [hread, hword, hword]
  simp only [BitVec.toNat_inj]

/-- A canonical memory that reads its word `v` at `k` starts no higher than `k`. -/
theorem DelayMemory.start_le_of_read {m : DelayMemory} {low k : Nat} {v : Sample} (hm : wfFrom m low = true)
    (hv : v ≠ unlisted) (h : read m k = v) : low ≤ k :=
  Nat.le_of_not_lt fun hk => hv (h.symm.trans (read_below hm hk))

/-- The least listed address is where both memories first read a word, so the heads agree, and then the tails do. -/
theorem DelayMemory.eq_of_read_eq {m m' : DelayMemory} {low : Nat} (hm : wfFrom m low = true)
    (hm' : wfFrom m' low = true) (h : ∀ a, a < 2 ^ 32 → read m a = read m' a) : m = m' := by
  induction m generalizing m' low with
  | nil =>
    cases m' with
    | nil => rfl
    | cons c' m' =>
      obtain ⟨k', v'⟩ := c'
      obtain ⟨-, hk', hv', -⟩ := (wfFrom_cons ..).1 hm'
      exact absurd (h k' hk') (by simpa using hv'.symm)
  | cons c m ih =>
    obtain ⟨k, v⟩ := c
    obtain ⟨-, hk, hv, htail⟩ := (wfFrom_cons ..).1 hm
    cases m' with
    | nil => exact absurd (h k hk) (by simpa using hv)
    | cons c' m' =>
      obtain ⟨k', v'⟩ := c'
      obtain ⟨-, hk', hv', htail'⟩ := (wfFrom_cons ..).1 hm'
      have hle : k' ≤ k :=
        start_le_of_read ((wfFrom_cons ..).2 ⟨le_rfl, hk', hv', htail'⟩) hv ((h k hk).symm.trans (if_pos rfl))
      have hle' : k ≤ k' :=
        start_le_of_read ((wfFrom_cons ..).2 ⟨le_rfl, hk, hv, htail⟩) hv' ((h k' hk').trans (if_pos rfl))
      obtain rfl : k = k' := le_antisymm hle' hle
      obtain rfl : v = v' := by simpa using h k hk
      rw [ih htail htail' fun a ha => ?_]
      by_cases hak : k = a
      · rw [read_below htail (by omega), read_below htail' (by omega)]
      · simpa [hak] using h a ha

/-- Settles O15: two canonical memories are compared cell by cell, the least address first. -/
theorem canonicalMemoriesThatReadAlikeAreEqual : Obligations.CanonicalMemoriesThatReadAlikeAreEqual :=
  fun _ _ => DelayMemory.eq_of_read_eq

/-! ### The effective address -/

section
variable {d : Ring} {e : Nat}

theorem Ring.toNat_capacity (he : e ≤ 31) (hc : d.capacity = BitVec.ofNat 32 (2 ^ e)) :
    d.capacity.toNat = 2 ^ e := by
  rw [hc, BitVec.toNat_ofNat, Nat.mod_eq_of_lt (Nat.pow_lt_pow_right (by omega) (by omega))]

/-- The mask keeps the low `e` bits of an index: its residue modulo the capacity. -/
theorem Ring.toNat_address (he : e ≤ 31) (hc : d.capacity = BitVec.ofNat 32 (2 ^ e)) (hm : d.mask = d.capacity - 1#32)
    (i : BitVec 32) : (d.address i).toNat = (d.base.toNat + i.toNat % 2 ^ e) % 2 ^ 32 := by
  have hcap := Ring.toNat_capacity he hc
  have hone : 1#32 ≤ d.capacity := by rw [BitVec.le_def, hcap]; exact Nat.one_le_two_pow
  have hmask : d.mask.toNat = 2 ^ e - 1 := by rw [hm, BitVec.toNat_sub_of_le hone, hcap]; rfl
  rw [Ring.address, BitVec.toNat_add, BitVec.toNat_and, hmask, Nat.and_two_pow_sub_one_eq_mod]

end

/-- An int32 and its word have one residue modulo a power of two that divides `2^32`. -/
theorem toInt_emod_two_pow (i : BitVec 32) {e : Nat} (he : e ≤ 32) : i.toInt % 2 ^ e = i.toNat % 2 ^ e := by
  have hdvd : (2 ^ e : Int) ∣ (2 ^ 32 : Nat) := mod_cast Nat.pow_dvd_pow 2 he
  rw [BitVec.toInt_eq_toNat_bmod, ← Int.emod_emod_of_dvd _ hdvd, Int.bmod_emod, Int.emod_emod_of_dvd _ hdvd]

/-- Settles O16: the mask takes the residue of the word, which is the residue of the int32. -/
theorem maskedIndexIsTheMathematicalModulo : Obligations.MaskedIndexIsTheMathematicalModulo := by
  intro d i e he hc hm
  rw [Ring.toNat_address he hc hm, toInt_emod_two_pow i (by omega)]
  norm_cast

/-- Settles O17: the residue is below the capacity, so in the region the sum does not wrap and names its own word. -/
theorem effectiveAddressStaysInTheRing : Obligations.EffectiveAddressStaysInTheRing := by
  intro p d i e he hc hm hregion
  have hcap := Ring.toNat_capacity he hc
  have hres : i.toNat % 2 ^ e < 2 ^ e := Nat.mod_lt _ (Nat.two_pow_pos e)
  have hspace : p.addressSpace ≤ 2 ^ 32 := Nat.pow_le_pow_right (by omega) (min_le_right ..)
  have haddr : (d.address i).toNat = d.base.toNat + i.toNat % 2 ^ e := by
    rw [Ring.toNat_address he hc hm, Nat.mod_eq_of_lt (by omega)]
  rw [wordAddress_of_lt (by omega)]
  omega

/-! ### Stages in place -/

section
variable {s : State} {unit ra : Nibble} {x : Sample}

theorem execDcb_completes (hu : unit = 0#4) (ha : s.wire ra = some x) (rd : Nibble) :
    execDcb unit rd ra s =
      .next ((({ s with dcb := ⟨x, dcbOutput s.draws s.params.dcbK x s.dcb⟩ }.setWire rd
        (dcbOutput s.draws s.params.dcbK x s.dcb)).drawn 3).advance) := by
  rw [execDcb, if_pos hu, State.withWire_some ha]

theorem execHsh_completes {u : Fin 2} (hu : hshOperand unit = some u) (ha : s.wire ra = some x) (rd : Nibble) :
    execHsh unit rd ra s =
      .next ((({ s with hsh := s.hsh.set u x }.setWire rd
        (hshOutput s.draws s.params.hshK x s.hsh[u])).drawn 4).advance) := by
  simp only [execHsh, hu, State.withWire_some ha]

theorem execDly_completes {r : RingId} (hu : dlyOperand unit = some r) (ha : s.wire ra = some x) (rd : Nibble) :
    execDly unit rd ra s =
      .next (((s.ringWriteAdvance r x).setWire rd (s.ringRead r (s.ring r).delayIndex)).advance) := by
  simp only [execDly, hu, State.withWire_some ha]

theorem execAp_completes {r : RingId} {k : Sample} (hu : s.params.apOperand unit = some (r, k))
    (ha : s.wire ra = some x) (rd : Nibble) :
    execAp unit rd ra s =
      .next (((s.allpass s.draws r k x (s.ringRead r (s.ring r).delayIndex) rd).drawn 4).advance) := by
  simp only [execAp, hu, State.withWire_some ha]

theorem execVap_completes {r : RingId} {k offset : Sample} {rb : Nibble} {i : BitVec 32}
    (hu : s.params.vapOperand unit = some (r, k)) (ha : s.wire ra = some x) (hb : s.wire rb = some offset)
    (hi : floorI32 (readPosition s.draws (s.ring r) offset s.sampleRate) = some i) (rd : Nibble) :
    execVap unit rd ra rb s =
      .next (((s.allpass (s.draws + 7) r k x (s.interpolate (s.draws + 3) r
        (readPosition s.draws (s.ring r) offset s.sampleRate) i) rd).drawn 11).advance) := by
  simp only [execVap, hu, State.withWire_some ha, State.withWire_some hb, hi]

end

/-- A stage that ends by writing its output `y` to a wire does the same with another destination, wires apart. -/
theorem same_result_on_another_wire (s : State) (y : Sample) (n : Nat) (rd ra : Nibble) :
    let t := ((s.setWire rd y).drawn n).advance
    let u := ((s.setWire ra y).drawn n).advance
    u.wire ra = t.wire rd ∧ { u with wires := t.wires } = t := by
  exact ⟨by simp, rfl⟩

/-- Settles O39: each of the five reads its sources, computes state and output from them, and writes the output last. -/
theorem inPlaceStagesGiveTheSameResult : Obligations.InPlaceStagesGiveTheSameResult := by
  intro s t unit rd ra
  refine ⟨fun h => ?dcb, fun h => ?hsh, fun h => ?dly, fun h => ?ap, fun rb h => ?vap⟩
  case dcb =>
    obtain ⟨x, hu, ha, rfl⟩ := execDcb_next h
    exact ⟨_, execDcb_completes hu ha ra, same_result_on_another_wire ..⟩
  case hsh =>
    obtain ⟨u, x, hu, ha, rfl⟩ := execHsh_next h
    exact ⟨_, execHsh_completes hu ha ra, same_result_on_another_wire ..⟩
  case dly =>
    obtain ⟨r, x, hu, ha, rfl⟩ := execDly_next h
    exact ⟨_, execDly_completes hu ha ra, same_result_on_another_wire (n := 0) ..⟩
  case ap =>
    obtain ⟨r, k, x, hu, ha, rfl⟩ := execAp_next h
    exact ⟨_, execAp_completes hu ha ra, same_result_on_another_wire ..⟩
  case vap =>
    obtain ⟨r, k, x, offset, i, hu, ha, hb, hi, rfl⟩ := execVap_next h
    exact ⟨_, execVap_completes hu ha hb hi ra, same_result_on_another_wire ..⟩

/-! ### What no stage changes -/

/-- Settles O43: none of these elements is in the frame that the fourteen stages share. -/
theorem stagesLeaveTheAllocatorAndTheRegistersAlone : Obligations.StagesLeaveTheAllocatorAndTheRegistersAlone := by
  intro i s t hi h
  rw [← exec_stage_frame hi h]
  exact ⟨rfl, rfl, rfl, rfl, rfl, rfl, rfl, rfl, rfl, rfl, rfl⟩

end Machine
end Sys2Proof
end

section
/-! PROOFS. The statements drawn from spec/30_encoding.md: decoding and encoding invert each other (R91, R92, R96, R100,
R101), the reserved words and their refusal (R95, R105), the schedule and words of the tables (R106), and the response
code (R93). -/

namespace Sys2Proof

/-! ### The fields of a word -/

/-- A stage word is its six fields and `Z`, one after the other (R100). -/
theorem append_stageFields (w : StageWord) :
    (stageFields w).op ++ (stageFields w).unit ++ (stageFields w).rd ++ (stageFields w).ra ++ (stageFields w).rb ++
      (stageFields w).ki ++ stageZ w = w := by
  have join (k m : Nat) {n : Nat} : w.extractLsb' (k + m) n ++ w.extractLsb' k m = w.extractLsb' k (n + m) :=
    BitVec.extractLsb'_append_extractLsb'_eq_extractLsb' rfl
  simp only [stageFields, stageZ]
  rw [join 24 4, join 20 4, join 16 4, join 12 4, join 8 4, join 0 8]
  exact BitVec.extractLsb'_eq_self

theorem stageWord_ext_iff {v w : StageWord} : v = w ↔ stageZ v = stageZ w ∧ stageFields v = stageFields w := by
  refine ⟨fun h => h ▸ ⟨rfl, rfl⟩, fun ⟨hz, hf⟩ => ?_⟩
  rw [← append_stageFields v, hz, hf, append_stageFields]

@[simp] theorem stageFields_stageWordOf (f : StageFields) : stageFields (stageWordOf f) = f := by
  simp (disch := decide) only [stageFields, stageWordOf, BitVec.extractLsb'_append_eq_of_le, Nat.reduceSub,
    BitVec.extractLsb'_append_eq_right, BitVec.extractLsb'_eq_self]

@[simp] theorem stageZ_stageWordOf (f : StageFields) : stageZ (stageWordOf f) = 0#8 :=
  BitVec.extractLsb'_append_eq_right

theorem stageWordOf_stageFields {w : StageWord} (h : stageZ w = 0#8) : stageWordOf (stageFields w) = w :=
  stageWord_ext_iff.2 ⟨by simp [h], by simp⟩

@[simp] theorem hostOp_hostWordOf (hop : Nibble) (data : BitVec 32) : hostOp (hostWordOf hop data) = hop :=
  BitVec.extractLsb'_append_eq_left

@[simp] theorem hostData_hostWordOf (hop : Nibble) (data : BitVec 32) : hostData (hostWordOf hop data) = data :=
  BitVec.extractLsb'_append_eq_right

theorem hostWordOf_fields (w : HostWord) : hostWordOf (hostOp w) (hostData w) = w :=
  (BitVec.extractLsb'_append_extractLsb'_eq_extractLsb' rfl).trans BitVec.extractLsb'_eq_self

@[simp] theorem allocKind_allocWordOf (kind : BitVec 1) (arg : BitVec 32) : allocKind (allocWordOf kind arg) = kind :=
  BitVec.extractLsb'_append_eq_left

@[simp] theorem allocArg_allocWordOf (kind : BitVec 1) (arg : BitVec 32) : allocArg (allocWordOf kind arg) = arg :=
  BitVec.extractLsb'_append_eq_right

theorem allocWordOf_fields (w : AllocWord) : allocWordOf (allocKind w) (allocArg w) = w :=
  (BitVec.extractLsb'_append_extractLsb'_eq_extractLsb' rfl).trans BitVec.extractLsb'_eq_self

theorem nibble_eq_ofNat {x : Nibble} {n : Nat} (h : x.toNat = n) : x = BitVec.ofNat 4 n := by
  rw [← h, BitVec.ofNat_toNat, BitVec.setWidth_eq]

/-! ### What each decoder accepts -/

/-- A check that rejects, in front of a decoder, accepts what the decoder accepts and passes the check. -/
theorem ite_error_eq_ok {p : Prop} [Decidable p] {x : Except DecodeReject Instr} {e : DecodeReject} {i : Instr} :
    (if p then x else .error e) = .ok i ↔ p ∧ x = .ok i := by
  split_ifs <;> simp [*]

/-- A stage decodes exactly when its unused fields are zero and its indexes are in range (R101, R105). -/
theorem withUnusedZero_eq_ok {unused : List Nibble} {i j : Instr} :
    withUnusedZero unused i = .ok j ↔ unused.all (· == 0#4) = true ∧ i.wellFormed = true ∧ i = j := by
  rw [withUnusedZero, ite_error_eq_ok, ite_error_eq_ok, Except.ok.injEq]

theorem decode_stageWordOf (f : StageFields) : decode (.stage (stageWordOf f)) = decodeFields f := by
  simp [decode, decodeStage]

theorem decode_stage_eq_ok {w : StageWord} {i : Instr} :
    decode (.stage w) = .ok i ↔ stageZ w = 0#8 ∧ decodeFields (stageFields w) = .ok i := by
  rw [decode, decodeStage, ite_error_eq_ok]

/-- The six host commands, and no other word, decode (R92, R95). -/
theorem decode_hostWordOf_eq_ok {hop : Nibble} {data : BitVec 32} {i : Instr} :
    decode (.host (hostWordOf hop data)) = .ok i ↔
      (hop = 0#4 ∧ data = 0#32 ∧ .nop = i) ∨ (hop = 1#4 ∧ .construct data = i) ∨ (hop = 2#4 ∧ .process data = i) ∨
        (hop = 3#4 ∧ data = 0#32 ∧ .destroy = i) ∨ (hop = 4#4 ∧ .setbs data = i) ∨
        (hop = 5#4 ∧ data.toNat ≤ 2 ∧ .rdcsr (data.setWidth 4) = i) := by
  simp only [decode, decodeHost, hostOp_hostWordOf, hostData_hostWordOf]
  split
  case h_7 => simp_all [← BitVec.toNat_inj (x := hop)]
  all_goals
    rename_i hhop
    obtain rfl := nibble_eq_ofNat hhop
    simp [ite_error_eq_ok]

theorem decode_alloc (size : BitVec 32) : decode (.alloc (allocWordOf 0#1 size)) = .ok (.alloc size) := by
  simp [decode, decodeAlloc]

theorem decode_free (base : BitVec 32) : decode (.alloc (allocWordOf 1#1 base)) = .ok (.free base) := by
  simp [decode, decodeAlloc]

/-! ### Decoding and encoding -/

/-- The CSR number of a word and the 32 bits it is encoded in say the same (R94). -/
theorem setWidth_csr {data : BitVec 32} (h : data.toNat ≤ 2) :
    (data.setWidth 4).toNat ≤ 2 ∧ (data.setWidth 4).setWidth 32 = data := by
  have hn : (data.setWidth 4).toNat = data.toNat := by rw [BitVec.toNat_setWidth]; omega
  refine ⟨hn ▸ h, BitVec.eq_of_toNat_eq ?_⟩
  rw [BitVec.toNat_setWidth, hn, Nat.mod_eq_of_lt data.isLt]

/-- Settles O8: the fields of an assembled word are the ones it was assembled from. -/
theorem decodeOfEncodeIsTheInstruction : Obligations.DecodeOfEncodeIsTheInstruction := by
  intro i hi
  cases i with
  | nop | destroy | construct | process | setbs => exact decode_hostWordOf_eq_ok.2 (by simp)
  | rdcsr n =>
    have hn : n.toNat ≤ 2 := by simpa [Instr.wellFormed] using hi
    have hdata : n.toNat % 2 ^ 32 ≤ 2 := by omega
    exact decode_hostWordOf_eq_ok.2 (by simpa using hdata)
  | alloc size => exact decode_alloc size
  | free base => exact decode_free base
  | _ =>
    rw [encode, decode_stageWordOf]
    exact withUnusedZero_eq_ok.2 ⟨by simp, hi, rfl⟩

/-- Fields that decode are those of the instruction they decode to. -/
theorem encode_of_decodeFields {f : StageFields} {i : Instr} (h : decodeFields f = .ok i) :
    i.wellFormed = true ∧ encode i = .stage (stageWordOf f) := by
  obtain ⟨op, unit, rd, ra, rb, ki⟩ := f
  unfold decodeFields at h
  split at h
  case h_15 => cases h
  all_goals
    rename_i hop
    obtain rfl := nibble_eq_ofNat hop
    obtain ⟨hz, hw, rfl⟩ := withUnusedZero_eq_ok.1 h
    simp_all [encode]

theorem encode_of_decode_host {hop : Nibble} {data : BitVec 32} {i : Instr}
    (h : decode (.host (hostWordOf hop data)) = .ok i) :
    i.wellFormed = true ∧ encode i = .host (hostWordOf hop data) := by
  obtain ⟨rfl, rfl, rfl⟩ | ⟨rfl, rfl⟩ | ⟨rfl, rfl⟩ | ⟨rfl, rfl, rfl⟩ | ⟨rfl, rfl⟩ | ⟨rfl, hn, rfl⟩ :=
    decode_hostWordOf_eq_ok.1 h
  case inr.inr.inr.inr.inr =>
    obtain ⟨hw, he⟩ := setWidth_csr hn
    exact ⟨decide_eq_true hw, by rw [encode, he]⟩
  all_goals exact ⟨rfl, rfl⟩

/-- Every allocator word is the encoding of a request (R96). -/
theorem exists_encode_alloc (w : AllocWord) : ∃ i, i.wellFormed = true ∧ encode i = .alloc w := by
  rcases BitVec.eq_zero_or_eq_one (allocKind w) with hk | hk
  · exact ⟨.alloc (allocArg w), rfl, by rw [encode, ← hk, allocWordOf_fields]⟩
  · exact ⟨.free (allocArg w), rfl, by rw [encode, ← hk, allocWordOf_fields]⟩

/-- Settles O9: at each place, a word that decodes is assembled again from the fields it decoded by. -/
theorem onlyEncodedWordsDecode : Obligations.OnlyEncodedWordsDecode := by
  intro w i h
  cases w with
  | stage w =>
    obtain ⟨hz, hf⟩ := decode_stage_eq_ok.1 h
    rw [← stageWordOf_stageFields hz]
    exact encode_of_decodeFields hf
  | host w =>
    rw [← hostWordOf_fields w] at h ⊢
    exact encode_of_decode_host h
  | alloc w =>
    obtain ⟨j, hj, hw⟩ := exists_encode_alloc w
    have hij : decode (.alloc w) = .ok j := hw ▸ decodeOfEncodeIsTheInstruction j hj
    cases h.symm.trans hij
    exact ⟨hj, hw⟩

/-! ### The rows of the stage table -/

/-- The fields left by a mask. -/
def StageFields.masked (f m : StageFields) : StageFields :=
  ⟨f.op &&& m.op, f.unit &&& m.unit, f.rd &&& m.rd, f.ra &&& m.ra, f.rb &&& m.rb, f.ki &&& m.ki⟩

theorem and_eq_iff_fields (w m b : StageWord) :
    w &&& m = b ↔ stageZ w &&& stageZ m = stageZ b ∧ (stageFields w).masked (stageFields m) = stageFields b := by
  rw [stageWord_ext_iff]
  simp [stageZ, stageFields, StageFields.masked, BitVec.extractLsb'_and]

namespace Machine

theorem stageTable_Z : ∀ row ∈ stageTable, stageZ row.1 = 0#8 ∧ stageZ row.2 = BitVec.allOnes 8 := by
  simp [stageTable, stageZ]

/-- A row matches a word field by field. -/
theorem exists_row_iff (w : StageWord) :
    (∃ row ∈ stageTable, w &&& row.2 = row.1) ↔
      stageZ w = 0#8 ∧ ∃ row ∈ stageTable, (stageFields w).masked (stageFields row.2) = stageFields row.1 := by
  rw [← exists_and_left]
  refine exists_congr fun row => ?_
  rw [and_left_comm]
  refine and_congr_right fun hr => ?_
  obtain ⟨hz, hm⟩ := stageTable_Z row hr
  rw [and_eq_iff_fields, hz, hm, BitVec.and_allOnes]

/-! A mask digit of the table bounds the field it stands over. -/

theorem nibble_and_15 : ∀ x : Nibble, x &&& 15#4 = x := by decide
theorem nibble_and_14 : ∀ x : Nibble, x &&& 14#4 = 0#4 ↔ x.toNat ≤ 1 := by decide
theorem nibble_and_12 : ∀ x : Nibble, x &&& 12#4 = 0#4 ↔ x.toNat ≤ 3 := by decide
theorem nibble_and_8 : ∀ x : Nibble, x &&& 8#4 = 0#4 ↔ x.toNat ≤ 7 := by decide

/-- What the rows ask of the fields: the ones a stage does not use are zero, and `UNIT` and `KI` are in range (R101). -/
theorem exists_fieldsRow_iff (op unit rd ra rb ki : Nibble) :
    (∃ row ∈ stageTable, StageFields.masked ⟨op, unit, rd, ra, rb, ki⟩ (stageFields row.2) = stageFields row.1) ↔
      (op = 0#4 ∧ unit = 0#4 ∧ rd = 0#4 ∧ ra = 0#4 ∧ rb = 0#4 ∧ ki = 0#4) ∨
      (op = 1#4 ∧ unit = 0#4 ∧ ra = 0#4 ∧ ki = 0#4) ∨
      (op = 2#4 ∧ unit = 0#4 ∧ rb = 0#4 ∧ ki.toNat ≤ 3) ∨
      (op = 3#4 ∧ unit = 0#4 ∧ rb = 0#4 ∧ ki = 0#4) ∨
      (op = 4#4 ∧ unit = 0#4 ∧ rb = 0#4 ∧ ki = 0#4) ∨
      (op = 5#4 ∧ unit.toNat ≤ 1 ∧ rb = 0#4 ∧ ki = 0#4) ∨
      (op = 6#4 ∧ unit.toNat ≤ 3 ∧ rb = 0#4 ∧ ki = 0#4) ∨
      (op = 7#4 ∧ unit.toNat ≤ 7 ∧ rb = 0#4 ∧ ki = 0#4) ∨
      (op = 8#4 ∧ unit.toNat ≤ 1 ∧ ki = 0#4) ∨
      (op = 9#4 ∧ unit.toNat ≤ 3 ∧ ra = 0#4 ∧ rb = 0#4 ∧ ki.toNat ≤ 7) ∨
      (op = 10#4 ∧ unit = 0#4 ∧ rd = 0#4 ∧ rb = 0#4 ∧ ki = 0#4) ∨
      (op = 11#4 ∧ unit = 0#4 ∧ ra = 0#4 ∧ rb = 0#4 ∧ ki = 0#4) ∨
      (op = 12#4 ∧ unit = 0#4 ∧ rd = 0#4 ∧ ki = 0#4) ∨
      (op = 13#4 ∧ unit = 0#4 ∧ ra = 0#4 ∧ rb = 0#4 ∧ ki = 0#4) := by
  simp [stageTable, stageFields, StageFields.masked, nibble_and_15, nibble_and_14, nibble_and_12, nibble_and_8]

/-- The decoder accepts what a row admits, but for the two `AP` units the mask of its row leaves in (R105). -/
theorem exists_decodeFields_iff (f : StageFields) :
    (∃ i, decodeFields f = .ok i) ↔
      (∃ row ∈ stageTable, f.masked (stageFields row.2) = stageFields row.1) ∧
        ¬ (f.op = 7#4 ∧ (f.unit = 6#4 ∨ f.unit = 7#4)) := by
  obtain ⟨op, unit, rd, ra, rb, ki⟩ := f
  rw [exists_fieldsRow_iff]
  unfold decodeFields
  split
  case h_15 => simp_all [← BitVec.toNat_inj]
  all_goals
    rename_i hop
    obtain rfl := nibble_eq_ofNat hop
    simp [withUnusedZero_eq_ok, Instr.wellFormed, ← BitVec.toNat_inj] <;> omega

/-- The range of words the table excludes is `AP` of unit 6 or 7. -/
theorem spare_ap_iff (w : StageWord) :
    0x76000000 ≤ w.toNat ∧ w.toNat < 0x78000000 ↔
      (stageFields w).op = 7#4 ∧ ((stageFields w).unit = 6#4 ∨ (stageFields w).unit = 7#4) := by
  have := w.isLt
  simp only [stageFields, ← BitVec.toNat_inj, BitVec.extractLsb'_toNat, Nat.shiftRight_eq_div_pow, BitVec.toNat_ofNat]
  omega

/-! ### Reserved words -/

theorem step_refuses_reserved {s t : State} {w : PortWord} (hf : s.fetch = .word w t) (hd : ¬ ∃ i, decode w = .ok i) :
    ∃ e, step s = .refused (.reservedEncoding e) := by
  cases h : decode w with
  | ok i => exact absurd ⟨i, h⟩ hd
  | error e => exact ⟨e, by simp only [step, hf, h]⟩

/-- A host word that may be issued is what the step takes, if no allocator request is outstanding (R141). -/
theorem fetch_host {s : State} {h : HostIssue} {rest : List HostIssue} (ha : s.allocRequest = none)
    (hq : s.hostQueue = h :: rest) (hw : s.inProgress = true → h.waits = false) :
    s.fetch = .word (.host h.word) s.takeHost := by
  have hi : s.hostIssue = some h := by
    simp only [State.hostIssue, hq, Bool.and_eq_true]
    exact if_neg fun ⟨hp, hh⟩ => by simp [hw hp] at hh
  simp only [State.fetch, ha, hi]

/-- In a PROCESS, with every coming command waiting for its response, the step takes the stage word at `spc` (R22). -/
theorem fetch_stage {s : State} {w : StageWord} (ha : s.allocRequest = none) (hp : s.inProgress = true)
    (hw : ∀ h ∈ s.hostQueue, h.waits = true) (hr : s.rom[s.spc.toNat]? = some w) :
    s.fetch = .word (.stage w) s := by
  have hi : s.hostIssue = none := by
    unfold State.hostIssue
    split
    · exact if_pos (by simp [*])
    · rfl
  simp only [State.fetch, ha, hi, hp, State.stageWord, hr, if_true]

/-- Settles O12: the reserved words are the ones none of the six commands is. -/
theorem reservedHostWordsAreRefused : Obligations.ReservedHostWordsAreRefused := by
  intro hop data reserved
  have hdec : reserved ↔ ¬ ∃ i, decode (.host (hop ++ data)) = .ok i := by
    change reserved ↔ ¬ ∃ i, decode (.host (hostWordOf hop data)) = .ok i
    simp [reserved, decode_hostWordOf_eq_ok, exists_or, ← BitVec.toNat_inj]
    omega
  refine ⟨hdec.trans not_exists, fun s h rest ha hq hw hword hres => ?_⟩
  exact step_refuses_reserved (fetch_host ha hq hw) (hword ▸ hdec.1 hres)

/-- Settles O13: the table's rows admit the fields that decode. -/
theorem reservedStageWordsAreRefused : Obligations.ReservedStageWordsAreRefused := by
  intro w valid
  have hdec : valid ↔ ∃ i, decode (.stage w) = .ok i := by
    simp only [valid, exists_row_iff, spare_ap_iff, decode_stage_eq_ok, exists_and_left, exists_decodeFields_iff,
      and_assoc]
  exact ⟨hdec, fun s ha hp hw hr hv => step_refuses_reserved (fetch_stage ha hp hw hr) (hdec.not.1 hv)⟩

/-! ### The response code -/

/-- What an instruction leaves on the response port: what stood there, nothing yet, or a response of code 0; or, after a
failed CONSTRUCT, one of code 1 (R93, R250). -/
theorem exec_hostResponse {i : Instr} {s t : State} (h : exec i s = .next t) :
    t.hostResponse = s.hostResponse ∨ t.hostResponse = none ∨
      (∃ l r, t.hostResponse = some (responseWord 0#4 l r)) ∨
      ∃ x l r, i = .construct x ∧ t.hostResponse = some (responseWord 1#4 l r) := by
  cases i with
  | nop => obtain ⟨-, rfl⟩ := execNop_next h; exact .inr (.inr (.inl ⟨_, _, rfl⟩))
  | setbs => obtain ⟨-, rfl⟩ := execSetbs_next h; exact .inr (.inr (.inl ⟨_, _, rfl⟩))
  | rdcsr => obtain ⟨-, _, -, rfl⟩ := execRdcsr_next h; exact .inr (.inr (.inl ⟨_, _, rfl⟩))
  | destroy => obtain ⟨-, -, rfl⟩ := execDestroy_next h; exact .inr (.inr (.inl ⟨_, _, rfl⟩))
  | end_ => cases h; exact .inr (.inr (.inl ⟨_, _, rfl⟩))
  | process => obtain ⟨-, -, rfl⟩ := execProcess_next h; exact .inr (.inl rfl)
  | construct x =>
    obtain ⟨-, -, -, ⟨u, -, rfl⟩ | ⟨r, u, -, rfl⟩⟩ := execConstruct_next h
    · exact .inr (.inr (.inl ⟨_, _, rfl⟩))
    · exact .inr (.inr (.inr ⟨x, _, _, rfl, rfl⟩))
  | _ => rw [← exec_frame h]; exact .inl rfl

theorem code_eq_of_responseWord_eq {c c' : Nibble} {l r l' r' : BitVec 32}
    (h : responseWord c l r = responseWord c' l' r') : c = c' := by
  have hcode := congrArg (BitVec.extractLsb' 64 4) h
  simpa (disch := decide) only [responseWord, BitVec.extractLsb'_append_eq_of_le, Nat.reduceSub,
    BitVec.extractLsb'_append_eq_left, BitVec.extractLsb'_eq_self] using hcode

/-- Settles O46: a new response has code 0, or code 1 after a CONSTRUCT. -/
theorem onlyConstructAnswersAllocationFailed : Obligations.OnlyConstructAnswersAllocationFailed := by
  intro i s t code left right h hne ht hcode
  change _ = some (responseWord code left right) at ht
  obtain hs | hn | ⟨l, r, h0⟩ | ⟨x, l, r, hi, h1⟩ := exec_hostResponse h
  · exact absurd hs hne
  · rw [hn] at ht; cases ht
  · exact absurd (code_eq_of_responseWord_eq (Option.some.inj (ht.symm.trans h0))) hcode
  · exact ⟨code_eq_of_responseWord_eq (Option.some.inj (ht.symm.trans h1)), x, hi⟩

/-! ### The schedule and the tables -/

/-- Settles O10: the decoder evaluated on the 35 words. -/
theorem scheduleRomIsTheListedProgram : Obligations.ScheduleRomIsTheListedProgram := by
  unfold Obligations.ScheduleRomIsTheListedProgram
  decide

/-- Settles O11: the decoder evaluated on the ten words. -/
theorem writtenOutWordsDecode : Obligations.WrittenOutWordsDecode :=
  ⟨rfl, rfl, rfl, rfl, rfl, rfl, rfl, rfl, rfl, rfl⟩

end Machine
end Sys2Proof
end

section
/-! PROOFS. The statements drawn from spec/40_lifecycle_allocator.md: the two allocator requests (R130 to R132), where
CONSTRUCT completes and what it builds (R133), DESTROY (R135), the small commands (R136 to R138), the start of PROCESS
(R139), and the refused ones (R140, R141). -/

namespace Sys2Proof
namespace Machine

/-! ### Rounding against a binary32 value -/

section
variable {q v w : ℚ} {r c : Sample}

/-- A number at or above a binary32 value rounds at or above it. -/
theorem le_of_isRounded (h : IsRounded q r) (hr : valueOf r = some v) (hc : valueOf c = some w) (hwq : w ≤ q) :
    w ≤ v := by
  by_contra hvw
  have hnear := ((isRounded_finite_iff hr).1 h).2 c w hc
  rw [abs_of_nonpos (by linarith : v - q ≤ 0), abs_of_nonpos (by linarith : w - q ≤ 0)] at hnear
  obtain hn | hn | ⟨hn, -⟩ := hnear <;> linarith

/-- A number at or below a binary32 value rounds at or below it. -/
theorem isRounded_le (h : IsRounded q r) (hr : valueOf r = some v) (hc : valueOf c = some w) (hqw : q ≤ w) :
    v ≤ w := by
  by_contra hvw
  have hnear := ((isRounded_finite_iff hr).1 h).2 c w hc
  rw [abs_of_nonneg (by linarith : 0 ≤ v - q), abs_of_nonneg (by linarith : 0 ≤ w - q)] at hnear
  obtain hn | hn | ⟨hn, -⟩ := hnear <;> linarith

end

/-! ### The delays of the default parameters -/

theorem valueOf_plusZero : valueOf plusZero = some 0 := by
  rw [valueOf_finite (neg := false) (m := 0) (e := -149) (by decide), ratOf_eq_zero.2 rfl]

theorem valueOf_two_pow_25 : valueOf 0x4C000000#32 = some (2 ^ 25) := by
  rw [valueOf_finite (neg := false) (m := 2 ^ 23) (e := 2) (by decide), ratOf_nonneg]
  norm_num

/-- A delay no longer than a maximum whose product with the rate is within 2^24 has a defined number of samples: both
exact products are below 2^25, so the delay's rounds to at most that. -/
theorem truncI32_fmul_defined {rate delay maxDelay : Sample} {q d m n : ℚ} (hrate : valueOf rate = some q)
    (hq : 0 < q) (hd : valueOf delay = some d) (hm : valueOf maxDelay = some m) (hd0 : 0 ≤ d) (hdm : d ≤ m)
    (hn : valueOf (fmul 0 rate maxDelay) = some n) (hn24 : n ≤ 2 ^ 24) :
    ∃ ds, truncI32 (fmul 0 rate delay) = some ds := by
  have hmax : q * m < 2 ^ 25 := by
    by_contra hle
    have := le_of_isRounded (isRounded_fmul 0 hrate hm) hn valueOf_two_pow_25 (not_lt.1 hle)
    linarith
  have hround := isRounded_fmul 0 hrate hd
  have hlow : 0 ≤ q * d := mul_nonneg hq.le hd0
  have hhigh : q * d ≤ 2 ^ 25 := (mul_le_mul_of_nonneg_left hdm hq.le).trans hmax.le
  cases hv : valueOf (fmul 0 rate delay) with
  | none =>
    have := ((isRounded_overflow_iff hv).1 hround).1
    rw [abs_of_nonneg hlow] at this
    linarith
  | some v =>
    have hv0 : 0 ≤ v := le_of_isRounded hround hv valueOf_plusZero hlow
    have hv25 : v ≤ 2 ^ 25 := isRounded_le hround hv valueOf_two_pow_25 hhigh
    obtain ⟨ds, hds, -⟩ := truncI32_discards_fraction hv (by rw [abs_of_nonneg hv0]; linarith)
    exact ⟨ds, hds⟩

/-- A pattern below the infinity is worth its magnitude. -/
theorem valueOf_of_lt {x : Sample} (h : x.toNat < 255 * 2 ^ 23) :
    valueOf x = some ((unitsOf x.toNat : ℚ) / 2 ^ 149) := by
  rw [valueOf_units (by omega), if_pos (by omega), one_mul, Nat.mod_eq_of_lt (by omega)]

/-- Every default delay is a finite number of seconds, not below 0 and not above the ring's maximum (R6). -/
theorem defaults_delay_le_maxDelay (r : RingId) :
    ∃ d m, valueOf (Config.defaults.row r).delayS = some d ∧ valueOf (Config.defaults.row r).maxDelayS = some m ∧
      0 ≤ d ∧ d ≤ m := by
  have hrow : ∀ r : RingId, (Config.defaults.row r).delayS.toNat < 255 * 2 ^ 23 ∧
      (Config.defaults.row r).maxDelayS.toNat < 255 * 2 ^ 23 ∧
      unitsOf (Config.defaults.row r).delayS.toNat ≤ unitsOf (Config.defaults.row r).maxDelayS.toNat := by decide
  obtain ⟨hd, hm, hle⟩ := hrow r
  exact ⟨_, _, valueOf_of_lt hd, valueOf_of_lt hm, by positivity, by gcongr⟩

/-! ### Where CONSTRUCT completes -/

/-- What the end of CONSTRUCT's loop means for the command. -/
def Granting.answer : Granting → Result
  | .built t => .next t.constructed
  | .refusedAt r t => .next (t.raiseAllocationFailed r)
  | .undefined => .refused .conversionUndefined

theorem Granting.answer_cases (g : Granting) :
    (∃ t, g.answer = .next t) ∨ g = .undefined ∧ g.answer = .refused .conversionUndefined := by
  cases g with
  | built t => exact .inl ⟨_, rfl⟩
  | refusedAt r t => exact .inl ⟨_, rfl⟩
  | undefined => exact .inr ⟨rfl, rfl⟩

section
variable {s : State} {rate : Sample} (hidle : s.inProgress = false) (halone : s.overlapped = false)
  (hempty : s.ls = .empty)
include hidle halone hempty

/-- CONSTRUCT at an admitted rate answers what its loop over the rings comes to. -/
theorem execConstruct_admitted (hrate : s.params.admittedRate rate = true) :
    execConstruct rate s = (grantRings allRings [] { s with sampleRate := rate }).answer := by
  rw [execConstruct, State.whenAlone_alone hidle halone, State.whenLifecycle_legal hempty, if_pos hrate]
  rfl

theorem execConstruct_notAdmitted (hrate : ¬ s.params.admittedRate rate = true) :
    execConstruct rate s = .refused .sampleRateNotAdmitted := by
  rw [execConstruct, State.whenAlone_alone hidle halone, State.whenLifecycle_legal hempty, if_neg hrate]

end

/-- Where every delay in samples is defined, the loop of CONSTRUCT does not end in an undefined conversion. -/
theorem grantRings_ne_undefined (rs : List RingId) {done : List RingId} {s : State}
    (h : ∀ r, ∃ ds, s.params.ringDelaySamples s.sampleRate r = some ds) : grantRings rs done s ≠ .undefined := by
  induction rs generalizing done s with
  | nil => nofun
  | cons r rs ih =>
    obtain ⟨ds, hds⟩ := h r
    rw [grantRings, hds]
    split
    · nofun
    · exact ih h

/-- Settles O51: the rate's gate is the admitted rates, and past it only an undefined conversion refuses. -/
theorem constructCompletesOrIsRefusedByItsRateAndDelays :
    Obligations.ConstructCompletesOrIsRefusedByItsRateAndDelays := by
  intro s rate hidle halone hempty p admitted defined
  have hadm : admitted ↔ p.admittedRate rate = true := by
    rw [admittedRate_iff]
    exact ⟨fun ⟨q, hq, hpos, h⟩ => ⟨⟨q, hq, hpos⟩, h⟩, fun ⟨⟨q, hq, hpos⟩, h⟩ => ⟨q, hq, hpos, h⟩⟩
  have hanswer (ha : admitted) := execConstruct_admitted hidle halone hempty (hadm.1 ha)
  refine ⟨fun ha hd => ?_, fun ha hp r => ?_, fun ha _ => ?_, fun hna => ?_⟩
  · obtain hnext | ⟨hundef, -⟩ := (grantRings allRings [] { s with sampleRate := rate }).answer_cases
    · exact hnext.imp fun t ht => (hanswer ha).trans ht
    · exact absurd hundef (grantRings_ne_undefined allRings hd)
  · obtain ⟨q, hq, hpos, hprod⟩ := ha
    obtain ⟨n, hn, hle⟩ := hprod r
    rw [hp] at hn hle ⊢
    obtain ⟨d, m, hd, hm, hd0, hdm⟩ := defaults_delay_le_maxDelay r
    exact truncI32_fmul_defined hq hpos hd hm hd0 hdm hn hle
  · obtain ⟨t, ht⟩ | ⟨-, hundef⟩ := (grantRings allRings [] { s with sampleRate := rate }).answer_cases
    · exact .inl ⟨t, (hanswer ha).trans ht⟩
    · exact .inr ((hanswer ha).trans hundef)
  · exact execConstruct_notAdmitted hidle halone hempty (hadm.not.1 hna)

/-! ### The grants of CONSTRUCT -/

theorem liveContract_append_right {space : Nat} {newer older : List Region} (h : LiveContract space (newer ++ older)) :
    LiveContract space older :=
  ⟨fun g hg => h.1 g (List.mem_append_right _ hg), (List.pairwise_append.1 h.2).2.1⟩

theorem State.allocProposal_cons {s : State} {answer : Option (BitVec 32)} {rest : List (Option (BitVec 32))}
    (h : s.allocQueue = answer :: rest) : s.allocProposal = answer := by
  rw [State.allocProposal, h]

/-- The region of `4 * capacity` bytes, at a rate whose capacities fit (R133). -/
theorem State.regionOf_ringBytes {s : State} (hp : LegalParams s.params)
    (hrate : s.params.admittedRate s.sampleRate = true) (base : BitVec 32) (r : RingId) :
    regionOf base (s.ringBytes r) = ⟨base, s.params.ringCapacity s.sampleRate r⟩ := by
  have := ringCapacity_fits hp hrate r
  rw [regionOf, State.ringBytes, BitVec.toNat_ofNat, Nat.mod_eq_of_lt this, Nat.mul_div_cancel_left _ (by decide)]

/-- What CONSTRUCT's loop over the rings `rs`, each granted its base of `bases`, makes of `s`. -/
structure Granted (bases : Vector (BitVec 32) 12) (rs : List RingId) (s t : State) : Prop where
  params : t.params = s.params
  sampleRate : t.sampleRate = s.sampleRate
  queue : s.allocQueue = rs.map (fun r => some bases[r]) ++ t.allocQueue
  live : t.live = (rs.reverse.map fun r => ⟨bases[r], s.params.ringCapacity s.sampleRate r⟩) ++ s.live
  traffic : t.allocTraffic =
    s.allocTraffic ++ rs.map fun r => ⟨allocWordOf 0#1 (s.ringBytes r), some (answerWord 0 (some bases[r]))⟩
  rings : ∀ r ∈ rs, (t.ring r).base = bases[r] ∧ RingOk s.sampleRate (s.params.row r) (t.ring r) ∧
    (t.ring r).cursor = 0#32
  otherRings : ∀ r ∉ rs, t.ring r = s.ring r
  memory : ∀ w, DelayMemory.read t.dm w =
    if ∃ r ∈ rs, bases[r].toNat ≤ w ∧ w < bases[r].toNat + s.params.ringCapacity s.sampleRate r then unlisted
    else DelayMemory.read s.dm w

section
variable {bases : Vector (BitVec 32) 12} {s t u : State} {r : RingId} {rs : List RingId}

theorem Granted.refl : Granted bases [] s s where
  params := rfl
  sampleRate := rfl
  queue := rfl
  live := rfl
  traffic := (List.append_nil _).symm
  rings := nofun
  otherRings := fun _ _ => rfl
  memory := fun w => by simp

/-- The grants of a first ring and of the rings after it. -/
theorem Granted.trans (h₁ : Granted bases [r] s t) (h₂ : Granted bases rs t u) (hr : r ∉ rs) :
    Granted bases (r :: rs) s u where
  params := h₂.params.trans h₁.params
  sampleRate := h₂.sampleRate.trans h₁.sampleRate
  queue := by rw [h₁.queue, h₂.queue]; rfl
  live := by simp [h₂.live, h₁.live, h₁.params, h₁.sampleRate]
  traffic := by simp [h₂.traffic, h₁.traffic, State.ringBytes, h₁.params, h₁.sampleRate]
  rings := List.forall_mem_cons.2 ⟨by rw [h₂.otherRings r hr]; exact h₁.rings r (.head _), by
    rw [← h₁.params, ← h₁.sampleRate]; exact h₂.rings⟩
  otherRings := fun q hq => by
    obtain ⟨hqr, hqrs⟩ := List.ne_and_not_mem_of_not_mem_cons hq
    rw [h₂.otherRings q hqrs, h₁.otherRings q (by simpa using hqr)]
  memory := fun w => by
    rw [h₂.memory, h₁.memory, h₁.params, h₁.sampleRate]
    simp only [List.exists_mem_cons_iff, List.not_mem_nil, false_and, exists_false, or_false]
    exact (ite_or ..).symm.trans (if_congr or_comm rfl rfl)

end

section
variable {bases : Vector (BitVec 32) 12} {s : State} {r : RingId}

/-- A proposed base that the contract allows is granted. -/
theorem State.allocAnswer_ring {base : BitVec 32} {rest : List (Option (BitVec 32))} (hp : LegalParams s.params)
    (hrate : s.params.admittedRate s.sampleRate = true) (hq : s.allocQueue = some base :: rest)
    (hl : LiveContract s.params.addressSpace (⟨base, s.params.ringCapacity s.sampleRate r⟩ :: s.live)) :
    s.allocAnswer (s.ringBytes r) = some base :=
  State.allocAnswer_grant (State.allocProposal_cons hq) (by
    rw [State.regionOf_ringBytes hp hrate]
    exact (liveContract_cons (liveContract_tail hl) _).1 hl)

/-- One turn of the loop with a grant. -/
theorem granted_installRing {ds : BitVec 32} {rest : List (Option (BitVec 32))} (hp : LegalParams s.params)
    (hrate : s.params.admittedRate s.sampleRate = true) (hq : s.allocQueue = some bases[r] :: rest)
    (hl : LiveContract s.params.addressSpace (⟨bases[r], s.params.ringCapacity s.sampleRate r⟩ :: s.live))
    (hds : s.params.ringDelaySamples s.sampleRate r = some ds) :
    Granted bases [r] s ((s.allocate (s.ringBytes r)).installRing r bases[r] ds) where
  params := rfl
  sampleRate := rfl
  queue := by simp [hq]
  live := by
    rw [State.installRing_live, State.allocate_live, State.allocAnswer_ring hp hrate hq hl]
    exact congrArg (· :: s.live) (State.regionOf_ringBytes hp hrate bases[r] r)
  traffic := by
    rw [State.installRing_allocTraffic, State.allocate_traffic, State.allocAnswer_ring hp hrate hq hl]
    rfl
  rings := List.forall_mem_singleton.2 (by
    -- what a descriptor gets does not depend on the regions held
    have hempty : GrantedSoFar [] { s with live := [] } := ⟨hp, hrate, rfl, ⟨nofun, .nil⟩, nofun⟩
    refine ⟨?_, hempty.ringOk_installRing hds, ?_⟩ <;> rw [ring_installRing_same])
  otherRings := fun q hqr => ring_installRing_other _ _ _ (by simpa using hqr)
  memory := fun w => by
    have hcap := (ringCapacity_bounds hrate r).1
    have hbase : s.params.wordAddress bases[r] = bases[r].toNat :=
      wordAddress_of_lt (lt_of_lt_of_le (by simpa using hcap) (hl.1 _ (.head _)))
    rw [State.installRing_dm, DelayMemory.read_zeroFill, State.allocate_params, State.allocate_sampleRate, hbase]
    simp

/-- The loop of CONSTRUCT over rings that are all granted goes on with the rings after them. -/
theorem grantRings_granted (rs : List RingId) {later : List (Option (BitVec 32))} {s : State} (hnd : rs.Nodup)
    (hp : LegalParams s.params) (hrate : s.params.admittedRate s.sampleRate = true)
    (hds : ∀ r ∈ rs, ∃ ds, s.params.ringDelaySamples s.sampleRate r = some ds)
    (hq : s.allocQueue = rs.map (fun r => some bases[r]) ++ later)
    (hl : LiveContract s.params.addressSpace
      ((rs.reverse.map fun r => ⟨bases[r], s.params.ringCapacity s.sampleRate r⟩) ++ s.live)) (done : List RingId) :
    ∃ t, Granted bases rs s t ∧ ∀ more, grantRings (rs ++ more) done s = grantRings more (rs.reverse ++ done) t := by
  induction rs generalizing s done with
  | nil => exact ⟨s, .refl, fun _ => rfl⟩
  | cons r rs ih =>
    obtain ⟨hr, hnd⟩ := List.nodup_cons.1 hnd
    obtain ⟨⟨ds, hdsr⟩, hds⟩ := List.forall_mem_cons.1 hds
    rw [List.reverse_cons, List.map_append, List.append_assoc] at hl
    have hlr := liveContract_append_right hl
    have hstep := granted_installRing hp hrate hq hlr hdsr
    obtain ⟨t, ht, hrest⟩ := ih hnd (s := (s.allocate (s.ringBytes r)).installRing r bases[r] ds) hp hrate hds
      (by simp [hq]) (by rw [hstep.live]; exact hl) (r :: done)
    refine ⟨t, hstep.trans ht hr, fun more => ?_⟩
    rw [List.cons_append, grantRings, State.allocAnswer_ring hp hrate hq hlr, hdsr, List.reverse_cons,
      List.append_assoc]
    exact hrest more

end

theorem mem_allRings (r : RingId) : r ∈ allRings := by revert r; decide

theorem toList_eq_map_allRings {α : Type} (v : Vector α 12) : v.toList = allRings.map fun r => v[r] := by
  obtain ⟨f, rfl⟩ : ∃ f : Fin 12 → α, v = Vector.ofFn f := ⟨fun r => v[r], by simp⟩
  rw [Vector.toList, Vector.toArray_ofFn, Array.toList_ofFn, List.ofFn_eq_map]
  simp [allRings, List.finRange_succ]

/-- The word that an address inside a region of the address space names. -/
theorem wordAddress_in_region {p : Params} {base : BitVec 32} {words j : Nat}
    (h : base.toNat + words ≤ p.addressSpace) (hj : j < words) :
    p.wordAddress (base + BitVec.ofNat 32 j) = base.toNat + j := by
  have hspace : p.addressSpace ≤ 2 ^ 32 := Nat.pow_le_pow_right two_pos (min_le_right _ _)
  have haddr : (base + BitVec.ofNat 32 j).toNat = base.toNat + j := by
    rw [BitVec.toNat_add, BitVec.toNat_ofNat]
    omega
  rw [wordAddress_of_lt (by omega), haddr]

section
variable {bases : Vector (BitVec 32) 12} {rs : List RingId} {s t : State} {r : RingId}

theorem Granted.memRead_cell (h : Granted bases rs s t) (hr : r ∈ rs) {j : Nat}
    (hj : j < s.params.ringCapacity s.sampleRate r)
    (hfit : bases[r].toNat + s.params.ringCapacity s.sampleRate r ≤ s.params.addressSpace) :
    t.memRead (bases[r] + BitVec.ofNat 32 j) = plusZero := by
  rw [State.memRead, h.params, wordAddress_in_region hfit hj, h.memory, if_pos ⟨r, hr, by omega, by omega⟩]
  rfl

theorem Granted.memRead_other (h : Granted bases rs s t) {a : BitVec 32}
    (ha : ∀ r ∈ rs, s.params.wordAddress a < bases[r].toNat ∨
      bases[r].toNat + s.params.ringCapacity s.sampleRate r ≤ s.params.wordAddress a) : t.memRead a = s.memRead a := by
  rw [State.memRead, h.params, h.memory, if_neg fun ⟨r, hr, hlow, hhigh⟩ => by have := ha r hr; omega]
  rfl

end

theorem State.status_constructed (s : State) : s.constructed.status = 1#32 := by
  rw [State.status, State.constructed_afring, State.constructed_af, State.constructed_ls]
  rfl

/-- Settles O52: the loop grants all twelve rings, and the last part of CONSTRUCT starts the rest of the unit. -/
theorem constructBuildsTheUnit : Obligations.ConstructBuildsTheUnit := by
  intro s rate bases later hidle halone hempty hp hrate hds hq cap hl
  rw [toList_eq_map_allRings, List.map_map] at hq
  obtain ⟨u, hu, hloop⟩ := grantRings_granted allRings (s := { s with sampleRate := rate }) (by decide) hp hrate
    (fun r _ => hds r) hq hl []
  have hexec : exec (.construct rate) s = .next u.constructed := by
    have hbuilt := hloop []
    rw [List.append_nil, grantRings] at hbuilt
    exact (execConstruct_admitted hidle halone hempty hrate).trans (congrArg Granting.answer hbuilt)
  have hsr : u.sampleRate = rate := hu.sampleRate
  have hqueue : u.allocQueue = later := (List.append_cancel_left (hq.symm.trans hu.queue)).symm
  have hfit (r : RingId) : bases[r].toNat + cap r ≤ s.params.addressSpace :=
    hl.1 ⟨bases[r], cap r⟩ (List.mem_append_left _ (List.mem_map_of_mem (List.mem_reverse.2 (mem_allRings r))))
  refine ⟨u.constructed, hexec, rfl, u.status_constructed, hsr, fun r => hu.rings r (mem_allRings r),
    fun r j hj => hu.memRead_cell (mem_allRings r) hj (hfit r), fun a ha => hu.memRead_other fun r _ => ha r, hu.live,
    hu.traffic, ⟨u.draws, ?_⟩, rfl, rfl, rfl, wire_noWires _ rfl, rfl, rfl, ?_⟩
  · rw [State.constructed_lfo, hu.params, hsr]
    rfl
  · rw [← hqueue, ← hsr]
    exact execConstruct_frame hexec

/-! ### DESTROY -/

theorem releaseRings_traffic (rs : List RingId) (s : State) :
    (s.releaseRings rs).allocTraffic = s.allocTraffic ++ rs.map fun r => ⟨allocWordOf 1#1 (s.ring r).base, none⟩ := by
  induction rs generalizing s with
  | nil => exact (List.append_nil _).symm
  | cons r rs ih =>
    rw [State.releaseRings, ih, State.release_allocTraffic, List.append_assoc]
    rfl

/-- Releasing the rings whose regions are held leaves the allocator's coming answers alone. -/
theorem releaseRings_allocQueue (rs : List RingId) {s : State} {rest : List Region}
    (h : s.live = (rs.map fun r => (s.ring r).region) ++ rest) : (s.releaseRings rs).allocQueue = s.allocQueue := by
  induction rs generalizing s with
  | nil => rfl
  | cons r rs ih => exact (ih (State.release_head h)).trans (State.release_held (State.holds_head h)).1

/-- Settles O54: the twelve held regions are the rings', so each release takes the newest one back. -/
theorem destroyReleasesEveryRingOnce : Obligations.DestroyReleasesEveryRingOnce := by
  intro s hidle halone hready hlive _
  have hrings : s.live = (allRings.reverse.map fun r => (s.ring r).region) ++ [] := by
    rw [hlive, List.append_nil]
    rfl
  have hexec : exec .destroy s = .next (s.releaseRings allRings.reverse).destroyed :=
    (State.whenAlone_alone hidle halone _).trans (State.whenLifecycle_legal hready _)
  have hframe := execDestroy_frame hexec
  have hqueue : (s.releaseRings allRings.reverse).destroyed.allocQueue = s.allocQueue :=
    releaseRings_allocQueue _ hrings
  rw [frame, hqueue] at hframe
  exact ⟨_, hexec, rfl, releaseRings_live _ hrings, rfl, releaseRings_traffic _ s, rfl,
    fun a => by rw [← hframe]; rfl, hframe⟩

/-! ### The allocator requests -/

theorem State.allocAnswer_exhausted {s : State} (h : s.allocProposal = none) (size : BitVec 32) :
    s.allocAnswer size = none := by
  rw [State.allocAnswer, h]

/-- A proposal that breaks the contract is not granted. -/
theorem State.allocAnswer_denied {s : State} {size base : BitVec 32} (hp : s.allocProposal = some base)
    (hg : ¬ grantable s.params.addressSpace s.live (regionOf base size) = true) : s.allocAnswer size = none := by
  simp [State.allocAnswer, hp, hg]

/-- The answer word of a null result has `OK = 0` (R96). -/
theorem toNat_answerWord_none (n : Nat) : (answerWord n none).toNat < 2 ^ 32 := by
  rw [answerWord, BitVec.toNat_append]
  simpa using (Config.unspecifiedWord n).isLt

/-- Settles O55: ALLOC answers what the allocator's filtered proposal is. -/
theorem allocGrantsADisjointRegionOrNothing : Obligations.AllocGrantsADisjointRegionOrNothing := by
  intro s size hl
  refine ⟨s.allocate size, rfl, State.liveContract_allocate hl size, ?_⟩
  intro null granted
  have hnull (h : s.allocAnswer size = none) : null := by
    refine ⟨by rw [State.allocate_live, h], answerWord s.draws none, toNat_answerWord_none _, ?_⟩
    rw [State.allocate_traffic, h]
    rfl
  have hgranted {base : BitVec 32} (h : s.allocAnswer size = some base) : granted base := by
    refine ⟨by rw [State.allocate_live, h]; rfl, ?_⟩
    rw [State.allocate_traffic, h]
    rfl
  refine ⟨?_, fun rest hq => ?_, fun base rest hq => ⟨fun hc => ?_, fun hc => ?_⟩, rfl, fun _ => rfl⟩
  · cases h : s.allocAnswer size with
    | none => exact .inl (hnull h)
    | some base => exact .inr ⟨base, hgranted h⟩
  · exact hnull (State.allocAnswer_exhausted (State.allocProposal_cons hq) size)
  · exact hgranted (State.allocAnswer_grant (State.allocProposal_cons hq) ((liveContract_cons hl _).1 hc))
  · exact hnull (State.allocAnswer_denied (State.allocProposal_cons hq) ((liveContract_cons hl _).not.1 hc))

/-- No two held regions have one base, so a release takes off the live set all that have the base it names. -/
theorem LiveContract.eraseP_eq_filter {space : Nat} {live : List Region} (h : LiveContract space live)
    (base : BitVec 32) : live.eraseP (·.base == base) = live.filter (·.base != base) := by
  induction live with
  | nil => rfl
  | cons g live ih =>
    by_cases hg : g.base = base
    · have hothers : ∀ k ∈ live, (k.base != base) = true := fun k hk => by
        rw [bne_iff_ne, ← hg]
        exact (((List.pairwise_cons.1 h.2).1 k hk).2).symm
      rw [List.eraseP_cons_of_pos (by simpa using hg), List.filter_cons_of_neg (by simpa using hg),
        List.filter_eq_self.2 hothers]
    · rw [List.eraseP_cons_of_neg (by simpa using hg), List.filter_cons_of_pos (by simpa using hg),
        ih (liveContract_tail h)]

/-- Settles O56: whether the base is held decides what FREE does to the allocator. -/
theorem freeReturnsTheNamedRegion : Obligations.FreeReturnsTheNamedRegion := by
  intro s base hl
  refine ⟨fun g hg hbase => ?_, fun hne => ?_⟩
  · have hheld : s.holds base = true := List.any_eq_true.2 ⟨g, hg, by simpa using hbase⟩
    obtain ⟨hqueue, hdraws⟩ := State.release_held hheld
    have hframe := exec_frame (i := .free base) (s := s) rfl
    rw [frame, hqueue, hdraws] at hframe
    exact ⟨s.release base, rfl, hl.eraseP_eq_filter base, rfl, hframe, fun _ => rfl⟩
  · have hfree : s.holds base = false := List.any_eq_false.2 fun g hg => by simpa using hne g hg
    have hlive := State.release_notHeld hfree
    have hframe := exec_frame (i := .free base) (s := s) rfl
    rw [frame, hlive] at hframe
    exact ⟨s.release base, rfl, hlive, rfl, hframe, fun _ => rfl⟩

/-! ### The small commands -/

/-- `STATUS` as a number: the three flags stand in fields of their own (R23, R138). -/
theorem State.toNat_status (s : State) :
    s.status.toNat = 16 * s.afring.toNat + (if s.af then 2 else 0) + (if s.ls = .ready then 1 else 0) := by
  have hrdy : s.ls.rdy = decide (s.ls = .ready) := by cases s.ls <;> rfl
  have hfields : ∀ (ring : Nibble) (af rdy : Bool),
      ((ring.setWidth 32 <<< 4) ||| ((BitVec.ofBool af).setWidth 32 <<< 1) ||| (BitVec.ofBool rdy).setWidth 32).toNat =
        16 * ring.toNat + (if af then 2 else 0) + (if rdy then 1 else 0) := by decide
  rw [State.status, hrdy, hfields]
  simp only [decide_eq_true_eq]

theorem execRdcsr_answers {s : State} {n : Nibble} {v : BitVec 32} (hidle : s.inProgress = false)
    (halone : s.overlapped = false) (hv : s.csr n = some v) : execRdcsr n s = .next (s.respond 0#4 0#32 v) := by
  rw [execRdcsr, State.whenAlone_alone hidle halone, hv]

/-- Settles O48: alone, each of the three commands answers; RDCSR what its register holds. -/
theorem nopSetbsAndRdcsrAnswer : Obligations.NopSetbsAndRdcsrAnswer := fun s hidle halone =>
  ⟨State.whenAlone_alone hidle halone _, fun _ => State.whenAlone_alone hidle halone _,
    execRdcsr_answers (n := 0#4) hidle halone rfl, execRdcsr_answers (n := 1#4) hidle halone rfl,
    s.status, execRdcsr_answers (n := 2#4) hidle halone rfl, s.toNat_status⟩

/-- Settles O49: past its two gates PROCESS writes the named elements only. -/
theorem processLatchesAndStartsTheSchedule : Obligations.ProcessLatchesAndStartsTheSchedule := by
  intro s x hidle hready
  have hexec : exec (.process x) s = .next _ :=
    (State.whenIdle_idle hidle _).trans (State.whenLifecycle_legal hready _)
  exact ⟨_, hexec, rfl, wire_noWires _ rfl, rfl, rfl, rfl, exec_frame hexec, fun _ => rfl⟩

/-! ### Protocol violations -/

theorem State.whenIdle_refused {s : State} (h : s.inProgress = true) (next : Result) :
    s.whenIdle next = .refused .commandInProgress := by
  rw [State.whenIdle, if_pos h]

theorem State.whenLifecycle_violation {s : State} {ls legal : Lifecycle} (h : s.ls = ls) (hne : ls ≠ legal)
    (next : Result) : s.whenLifecycle legal next = .refused (.protocolViolation ls) := by
  rw [State.whenLifecycle, h, if_neg hne]

/-- Settles O50: each command passes its gates, and each gate refuses what it is there for. -/
theorem protocolViolationsAreRefused : Obligations.ProtocolViolationsAreRefused := by
  refine ⟨fun s hidle halone hls => ?_, fun s hidle hls x => ?_, fun s hidle halone hls x => ?_,
    fun s hp x n => ?_, fun s h rest hq hwaits x n => ?_⟩
  · exact (State.whenAlone_alone hidle halone _).trans (State.whenLifecycle_violation hls (by decide) _)
  · exact (State.whenIdle_idle hidle _).trans (State.whenLifecycle_violation hls (by decide) _)
  · exact (State.whenAlone_alone hidle halone _).trans (State.whenLifecycle_violation hls (by decide) _)
  · have hrefused := State.whenAlone_refused (s := s) (.inl hp)
    exact ⟨hrefused _, hrefused _, State.whenIdle_refused hp _, hrefused _, hrefused _, hrefused _⟩
  · have hrefused := State.whenAlone_refused (s := s) (.inr (by rw [State.overlapped_cons hq, hwaits]; rfl))
    exact ⟨hrefused _, hrefused _, hrefused _, hrefused _, hrefused _⟩

end Machine
end Sys2Proof
end

section
/-! PROOFS. The statement drawn from spec/41_lfo.md: the step of the quadrature oscillator (R152). -/

namespace Sys2Proof
namespace Machine

/-- A wire write adds its wire to those that may differ. -/
theorem SameWiresBut.setWire {s t : State} {written : List Nibble} (h : SameWiresBut s t written) (i : Nibble)
    (v : Sample) : SameWiresBut s (t.setWire i v) (written ++ [i]) := by
  intro j hj
  rw [List.mem_append, List.mem_singleton, not_or] at hj
  obtain ⟨hold, hne⟩ := hj
  exact (t.wire_setWire_other v hne).trans (h j hold)

/-- Settles O31: the cosine's write stands unless the sine's, which comes last, goes to the same wire (R105). -/
theorem lfoStepsTheOscillator : Obligations.LfoStepsTheOscillator := by
  intro s rd rb c v
  have hexec : exec (.lfo rd rb) s =
      .next (((({ s with lfo := ⟨s.lfo.k, c, v⟩ }.setWire rd c).setWire rb v).drawn 4).advance) := rfl
  have hkept : SameWiresBut s { s with lfo := ⟨s.lfo.k, c, v⟩ } [] := fun _ _ => rfl
  refine ⟨_, hexec, rfl, ?sine, fun hne => ?cosine, rfl, rfl, ?others, exec_frame hexec, fun _ => rfl⟩
  case sine => rw [State.wire_advance, State.wire_drawn, State.wire_setWire_same]
  case cosine =>
    rw [State.wire_advance, State.wire_drawn, State.wire_setWire_other _ _ hne, State.wire_setWire_same]
  case others => exact (hkept.setWire rd c).setWire rb v

end Machine
end Sys2Proof
end

section
/-! PROOFS. The statements drawn from spec/42_filters.md: one step of the DC blocker (R161) and of the HiShelf filters
(R163). -/

namespace Sys2Proof
namespace Machine

/-- R102: `HSH` unit `u` is filter instance `u`. -/
theorem hshOperand_index (u : Fin 2) : hshOperand (BitVec.ofNat 4 u.val) = some u := by
  revert u; decide

/-- A filter stage ends by writing its output to a wire, drawing and advancing: the wire then holds the output. -/
theorem State.wire_filterOutput (s : State) (rd : Nibble) (y : Sample) (n : Nat) :
    ((s.setWire rd y).drawn n).advance.wire rd = some y := by
  rw [State.wire_advance, State.wire_drawn, State.wire_setWire_same]

/-- Settles O33: the instance written holds the input, and a vector write leaves the other instance alone. -/
theorem hshFiltersItsInput : Obligations.HshFiltersItsInput := by
  intro s u rd ra x hx n k y
  have hexec : exec (.hsh (BitVec.ofNat 4 u.val) rd ra) s = .next _ := execHsh_completes (hshOperand_index u) hx rd
  have hkept : SameWiresBut s { s with hsh := s.hsh.set u x } [] := fun _ _ => rfl
  refine ⟨_, hexec, ?stored, fun q hq => ?other, State.wire_filterOutput _ rd y 4, rfl, rfl, hkept.setWire rd y,
    exec_frame hexec, fun _ => rfl⟩
  case stored => exact Vector.getElem_set_self u.isLt
  case other => exact Vector.getElem_set_ne u.isLt q.isLt (Fin.val_ne_of_ne hq.symm)

/-- Settles O32: unit 0 completes with `dcbOutput`, which is the output of R161. -/
theorem dcbFiltersItsInput : Obligations.DcbFiltersItsInput := by
  intro s rd ra x hx y
  have hexec : exec (.dcb 0#4 rd ra) s = .next _ := execDcb_completes rfl hx rd
  have hkept : SameWiresBut s { s with dcb := ⟨x, y⟩ } [] := fun _ _ => rfl
  exact ⟨_, hexec, rfl, State.wire_filterOutput _ rd y 3, rfl, rfl, hkept.setWire rd y, exec_frame hexec,
    fun _ => rfl⟩

end Machine
end Sys2Proof
end

section
/-! PROOFS. The statements drawn from spec/43_ring_delay.md: the capacity of a ring (R171), one DLY (R176) and one TAP
(R178), and what a delay line returns and its taps see over any list of samples (R173, R177, R179). -/

namespace Sys2Proof
namespace Machine

/-! ### The capacity of a ring -/

/-- The least integer of R171 bounds what the binary32 value does. -/
theorem ceilNat_le_iff {x : Sample} {q : ℚ} (h : valueOf x = some q) (b : Nat) : ceilNat x ≤ b ↔ q ≤ b := by
  obtain ⟨neg, m, e, hc, rfl⟩ := classify_of_valueOf h
  unfold ceilNat
  rw [hc]
  cases neg with
  | false => rw [ratOf_nonneg]; exact ceilPart_le_iff m e b
  | true =>
    have hp : (0 : ℚ) ≤ m * 2 ^ e := by positivity
    have hb : (0 : ℚ) ≤ b := Nat.cast_nonneg b
    rw [ratOf_neg]
    exact ⟨fun _ => by linarith, fun _ => Nat.zero_le b⟩

theorem leastPowerOfTwo_eq_two_pow (n : Nat) : ∃ e, leastPowerOfTwo n = 2 ^ e := by
  unfold leastPowerOfTwo
  split
  · exact ⟨0, rfl⟩
  · exact ⟨_, rfl⟩

theorem le_leastPowerOfTwo (n : Nat) : n ≤ leastPowerOfTwo n := by
  unfold leastPowerOfTwo
  split
  · assumption
  · have := Nat.lt_log2_self (n := n - 1)
    omega

/-- Settles O18: an integer bounds the product exactly when it bounds the product's ceiling, and the capacity is the
least power of two not below that. -/
theorem capacityIsTheLeastPowerOfTwo : Obligations.CapacityIsTheLeastPowerOfTwo := by
  intro rate maxd n hn
  have hceil : ∀ b : Nat, ceilNat (rateProduct rate maxd) ≤ b ↔ n ≤ b := ceilNat_le_iff hn
  refine ⟨leastPowerOfTwo_eq_two_pow _, (hceil _).1 (le_leastPowerOfTwo _), fun e he => ?_⟩
  exact leastPowerOfTwo_le ((hceil _).2 (by exact_mod_cast he))

/-! ### One DLY and one TAP -/

/-- Settles O34: the cell is read in the state before the write; the wire write and the counter touch no ring and no
word. -/
theorem dlyReadsThenWritesItsRing : Obligations.DlyReadsThenWritesItsRing := by
  intro s unit rd ra r x hu hx hm d
  have hexec : exec (.dly unit rd ra) s = .next _ := execDly_completes (dlyOperand_of_mem hu) hx rd
  have hkept : SameWiresBut s (s.ringWriteAdvance r x) [] := fun _ _ => rfl
  exact ⟨_, hexec, State.wire_filterOutput _ rd _ 0, State.storesOnly_ringWriteAdvance hm r x,
    State.ring_ringWriteAdvance_same s r x, fun _ hq => State.ring_ringWriteAdvance_other s x hq,
    hkept.setWire rd _, rfl, rfl, exec_frame hexec⟩

theorem execTap_completes {s : State} {unit rd ki : Nibble} {r : RingId} {tap : TapRow} {acc : Sample} {ts : BitVec 32}
    (hu : dlyOperand unit = some r) (ht : s.params.tapOperand ki = some tap) (hd : s.wire rd = some acc)
    (hts : tapSamples s.draws s.sampleRate tap.offsetS = some ts) :
    execTap unit rd ki s =
      .next (((s.setWire rd (tapOutput (s.draws + 1) acc tap.gain (s.ringRead r ((s.ring r).tapIndex ts)))).drawn
        3).advance) := by
  simp only [execTap, hu, ht, State.withWire_some hd, hts]

/-- Settles O35: the ring is only read, and the accumulator wire is the one element written. -/
theorem tapAddsAGainedCell : Obligations.TapAddsAGainedCell := by
  intro s unit rd ki r acc ts hu hacc tap hts d
  have hexec : exec (.tap unit rd (BitVec.ofNat 4 ki.val)) s = .next _ :=
    execTap_completes (dlyOperand_of_mem hu) (tapOperand_index s.params ki) hacc hts
  have hkept : SameWiresBut s s [] := fun _ _ => rfl
  exact ⟨_, hexec, State.wire_filterOutput s rd _ 3, rfl, rfl, hkept.setWire rd _, exec_frame hexec, fun _ => rfl⟩

/-! ### A ring in its region -/

/-- The descriptor of a ring of `2^e` cells that lies in the address space, the cursor inside it (R30, R61, R62). -/
structure Ring.Fits (p : Params) (e : Nat) (d : Ring) : Prop where
  size : e ≤ 24
  capacity : d.capacity = BitVec.ofNat 32 (2 ^ e)
  mask : d.mask = d.capacity - 1#32
  cursor : d.cursor.toNat < 2 ^ e
  region : d.base.toNat + 2 ^ e ≤ p.addressSpace

section
variable {p : Params} {e : Nat} {d : Ring}

theorem Ring.Fits.le_width (h : d.Fits p e) : e ≤ 32 := h.size.trans (by decide)

/-- The mask takes an index to its low `e` bits, the number of a cell: the effective address in a ring at 0. -/
theorem Ring.Fits.toNat_and_mask (h : d.Fits p e) (i : BitVec 32) : (i &&& d.mask).toNat = (i.setWidth e).toNat := by
  have haddr := Ring.toNat_address (d := { d with base := 0#32 }) (h.size.trans (by decide)) h.capacity h.mask i
  have hlt : i.toNat % 2 ^ e < 2 ^ 32 := (Nat.mod_le ..).trans_lt i.isLt
  rwa [Ring.address, BitVec.zero_add, BitVec.toNat_ofNat, Nat.zero_mod, Nat.zero_add, Nat.mod_eq_of_lt hlt,
    ← BitVec.toNat_setWidth] at haddr

/-- The effective address of an index is that of its cell. -/
theorem Ring.Fits.address_eq (h : d.Fits p e) (i : BitVec 32) :
    d.address i = d.base + BitVec.ofNat 32 (i.setWidth e).toNat := by
  rw [Ring.address, ← h.toNat_and_mask, BitVec.ofNat_toNat, BitVec.setWidth_eq]

theorem Ring.Fits.wordAddress_address (h : d.Fits p e) (i : BitVec 32) :
    p.wordAddress (d.address i) = d.base.toNat + (i.setWidth e).toNat := by
  rw [h.address_eq, wordAddress_in_region h.region (i.setWidth e).isLt]

/-- The cursor is inside the ring, so a write there needs no mask. -/
theorem Ring.Fits.writeAddress_eq (h : d.Fits p e) : d.writeAddress = d.address d.cursor := by
  have hcell : d.cursor &&& d.mask = d.cursor := BitVec.eq_of_toNat_eq <| by
    rw [h.toNat_and_mask, BitVec.toNat_setWidth, Nat.mod_eq_of_lt h.cursor]
  rw [Ring.writeAddress, Ring.address, hcell]

/-- In the cells of the ring the cursor advances by one. -/
theorem Ring.Fits.setWidth_cursor_advanced (h : d.Fits p e) :
    d.advanced.cursor.setWidth e = d.cursor.setWidth e + 1#e := by
  have hmask : d.advanced.cursor.setWidth e = (d.cursor + 1#32).setWidth e := BitVec.eq_of_toNat_eq <| by
    rw [BitVec.toNat_setWidth, Ring.advanced, h.toNat_and_mask, Nat.mod_eq_of_lt (BitVec.isLt _)]
  rw [hmask, BitVec.setWidth_add _ _ h.le_width, BitVec.setWidth_ofNat_of_le h.le_width]

theorem Ring.Fits.toNat_cursor_advanced (h : d.Fits p e) :
    d.advanced.cursor.toNat = (d.cursor.toNat + 1) % 2 ^ e := by
  have hwrap : 2 ^ e ∣ 2 ^ 32 := Nat.pow_dvd_pow 2 h.le_width
  rw [Ring.advanced, h.toNat_and_mask, BitVec.toNat_setWidth, BitVec.toNat_add, Nat.mod_mod_of_dvd _ hwrap]
  rfl

theorem Ring.Fits.advanced (h : d.Fits p e) : d.advanced.Fits p e where
  size := h.size
  capacity := h.capacity
  mask := h.mask
  cursor := h.toNat_cursor_advanced ▸ Nat.mod_lt _ (Nat.two_pow_pos e)
  region := h.region

end

/-! ### What a delay line holds -/

/-- Ring `r` holds the samples of `past`, the last one first, and `+0.0` from before them: the cell `k + 1` behind the
cursor is `past[k]`, and an index names a cell by its low `e` bits. -/
structure LineHolds (r : RingId) (e : Nat) (past : List Sample) (s : State) : Prop where
  memory : Memory.wf s.dm = true
  fits : (s.ring r).Fits s.params e
  cells : ∀ k < 2 ^ e, ∀ i : BitVec 32, i.setWidth e + BitVec.ofNat e (k + 1) = (s.ring r).cursor.setWidth e →
    s.ringRead r i = past.getD k plusZero

/-- After a write at the cursor every index reads as before, but for those that name the cursor's cell. -/
theorem ringRead_ringWriteAdvance {s : State} {r : RingId} {e : Nat} (hm : Memory.wf s.dm = true)
    (hd : (s.ring r).Fits s.params e) (x : Sample) (i : BitVec 32) :
    (s.ringWriteAdvance r x).ringRead r i =
      if i.setWidth e = (s.ring r).cursor.setWidth e then x else s.ringRead r i := by
  have haddr : ((s.ringWriteAdvance r x).ring r).address i = (s.ring r).address i := by
    rw [State.ring_ringWriteAdvance_same]; rfl
  have hword : s.params.wordAddress ((s.ring r).address i) = s.params.wordAddress (s.ring r).writeAddress ↔
      i.setWidth e = (s.ring r).cursor.setWidth e := by
    rw [hd.writeAddress_eq, hd.wordAddress_address, hd.wordAddress_address, Nat.add_left_cancel_iff, BitVec.toNat_inj]
  have hread := memRead_memWrite hm (s.ring r).writeAddress ((s.ring r).address i) x
  rw [State.ringRead, haddr]
  exact hread.trans (by simp only [hword, State.ringRead])

section
variable {r : RingId} {e : Nat} {past : List Sample} {s : State}

/-- A zero-filled ring holds no sample. -/
theorem lineHolds_nil (hm : Memory.wf s.dm = true) (hd : (s.ring r).Fits s.params e)
    (hzero : ∀ j < 2 ^ e, s.memRead ((s.ring r).base + BitVec.ofNat 32 j) = plusZero) : LineHolds r e [] s where
  memory := hm
  fits := hd
  cells k _ i _ := by rw [State.ringRead, hd.address_eq]; exact hzero _ (i.setWidth e).isLt

/-- `RingWriteAdvance` puts its sample in front: it overwrites the cell a whole capacity old and moves every other one
a step back. -/
theorem LineHolds.ringWriteAdvance (h : LineHolds r e past s) (x : Sample) :
    LineHolds r e (x :: past) (s.ringWriteAdvance r x) where
  memory := wf_ringWriteAdvance r x h.memory
  fits := by rw [State.ring_ringWriteAdvance_same]; exact h.fits.advanced
  cells k hk i hi := by
    rw [State.ring_ringWriteAdvance_same, h.fits.setWidth_cursor_advanced, BitVec.ofNat_add, ← add_assoc,
      add_left_inj] at hi
    rw [ringRead_ringWriteAdvance h.memory h.fits]
    cases k with
    | zero => rw [if_pos (by simpa using hi)]; rfl
    | succ j =>
      have hother : i.setWidth e ≠ (s.ring r).cursor.setWidth e := by
        rw [← hi, Ne, left_eq_add, ← BitVec.toNat_inj, BitVec.toNat_ofNat, Nat.mod_eq_of_lt hk]
        exact Nat.succ_ne_zero j
      rw [if_neg hother]
      exact h.cells j (by omega) i hi

/-- The read of a lag in samples, from 1 to the capacity (R176, R177). -/
theorem LineHolds.read_behind (h : LineHolds r e past s) {lag : BitVec 32} (hpos : 1 ≤ lag.toNat)
    (hcap : lag.toNat ≤ 2 ^ e) :
    s.ringRead r ((s.ring r).cursor - lag) = past.getD (lag.toNat - 1) plusZero := by
  refine h.cells _ (by omega) _ ?_
  rw [Nat.sub_add_cancel hpos, ← BitVec.setWidth_ofNat_of_le h.fits.le_width, BitVec.ofNat_toNat, BitVec.setWidth_eq,
    ← BitVec.setWidth_add _ _ h.fits.le_width, BitVec.sub_add_cancel]

end

/-! ### A run of the delay line -/

/-- The state after one sample of `delayRun` on the line of ring `r`. -/
def State.delayed (s : State) (r : RingId) (x : Sample) : State :=
  (((s.setWire 1#4 x).ringWriteAdvance r x).setWire 0#4 (s.ringRead r (s.ring r).delayIndex)).advance

/-- The state after a list of samples. -/
def State.fed (s : State) (r : RingId) (xs : List Sample) : State := xs.foldl (fun t x => t.delayed r x) s

section
variable {unit : Nibble} {r : RingId}

theorem exec_dly_delayed (hu : dlyOperand unit = some r) (s : State) (x : Sample) :
    exec (.dly unit 0#4 1#4) (s.setWire 1#4 x) = .next (s.delayed r x) :=
  execDly_completes hu (State.wire_setWire_same s 1#4 x) 0#4

theorem State.wire_delayed (s : State) (r : RingId) (x : Sample) :
    (s.delayed r x).wire 0#4 = some (s.ringRead r (s.ring r).delayIndex) :=
  State.wire_setWire_same ..

theorem State.ring_delayed (s : State) (r : RingId) (x : Sample) : (s.delayed r x).ring r = (s.ring r).advanced :=
  State.ring_ringWriteAdvance_same ..

/-- A run completes, and its output `n` is what the line reads after the first `n` samples. -/
theorem delayRun_eq (hu : dlyOperand unit = some r) (xs : List Sample) (s : State) :
    delayRun unit xs s = some (s.fed r xs, (List.range xs.length).map fun n =>
      some ((s.fed r (xs.take n)).ringRead r ((s.fed r (xs.take n)).ring r).delayIndex)) := by
  induction xs generalizing s with
  | nil => rfl
  | cons x xs ih =>
    rw [delayRun, exec_dly_delayed hu]
    simp only [ih, Option.map_some, State.wire_delayed, List.length_cons, List.range_succ_eq_map, List.map_cons,
      List.map_map]
    rfl

/-- The wires and the counter, which `delayed` also writes, hold no cell. -/
theorem LineHolds.delayed {e : Nat} {past : List Sample} {s : State} (h : LineHolds r e past s) (x : Sample) :
    LineHolds r e (x :: past) (s.delayed r x) := by
  obtain ⟨hm, hd, hcells⟩ := h.ringWriteAdvance x
  exact ⟨hm, hd, hcells⟩

theorem LineHolds.fed {e : Nat} (xs : List Sample) {past : List Sample} {s : State} (h : LineHolds r e past s) :
    LineHolds r e (xs.reverse ++ past) (s.fed r xs) := by
  induction xs generalizing past s with
  | nil => exact h
  | cons x xs ih =>
    rw [List.reverse_cons, List.append_assoc]
    exact ih (h.delayed x)

theorem State.delaySamples_fed (xs : List Sample) (s : State) :
    ((s.fed r xs).ring r).delaySamples = (s.ring r).delaySamples := by
  induction xs generalizing s with
  | nil => rfl
  | cons x xs ih => exact (ih (s.delayed r x)).trans (by rw [State.ring_delayed]; rfl)

end

/-- The sample given `lag - 1` calls before the last one. -/
theorem getD_reverse_behind (xs : List Sample) {lag : Nat} (hpos : 0 < lag) :
    xs.reverse.getD (lag - 1) plusZero =
      if h : lag ≤ xs.length ∧ 0 < lag then xs[xs.length - lag] else plusZero := by
  split
  · rw [List.getD_reverse _ (by omega), Nat.sub_sub, Nat.add_sub_cancel' hpos, List.getD_eq_getElem]
  · exact List.getD_eq_default _ _ (by rw [List.length_reverse]; omega)

section
variable {r : RingId} {e : Nat}

/-- A ring that held no sample reads, at a lag from 1 to the capacity, the sample given `lag - 1` calls before the
last. -/
theorem LineHolds.read_fed {s : State} (h : LineHolds r e [] s) (xs : List Sample) {back : BitVec 32} {lag : Nat}
    (hback : back.toNat = lag) (hpos : 0 < lag) (hcap : lag ≤ 2 ^ e) :
    (s.fed r xs).ringRead r (((s.fed r xs).ring r).cursor - back) =
      if h : lag ≤ xs.length ∧ 0 < lag then xs[xs.length - lag] else plusZero := by
  subst hback
  rw [(h.fed xs).read_behind hpos hcap, List.append_nil, getD_reverse_behind xs hpos]

/-- A list of samples advances the cursor as often, modulo the capacity. -/
theorem LineHolds.toNat_cursor_fed (xs : List Sample) {past : List Sample} {s : State} (h : LineHolds r e past s) :
    ((s.fed r xs).ring r).cursor.toNat = ((s.ring r).cursor.toNat + xs.length) % 2 ^ e := by
  induction xs generalizing past s with
  | nil => exact (Nat.mod_eq_of_lt h.fits.cursor).symm
  | cons x xs ih =>
    have hnext : ((s.fed r (x :: xs)).ring r).cursor.toNat = _ := ih (h.delayed x)
    rw [hnext, State.ring_delayed, h.fits.toNat_cursor_advanced, Nat.mod_add_mod, List.length_cons, add_assoc,
      add_comm 1]

/-- A tap of `ts` samples reads the cell `ts` behind the cursor, and a whole capacity behind it for `ts = 0` (R179). -/
theorem Ring.Fits.tapIndex_behind {p : Params} {d : Ring} (h : d.Fits p e) {ts : BitVec 32} (hts : ts.toNat ≤ 2 ^ e) :
    ∃ back : BitVec 32, back.toNat = (if ts = 0#32 then 2 ^ e else ts.toNat) ∧ 0 < back.toNat ∧
      back.toNat ≤ 2 ^ e ∧ d.address (d.tapIndex ts) = d.address (d.cursor - back) := by
  have hcap := Ring.toNat_capacity (h.size.trans (by decide)) h.capacity
  by_cases hzero : ts = 0#32
  · refine ⟨d.capacity, by rw [if_pos hzero, hcap], hcap ▸ Nat.two_pow_pos e, hcap.le, ?_⟩
    rw [Ring.tapIndex, hzero, BitVec.sub_zero]
  · refine ⟨ts, by rw [if_neg hzero], BitVec.toNat_pos_of_ne_zero hzero, hts, ?_⟩
    have hwhole : d.capacity.setWidth e = 0#e := BitVec.eq_of_toNat_eq <| by
      rw [BitVec.toNat_setWidth, hcap, Nat.mod_self, BitVec.toNat_zero]
    have hcell : (d.tapIndex ts + d.capacity).setWidth e = (d.tapIndex ts).setWidth e := by
      rw [BitVec.setWidth_add _ _ h.le_width, hwhole, BitVec.add_zero]
    have hindex : d.tapIndex ts + d.capacity = d.cursor - ts := by rw [Ring.tapIndex]; ring
    rw [h.address_eq, ← hcell, hindex, ← h.address_eq]

end

/-- Settles O19: output `n` is the read `delay_samples` behind the cursor after the first `n` samples. -/
theorem delayLineReturnsItsInputLater : Obligations.DelayLineReturnsItsInputLater := by
  intro s unit r e xs hu hm he hcap hmask hcur hregion hpos hle hzero
  have hline : LineHolds r e [] s := lineHolds_nil hm ⟨he, hcap, hmask, hcur, hregion⟩ hzero
  refine ⟨_, _, delayRun_eq (dlyOperand_of_mem hu) xs s, by simp, fun n hn => ?_⟩
  rw [List.getElem?_map, List.getElem?_range hn, Option.map_some, Ring.delayIndex,
    State.delaySamples_fed, hline.read_fed (xs.take n) rfl hpos hle]
  simp only [List.length_take_of_le hn.le, List.getElem_take]
  by_cases hold : n < (s.ring r).delaySamples.toNat
  · rw [dif_neg (by omega), if_pos hold]
  · rw [dif_pos (by omega), if_neg hold, List.getElem?_eq_getElem (by omega)]

/-- Settles O20: the ring holds the samples given, the last one first, and a tap reads it at its lag. -/
theorem tapSeesTheSamplesGiven : Obligations.TapSeesTheSamplesGiven := by
  intro s t unit r e xs ys hu hm he hcap hmask hcur hregion hzero hrun
  have hline : LineHolds r e [] s := lineHolds_nil hm ⟨he, hcap, hmask, hcur, hregion⟩ hzero
  obtain rfl : s.fed r xs = t := by
    rw [delayRun_eq (dlyOperand_of_mem hu)] at hrun
    exact congrArg Prod.fst (Option.some.inj hrun)
  refine ⟨hline.toNat_cursor_fed xs, fun ts hts => ?_⟩
  obtain ⟨back, hlag, hpos, hroom, haddr⟩ := (hline.fed xs).fits.tapIndex_behind hts
  exact (congrArg _ haddr).trans (hline.read_fed xs hlag (hlag ▸ hpos) (hlag ▸ hroom))

end Machine
end Sys2Proof
end

section
/-! PROOFS. The statements drawn from spec/44_allpass.md: one step of the Schroeder allpass (R191) and of the modulated
allpass (R193, R194, R196), and their agreement at an integer delay (R197). -/

namespace Sys2Proof
namespace Machine

/-! ### One AP and one VAP -/

/-- The end both allpass stages share: the word at the cursor, the cursor and the destination wire change. -/
theorem allpass_effect {s : State} (hm : Memory.wf s.dm = true) (n drawn : Nat) (r : RingId) (k x d : Sample)
    (rd : Nibble) :
    let w := allpassWritten n k x d
    let t := ((s.allpass n r k x d rd).drawn drawn).advance
    t.wire rd = some (allpassOutput (n + 2) k w d) ∧ StoresOnly s t (s.ring r).writeAddress w ∧
      t.ring r = (s.ring r).advanced ∧ SameRingsBut s t r ∧ SameWiresBut s t [rd] ∧ t.spc = s.spc + 1#6 ∧
      t.draws = s.draws + drawn ∧ OnlyWiresAndRings s t := by
  intro w t
  have hkept : SameWiresBut s (s.ringWriteAdvance r w) [] := fun _ _ => rfl
  exact ⟨State.wire_filterOutput _ rd _ drawn, State.storesOnly_ringWriteAdvance hm r w,
    State.ring_ringWriteAdvance_same s r w, fun _ hq => State.ring_ringWriteAdvance_other s w hq,
    hkept.setWire rd _, rfl, rfl, rfl⟩

/-- Settles O36: the delayed word is read before the write that `allpass_effect` describes. -/
theorem apIsASchroederAllpass : Obligations.ApIsASchroederAllpass :=
  fun s _ rd _ r _ x hu hx hm =>
    ⟨_, execAp_completes (apOperand_of_mem s.params _ hu) hx rd, allpass_effect hm s.draws 4 r _ x _ rd⟩

/-- Settles O37: the interpolated word is read before the write that `allpass_effect` describes. -/
theorem vapIsAModulatedAllpass : Obligations.VapIsAModulatedAllpass :=
  fun s _ rd _ _ r _ x _ _ hu hx ho hm hi =>
    ⟨_, execVap_completes (vapOperand_of_mem s.params _ hu) hx ho hi rd,
      allpass_effect hm (s.draws + 7) 11 r _ x _ rd⟩

/-! ### Finite patterns and their values -/

/-- A step of the magnitude is a step of the significand at its last place. -/
theorem strictMono_unitsOf : StrictMono unitsOf := by
  refine strictMono_nat_of_lt_succ fun mag => ?_
  obtain ⟨t, sig, hmag, hsig, hplace⟩ :
      ∃ t sig, mag = t * 2 ^ 23 + sig ∧ sig < 2 ^ 24 ∧ (t = 0 ∨ 2 ^ 23 ≤ sig) :=
    ⟨mag / 2 ^ 23 - 1, mag - (mag / 2 ^ 23 - 1) * 2 ^ 23, by omega, by omega, by omega⟩
  rw [hmag, add_assoc, unitsOf_pack hsig.le hplace, unitsOf_pack hsig (hplace.imp_right Nat.le_succ_of_le)]
  exact Nat.mul_lt_mul_of_pos_right sig.lt_succ_self (Nat.two_pow_pos t)

section
variable {x y r : Sample} {v : ℚ}

/-- A finite pattern's exponent field is not 255. -/
theorem magnitude_lt_of_valueOf (h : valueOf x = some v) : x.toNat % 2 ^ 31 < 255 * 2 ^ 23 := by
  by_contra hexp
  have hx := x.isLt
  rw [valueOf_eq, if_pos (by omega)] at h
  cases h

theorem eq_units_of_valueOf (h : valueOf x = some v) :
    v = (if x.toNat < 2 ^ 31 then (1 : ℚ) else -1) * (unitsOf (x.toNat % 2 ^ 31) / 2 ^ 149) := by
  rw [valueOf_units (magnitude_lt_of_valueOf h), mul_div_assoc] at h
  exact (Option.some.inj h).symm

theorem abs_eq_units_of_valueOf (h : valueOf x = some v) : |v| = unitsOf (x.toNat % 2 ^ 31) / 2 ^ 149 := by
  have hu : (0 : ℚ) ≤ unitsOf (x.toNat % 2 ^ 31) / 2 ^ 149 := by positivity
  rw [eq_units_of_valueOf h, abs_mul, abs_of_nonneg hu]
  split <;> simp

/-- Every finite binary32 lies below the overflow bound. -/
theorem abs_lt_overflow_of_valueOf (h : valueOf x = some v) : |v| < 2 ^ 128 - 2 ^ 103 := by
  have hmag : x.toNat % 2 ^ 31 ≤ 253 * 2 ^ 23 + (2 ^ 24 - 1) := by have := magnitude_lt_of_valueOf h; omega
  have hle := strictMono_unitsOf.monotone hmag
  rw [unitsOf_pack (by decide) (.inr (by decide))] at hle
  rw [abs_eq_units_of_valueOf h, div_lt_iff₀ (by positivity)]
  calc (unitsOf (x.toNat % 2 ^ 31) : ℚ) ≤ ((2 ^ 24 - 1) * 2 ^ 253 : Nat) := by exact_mod_cast hle
    _ < (2 ^ 128 - 2 ^ 103) * 2 ^ 149 := by norm_num

/-- The sign bit of a value other than zero is its sign. -/
theorem toNat_lt_iff_of_valueOf (h : valueOf x = some v) (hv : v ≠ 0) : x.toNat < 2 ^ 31 ↔ 0 < v := by
  have habs : 0 < |v| := abs_pos.2 hv
  have heq := eq_units_of_valueOf h
  rw [← abs_eq_units_of_valueOf h] at heq
  by_cases hs : x.toNat < 2 ^ 31
  · rw [if_pos hs, one_mul] at heq
    exact iff_of_true hs (heq ▸ habs)
  · rw [if_neg hs] at heq
    exact iff_of_false hs (by linarith)

/-- A value other than zero has one pattern. -/
theorem eq_of_valueOf_eq (hx : valueOf x = some v) (hy : valueOf y = some v) (hv : v ≠ 0) : x = y := by
  have hmag : x.toNat % 2 ^ 31 = y.toNat % 2 ^ 31 := by
    have habs := (abs_eq_units_of_valueOf hx).symm.trans (abs_eq_units_of_valueOf hy)
    exact strictMono_unitsOf.injective (by exact_mod_cast (div_left_inj' (by positivity)).1 habs)
  have hsign : x.toNat < 2 ^ 31 ↔ y.toNat < 2 ^ 31 :=
    (toNat_lt_iff_of_valueOf hx hv).trans (toNat_lt_iff_of_valueOf hy hv).symm
  have hx := x.isLt
  have hy := y.isLt
  exact BitVec.eq_of_toNat_eq (by omega)

/-- A value that is a binary32 rounds to itself. -/
theorem valueOf_of_isRounded (h : IsRounded v r) (hx : valueOf x = some v) : valueOf r = some v := by
  obtain ⟨q, hr⟩ : ∃ q, valueOf r = some q := by
    unfold IsRounded at h
    rw [if_pos (abs_lt_overflow_of_valueOf hx)] at h
    exact h.imp fun _ hr => hr.1
  rw [hr, le_antisymm (isRounded_le h hr hx le_rfl) (le_of_isRounded h hr hx le_rfl)]

/-- Adding a zero of either sign changes no finite pattern but `-0.0`. -/
theorem fadd_zero_right (n : Nat) (hx : valueOf x = some v) (hy : valueOf y = some 0) (hne : x ≠ 0x80000000#32) :
    fadd n x y = x := by
  by_cases hv : v = 0
  · subst hv
    obtain ⟨s, m, e, hc, hzero⟩ := classify_of_valueOf hx
    rw [ratOf_eq_zero] at hzero
    subst hzero
    rw [fadd_exact_zero n hx hy (add_zero 0), if_neg fun h => hne h.1]
    cases s with
    | false => exact (eq_zero_of_classify hc).symm
    | true => exact absurd (eq_zero_of_classify hc) hne
  · have hsum := isRounded_fadd n hx hy
    rw [add_zero] at hsum
    exact eq_of_valueOf_eq (valueOf_of_isRounded hsum hx) hx hv

end

/-! ### Integers of 24 bits -/

/-- A whole number below 2^24 fits the significand. -/
theorem exists_unitsOf_eq {m : Nat} (hm : m < 2 ^ 24) : ∃ mag < 255 * 2 ^ 23, unitsOf mag = m * 2 ^ 149 := by
  by_cases hzero : m = 0
  · exact ⟨0, by decide, by rw [hzero, zero_mul]; rfl⟩
  · have hlog : Nat.log2 m < 24 := (Nat.log2_lt hzero).2 hm
    obtain ⟨j, hj⟩ := Nat.exists_eq_add_of_le (Nat.le_of_lt_succ hlog)
    have hlow : 2 ^ 23 ≤ m * 2 ^ j := by
      rw [hj, pow_add]; exact Nat.mul_le_mul_right _ (Nat.log2_self_le hzero)
    have hhigh : m * 2 ^ j < 2 ^ 24 := by
      have := Nat.mul_lt_mul_of_pos_right (Nat.lt_log2_self (n := m)) (Nat.two_pow_pos j)
      rwa [← pow_add, show m.log2 + 1 + j = 24 by omega] at this
    refine ⟨(149 - j) * 2 ^ 23 + m * 2 ^ j, by omega, ?_⟩
    rw [unitsOf_pack hhigh.le (.inr hlow), mul_assoc, ← pow_add, Nat.add_sub_cancel' (by omega)]

theorem exists_valueOf_natCast {m : Nat} (hm : m < 2 ^ 24) : ∃ x, valueOf x = some (m : ℚ) := by
  obtain ⟨mag, hmag, hu⟩ := exists_unitsOf_eq hm
  have hx : (BitVec.ofNat 32 mag).toNat = mag := Nat.mod_eq_of_lt (by omega)
  refine ⟨BitVec.ofNat 32 mag, ?_⟩
  rw [valueOf_of_lt (hx.trans_lt hmag), hx, hu, Nat.cast_mul, Nat.cast_pow, Nat.cast_ofNat,
    mul_div_cancel_right₀ _ (by positivity)]

theorem exists_valueOf_intCast {z : ℤ} (hz : z.natAbs < 2 ^ 24) : ∃ x, valueOf x = some (z : ℚ) := by
  obtain ⟨x, hx⟩ := exists_valueOf_natCast hz
  rw [Nat.cast_natAbs] at hx
  rcases abs_choice z with hpos | hneg
  · exact ⟨x, by rw [hx, hpos]⟩
  · exact ⟨fneg x, by rw [valueOf_fneg, hx, hneg]; simp⟩

/-- Rounding keeps an integer of 24 bits. -/
theorem valueOf_of_isRounded_intCast {z : ℤ} {r : Sample} (h : IsRounded z r) (hz : z.natAbs < 2 ^ 24) :
    valueOf r = some (z : ℚ) := by
  obtain ⟨x, hx⟩ := exists_valueOf_intCast hz
  exact valueOf_of_isRounded h hx

theorem valueOf_i2f {i : BitVec 32} (hi : i.toInt.natAbs < 2 ^ 24) : valueOf (i2f i) = some (i.toInt : ℚ) :=
  valueOf_of_isRounded_intCast (isRounded_i2f i) hi

theorem toInt_of_lt {i : BitVec 32} (hi : i.toNat < 2 ^ 24) : i.toInt = i.toNat :=
  BitVec.toInt_eq_toNat_of_lt (by omega)

theorem toInt_sub_of_lt {i j : BitVec 32} (hi : i.toNat < 2 ^ 24) (hj : j.toNat < 2 ^ 24) :
    (i - j).toInt = i.toInt - j.toInt := by
  rw [BitVec.toInt_sub, toInt_of_lt hi, toInt_of_lt hj]
  exact Int.bmod_eq_of_le (by omega) (by omega)

/-- The difference of two indices of 24 bits is exact and an integer of 24 bits. -/
theorem valueOf_fsub_i2f (n : Nat) {i j : BitVec 32} (hi : i.toNat < 2 ^ 24) (hj : j.toNat < 2 ^ 24) :
    (i - j).toInt.natAbs < 2 ^ 24 ∧ valueOf (fsub n (i2f i) (i2f j)) = some ((i - j).toInt : ℚ) := by
  have hiInt := toInt_of_lt hi
  have hjInt := toInt_of_lt hj
  have hdiff := toInt_sub_of_lt hi hj
  have hround := isRounded_fsub n (valueOf_i2f (i := i) (by omega)) (valueOf_i2f (i := j) (by omega))
  rw [← Int.cast_sub, ← hdiff] at hround
  have hsmall : (i - j).toInt.natAbs < 2 ^ 24 := by omega
  exact ⟨hsmall, valueOf_of_isRounded_intCast hround hsmall⟩

/-! ### Where the position is an integer -/

section
variable {pos : Sample} {i : BitVec 32} (hpos : valueOf pos = some (i.toInt : ℚ)) (hi : i.toInt.natAbs < 2 ^ 24)
include hpos hi

theorem floorI32_intCast : floorI32 pos = some i := by
  have habs : |i.toInt| < 2 ^ 31 := by rw [Int.abs_eq_natAbs]; omega
  obtain ⟨j, hj, hfloor⟩ := floorI32_is_floor hpos (by exact_mod_cast habs)
  rw [Int.floor_intCast] at hfloor
  rw [hj, BitVec.eq_of_toInt_eq hfloor]

/-- R194: at an integer position the fraction is a zero, whose product with the finite difference of the two middle
cells adds nothing to the first one. -/
theorem interpolate_at_integer {s : State} {r : RingId} (n : Nat) {v1 v3 : ℚ}
    (hcell : valueOf (s.ringRead r i) = some v1)
    (hdiff : valueOf (fsub (n + 1) (s.ringRead r (i + 1#32)) (s.ringRead r i)) = some v3)
    (hne : s.ringRead r i ≠ 0x80000000#32) : s.interpolate n r pos i = s.ringRead r i := by
  have hfrac := isRounded_fsub n hpos (valueOf_i2f hi)
  rw [sub_self] at hfrac
  have hproduct := isRounded_fmul (n + 2) (valueOf_of_isRounded hfrac valueOf_plusZero) hdiff
  rw [zero_mul] at hproduct
  exact fadd_zero_right (n + 3) hcell (valueOf_of_isRounded hproduct valueOf_plusZero) hne

end

/-- Settles O38: the position is the exact integer `cursor - delay_samples`, so the interpolation is the cell there and
the rest of the stage is that of `AP`. -/
theorem vapWithAnIntegerDelayIsTheFixedAllpass : Obligations.VapWithAnIntegerDelayIsTheFixedAllpass := by
  intro s unit rd ra rb r u x offset v1 v2 v3 hu hx ho hm k c n i d y2 w hcursor hdelay hlag hcell _ hdiff hne
  obtain ⟨hi, hpos⟩ := valueOf_fsub_i2f (n + 2) hcursor hdelay
  rw [← hlag] at hpos
  have hexec := execVap_completes (vapOperand_of_mem s.params _ hu) hx ho (floorI32_intCast hpos hi) rd
  have hread : s.interpolate (n + 3) r (readPosition n c offset s.sampleRate) i = d :=
    interpolate_at_integer hpos hi (n + 3) hcell hdiff hne
  rw [hread] at hexec
  obtain ⟨hout, hstore, -⟩ := allpass_effect hm (n + 7) 11 r k x d rd
  exact ⟨_, hexec, hout, hstore⟩

end Machine
end Sys2Proof
end

section
/-! PROOFS. The statements drawn from spec/45_reverb_unit.md: the glue stages (R210 to R216), the step and the stage
counter (R239), where a PROCESS can stop (R237), and the 36 steps of a PROCESS as the one function of R230. -/

namespace Sys2Proof

/-- The stages that take a `floor_i32` (R196). -/
def Instr.floors : Instr → Bool
  | .vap _ _ _ _ => true
  | _ => false

/-- The stages that take a `trunc_i32` (R178). -/
def Instr.truncates : Instr → Bool
  | .tap _ _ _ => true
  | _ => false

namespace Machine

/-! ### The glue stages -/

/-- A stage that ends by writing its output `y` to a wire, drawing and advancing, changes nothing else. -/
theorem wireOutput_effect (s : State) (rd : Nibble) (y : Sample) (n : Nat) :
    let t := ((s.setWire rd y).drawn n).advance
    t.wire rd = some y ∧ t.spc = s.spc + 1#6 ∧ t.draws = s.draws + n ∧ SameWiresBut s t [rd] ∧ OnlyWires s t ∧
      SameMemory s t := by
  have hkept : SameWiresBut s s [] := fun _ _ => rfl
  exact ⟨State.wire_filterOutput s rd y n, rfl, rfl, hkept.setWire rd y, rfl, fun _ => rfl⟩

/-- Settles O25: both write their word to one wire, and no draw is made. -/
theorem inAndClrWriteOneWire : Obligations.InAndClrWriteOneWire := fun s rd =>
  ⟨⟨_, rfl, wireOutput_effect s rd s.inLatch 0⟩, ⟨_, rfl, wireOutput_effect s rd plusZero 0⟩⟩

theorem execMulc_completes {s : State} {rd ra ki : Nibble} {c x : Sample} (hc : s.params.constOperand ki = some c)
    (hx : s.wire ra = some x) : execMulc rd ra ki s = .next (((s.setWire rd (fmul s.draws x c)).drawn 1).advance) := by
  simp only [execMulc, hc, State.withWire_some hx]

/-- Settles O26: each index of the constant table selects its constant. -/
theorem mulcScalesByAConstant : Obligations.MulcScalesByAConstant := fun s rd _ ki _ hx =>
  ⟨_, execMulc_completes (constOperand_index s.params ki) hx, wireOutput_effect s rd _ 1⟩

/-- Settles O27: `fb` is an operand and not in the frame. -/
theorem addfAddsTheFeedbackScalar : Obligations.AddfAddsTheFeedbackScalar := fun s rd _ _ hx =>
  ⟨_, State.withWire_some hx _, wireOutput_effect s rd _ 1⟩

theorem execStf_completes {s : State} {ra : Nibble} {x : Sample} (hx : s.wire ra = some x) :
    execStf ra s = .next { s with fb := x }.advance := State.withWire_some hx _

/-- Settles O28: the wire's word goes to `fb`. -/
theorem stfStoresTheFeedbackScalar : Obligations.StfStoresTheFeedbackScalar := fun _ _ _ hx =>
  ⟨_, execStf_completes hx, rfl, rfl, rfl, fun _ => rfl⟩

theorem execOut_completes {s : State} {ra rb : Nibble} {l r : Sample} (hl : s.wire ra = some l)
    (hr : s.wire rb = some r) : execOut ra rb s = .next { s with outL := l, outR := r }.advance :=
  (State.withWire_some hl _).trans (State.withWire_some hr _)

/-- Settles O29: two wires read, two latches written. -/
theorem outDeliversTheStereoPair : Obligations.OutDeliversTheStereoPair := fun _ _ _ _ _ hl hr =>
  ⟨_, execOut_completes hl hr, rfl, rfl, rfl, rfl, fun _ => rfl⟩

/-- Settles O30: `END` reads no wire, so it completes in every state. -/
theorem endCompletesTheCall : Obligations.EndCompletesTheCall := fun _ =>
  ⟨_, rfl, rfl, rfl, rfl, rfl, fun _ => rfl⟩

/-! ### The step and the counter -/

theorem step_of_fetch {s t : State} {w : PortWord} {i : Instr} (hf : s.fetch = .word w t) (hd : decode w = .ok i) :
    step s = exec i t := by
  simp only [step, hf, hd]

theorem fetch_request {s : State} {w : AllocWord} (ha : s.allocRequest = some w) :
    s.fetch = .word (.alloc w) s.takeRequest := by
  simp only [State.fetch, ha]

theorem fetch_waiting {s : State} (ha : s.allocRequest = none) (hq : s.hostQueue = []) (hp : s.inProgress = false) :
    s.fetch = .waiting := by
  simp [State.fetch, State.hostIssue, ha, hq, hp]

/-- Settles O6: the fetch takes the first of the three places that has a word, and a decoded word is executed. -/
theorem stepRunsTheDecodedInstruction : Obligations.StepRunsTheDecodedInstruction := by
  refine ⟨fun s w i ha hd => ?request, fun s h rest i ha hq hw hd => ?command, fun s w i ha hp hw hr hd => ?stage,
    fun s ha hq hp => ?waiting⟩
  case request => exact step_of_fetch (fetch_request ha) hd
  case command =>
    rw [step_of_fetch (fetch_host ha hq hw) hd, State.takeHost, hq]
    rfl
  case stage => exact step_of_fetch (fetch_stage ha hp hw hr) hd
  case waiting => simp only [step, fetch_waiting ha hq hp]

/-- Settles O42: every stage's effect advances the counter, unless it is `END`. -/
theorem stagesAdvanceTheCounterByOne : Obligations.StagesAdvanceTheCounterByOne := by
  intro i s t hi h
  split
  · subst i
    cases h
    rfl
  · exact (exec_stage_effect hi h).counter ‹_›

/-! ### Where a stage can stop -/

section
variable {u ki : Nibble}

theorem exists_dlyOperand (h : u.toNat ≤ 3) : ∃ r, dlyOperand u = some r := by
  revert u; decide

theorem exists_hshOperand (h : u.toNat ≤ 1) : ∃ r, hshOperand u = some r := by
  revert u; decide

theorem exists_apOperand (p : Params) (h : u.toNat ≤ 5) : ∃ r k, p.apOperand u = some (r, k) := by
  have hrow : ∀ u : Nibble, u.toNat ≤ 5 → ∃ q ∈ apUnits, q.1 = u := by decide
  obtain ⟨q, hq, rfl⟩ := hrow u h
  exact ⟨_, _, apOperand_of_mem p q hq⟩

theorem exists_vapOperand (p : Params) (h : u.toNat ≤ 1) : ∃ r k, p.vapOperand u = some (r, k) := by
  have hrow : ∀ u : Nibble, u.toNat ≤ 1 → ∃ q ∈ vapUnits, q.1 = u := by decide
  obtain ⟨q, hq, rfl⟩ := hrow u h
  exact ⟨_, _, vapOperand_of_mem p q hq⟩

theorem exists_constOperand (p : Params) (h : ki.toNat ≤ 3) : ∃ c, p.constOperand ki = some c :=
  ⟨_, Vector.getElem?_eq_getElem (Nat.lt_succ_of_le h)⟩

theorem exists_tapOperand (p : Params) (h : ki.toNat ≤ 7) : ∃ j : Fin 8, p.tapOperand ki = some p.topology.taps[j] :=
  ⟨⟨ki.toNat, Nat.lt_succ_of_le h⟩, Vector.getElem?_eq_getElem (Nat.lt_succ_of_le h)⟩

end

/-- Where a stage stops although its fields are in range and its wires hold values: at an undefined conversion. -/
def StopsAt (i : Instr) (s : State) : Prop :=
  i.floors = true ∨
    i.truncates = true ∧ ∃ j : Fin 8, tapSamples s.draws s.sampleRate s.params.topology.taps[j].offsetS = none

section
variable {s : State} {unit rd ra rb ki : Nibble}

theorem execVap_answers (hw : unit.toNat ≤ 1) (ha : s.hasWire ra) (hb : s.hasWire rb) :
    (∃ t, execVap unit rd ra rb s = .next t) ∨ execVap unit rd ra rb s = .refused .conversionUndefined := by
  obtain ⟨r, k, hu⟩ := exists_vapOperand s.params hw
  obtain ⟨x, hx⟩ := Option.isSome_iff_exists.1 ha
  obtain ⟨offset, ho⟩ := Option.isSome_iff_exists.1 hb
  cases hi : floorI32 (readPosition s.draws (s.ring r) offset s.sampleRate) with
  | some i => exact .inl ⟨_, execVap_completes hu hx ho hi rd⟩
  | none => exact .inr (execVap_undefined hu hx ho hi)

theorem execTap_answers (hu : unit.toNat ≤ 3) (hk : ki.toNat ≤ 7) (hd : s.hasWire rd) :
    (∃ t, execTap unit rd ki s = .next t) ∨ execTap unit rd ki s = .refused .conversionUndefined ∧
      ∃ j : Fin 8, tapSamples s.draws s.sampleRate s.params.topology.taps[j].offsetS = none := by
  obtain ⟨r, hr⟩ := exists_dlyOperand hu
  obtain ⟨j, hj⟩ := exists_tapOperand s.params hk
  obtain ⟨acc, hacc⟩ := Option.isSome_iff_exists.1 hd
  cases hts : tapSamples s.draws s.sampleRate s.params.topology.taps[j].offsetS with
  | some ts => exact .inl ⟨_, execTap_completes hr hj hacc hts⟩
  | none => exact .inr ⟨execTap_undefined hr hj hacc hts, j, hts⟩

/-- A stage with its fields in range that finds its wires written completes or stops at an undefined conversion. -/
theorem exec_stage_answers {i : Instr} (hi : isStage i = true) (hw : i.wellFormed = true)
    (hr : ∀ w ∈ i.reads, s.hasWire w) :
    (∃ t, exec i s = .next t) ∨ exec i s = .refused .conversionUndefined ∧ StopsAt i s := by
  have hread (w : Nibble) (hm : w ∈ i.reads) : ∃ x, s.wire w = some x := Option.isSome_iff_exists.1 (hr w hm)
  cases i with
  | end_ | lfo | in_ | clr => exact .inl ⟨_, rfl⟩
  | addf rd ra =>
    obtain ⟨x, hx⟩ := hread ra (List.mem_singleton_self ra)
    exact .inl ⟨_, State.withWire_some hx _⟩
  | stf ra =>
    obtain ⟨x, hx⟩ := hread ra (List.mem_singleton_self ra)
    exact .inl ⟨_, execStf_completes hx⟩
  | out ra rb =>
    obtain ⟨l, hl⟩ := hread ra List.mem_cons_self
    obtain ⟨r, hr⟩ := hread rb (List.mem_cons_of_mem _ (List.mem_singleton_self rb))
    exact .inl ⟨_, execOut_completes hl hr⟩
  | mulc rd ra ki =>
    obtain ⟨x, hx⟩ := hread ra (List.mem_singleton_self ra)
    obtain ⟨c, hc⟩ := exists_constOperand s.params (of_decide_eq_true hw)
    exact .inl ⟨_, execMulc_completes hc hx⟩
  | dcb unit rd ra =>
    obtain ⟨x, hx⟩ := hread ra (List.mem_singleton_self ra)
    exact .inl ⟨_, execDcb_completes (BitVec.eq_of_toNat_eq (of_decide_eq_true hw)) hx rd⟩
  | hsh unit rd ra =>
    obtain ⟨x, hx⟩ := hread ra (List.mem_singleton_self ra)
    obtain ⟨u, hu⟩ := exists_hshOperand (of_decide_eq_true hw)
    exact .inl ⟨_, execHsh_completes hu hx rd⟩
  | dly unit rd ra =>
    obtain ⟨x, hx⟩ := hread ra (List.mem_singleton_self ra)
    obtain ⟨r, hr⟩ := exists_dlyOperand (of_decide_eq_true hw)
    exact .inl ⟨_, execDly_completes hr hx rd⟩
  | ap unit rd ra =>
    obtain ⟨x, hx⟩ := hread ra (List.mem_singleton_self ra)
    obtain ⟨r, k, hu⟩ := exists_apOperand s.params (of_decide_eq_true hw)
    exact .inl ⟨_, execAp_completes hu hx rd⟩
  | vap unit rd ra rb =>
    exact (execVap_answers (of_decide_eq_true hw) (hr ra List.mem_cons_self)
      (hr rb (List.mem_cons_of_mem _ (List.mem_singleton_self rb)))).imp_right fun h => ⟨h, .inl rfl⟩
  | tap unit rd ki =>
    obtain ⟨hu, hk⟩ := Bool.and_eq_true_iff.1 hw
    exact (execTap_answers (of_decide_eq_true hu) (of_decide_eq_true hk)
      (hr rd (List.mem_singleton_self rd))).imp_right fun ⟨h, hj⟩ => ⟨h, .inr ⟨rfl, hj⟩⟩
  | nop | construct | process | destroy | setbs | rdcsr | alloc | free => cases hi

end

/-! ### The taps of the default parameters -/

/-- The draw of a product of finite samples never matters. -/
theorem fmul_draw {a b : Sample} {x y : ℚ} (ha : valueOf a = some x) (hb : valueOf b = some y) (n m : Nat) :
    fmul n a b = fmul m a b := by
  obtain ⟨_, _, _, ca, -⟩ := classify_of_valueOf ha
  obtain ⟨_, _, _, cb, -⟩ := classify_of_valueOf hb
  rw [fmul_finite n ca cb, fmul_finite m ca cb]

/-- Every default tap offset is a finite number of seconds, not below 0 and not above the maximum of ring 0 (R6, R7). -/
theorem defaults_offset_le_maxDelay (j : Fin 8) :
    ∃ d m, valueOf Config.defaults.topology.taps[j].offsetS = some d ∧
      valueOf (Config.defaults.row 0).maxDelayS = some m ∧ 0 ≤ d ∧ d ≤ m := by
  have htap : ∀ j : Fin 8, Config.defaults.topology.taps[j].offsetS.toNat < 255 * 2 ^ 23 ∧
      unitsOf Config.defaults.topology.taps[j].offsetS.toNat ≤ unitsOf (Config.defaults.row 0).maxDelayS.toNat := by
    decide
  obtain ⟨hd, hle⟩ := htap j
  exact ⟨_, _, valueOf_of_lt hd, valueOf_of_lt (by decide), by positivity, by gcongr⟩

/-- With the default parameters every tap has a defined number of samples at every admitted rate (R10, R133). -/
theorem defaults_tapSamples_defined {rate : Sample} (h : Config.defaults.admittedRate rate = true) (n : Nat)
    (j : Fin 8) : ∃ ts, tapSamples n rate Config.defaults.topology.taps[j].offsetS = some ts := by
  obtain ⟨⟨q, hq, hpos⟩, hprod⟩ := (admittedRate_iff _ _).1 h
  obtain ⟨p, hp, hp24⟩ := hprod 0
  obtain ⟨d, m, hd, hm, hd0, hdm⟩ := defaults_offset_le_maxDelay j
  rw [tapSamples, fmul_draw hq hd n 0]
  exact truncI32_fmul_defined hq hpos hd hm hd0 hdm hp hp24

/-! ### Where a PROCESS can stop -/

theorem wellFormed_scheduledInstr : ∀ k : Fin 35, (scheduledInstr k).wellFormed = true := by decide

/-- The slots whose stage takes a conversion: two floors and eight truncations (R106). -/
theorem scheduledInstr_converts : ∀ k : Fin 35,
    ((scheduledInstr k).floors = true → BitVec.ofNat 6 k.val = 10#6 ∨ BitVec.ofNat 6 k.val = 16#6) ∧
    ((scheduledInstr k).truncates = true →
      BitVec.ofNat 6 k.val ∈ [24#6, 25#6, 26#6, 27#6, 29#6, 30#6, 31#6, 32#6]) := by decide

/-- In a PROCESS, with no host word issued, the step runs the stage of the slot. -/
theorem step_runs_slot {s : State} (ha : s.allocRequest = none) (hp : s.inProgress = true) (hi : s.hostIssue = none)
    (hr : s.rom = Config.scheduleRom) (k : Fin 35) (hk : s.spc.toNat = k.val) :
    step s = exec (scheduledInstr k) s := by
  have hword : s.stageWord = some Config.scheduleRom[k] := by
    rw [State.stageWord, hr, hk]
    exact Vector.getElem?_eq_getElem k.isLt
  refine step_of_fetch ?_ (decode_scheduleRom k)
  simp only [State.fetch, ha, hi, hp, hword, if_true]

/-- Settles O5: every slot's fields are in range and its wires written, so only its conversion can stop it, and with the
default parameters a tap's cannot. -/
theorem processStopsOnlyOnAnUndefinedConversion : Obligations.ProcessStopsOnlyOnAnUndefinedConversion := by
  intro s hs hp hi
  have hspc : s.spc = BitVec.ofNat 6 s.fetchSlot.val := by rw [hs.fetchSlot_val, BitVec.ofNat_toNat, BitVec.setWidth_eq]
  rw [step_runs_slot hs.noRequest hp hi hs.rom s.fetchSlot hs.fetchSlot_val.symm, hspc]
  obtain ⟨hfloor, htrunc⟩ := scheduledInstr_converts s.fetchSlot
  refine (exec_stage_answers (isStage_scheduledInstr _) (wellFormed_scheduledInstr _)
    (hs.reads_written hp)).imp_right fun ⟨hstop, hwhere⟩ => ⟨hstop, ?_⟩
  obtain hf | ⟨ht, j, hj⟩ := hwhere
  · exact (hfloor hf).imp_right .inl
  · refine .inr (.inr ⟨fun hdef => ?_, htrunc ht⟩)
    have hrate := hs.rate (hs.running hp).1
    rw [hdef] at hrate hj
    obtain ⟨ts, hts⟩ := defaults_tapSamples_defined hrate s.draws j
    exact absurd (hj.symm.trans hts) nofun

/-! ### The steps of a PROCESS as a program -/

/-- What follows an outcome: the next state goes on, a stop stays. -/
def andThen {σ φ ρ : Type} (o : Host.Outcome σ φ ρ) (f : σ → Host.Outcome σ φ ρ) : Host.Outcome σ φ ρ :=
  match o with
  | .next t => f t
  | .fault r => .fault r
  | .refused r => .refused r

theorem andThen_congr {o : Result} {f g : State → Result} (h : ∀ t, o = .next t → f t = g t) :
    andThen o f = andThen o g := by
  cases o with
  | next t => exact h t rfl
  | fault r => rfl
  | refused r => rfl

theorem core_run_succ (M : Host.Core) (n : Nat) (s : M.State) : M.run (n + 1) s = andThen (M.step s) (M.run n) := by
  cases h : M.step s <;> simp only [Host.Core.run, andThen, h]

theorem run_succ (n : Nat) (s : State) : core.run (n + 1) s = andThen (step s) (core.run n) := core_run_succ core n s

/-- A list of instructions executed one after the other, up to the first stop. -/
def execAll : List Instr → State → Result
  | [], s => .next s
  | i :: is, s => andThen (exec i s) (execAll is)

theorem execAll_cons {i : Instr} {s t : State} (h : exec i s = .next t) (is : List Instr) :
    execAll (i :: is) s = execAll is t := by
  rw [execAll, h]
  rfl

theorem execAll_append {is : List Instr} {s t : State} (h : execAll is s = .next t) (js : List Instr) :
    execAll (is ++ js) s = execAll js t := by
  induction is generalizing s with
  | nil => cases h; rfl
  | cons i is ih =>
    cases hi : exec i s with
    | next u => exact (execAll_cons hi _).trans (ih ((execAll_cons hi _).symm.trans h))
    | fault r => rw [execAll, hi] at h; cases h
    | refused r => rw [execAll, hi] at h; cases h

/-- The 35 instructions of the schedule (R106). -/
def scheduledProgram : List Instr := List.ofFn scheduledInstr

theorem length_scheduledProgram : scheduledProgram.length = 35 := List.length_ofFn

/-- A PROCESS is in progress at slot `k` of the schedule, and the host issues nothing before its response. -/
structure InSchedule (k : Nat) (s : State) : Prop where
  noRequest : s.allocRequest = none
  running : s.inProgress = true
  waits : ∀ h ∈ s.hostQueue, h.waits = true
  rom : s.rom = Config.scheduleRom
  slot : s.spc.toNat = k

theorem hostIssue_none {s : State} (hp : s.inProgress = true) (hw : ∀ h ∈ s.hostQueue, h.waits = true) :
    s.hostIssue = none := by
  unfold State.hostIssue
  split
  · exact if_pos (by simp [*])
  · rfl

section
variable {s t : State} {k : Nat}

theorem InSchedule.step_eq (hs : InSchedule k s) (hk : k < 35) : step s = exec (scheduledInstr ⟨k, hk⟩) s :=
  step_runs_slot hs.noRequest hs.running (hostIssue_none hs.running hs.waits) hs.rom ⟨k, hk⟩ hs.slot

/-- Every stage but the last leads to the next slot. -/
theorem InSchedule.next (hs : InSchedule k s) (hk : k < 34)
    (h : exec (scheduledInstr ⟨k, hk.trans (by decide)⟩) s = .next t) : InSchedule (k + 1) t := by
  have hi := isStage_scheduledInstr ⟨k, hk.trans (by decide)⟩
  have hend : scheduledInstr ⟨k, hk.trans (by decide)⟩ ≠ .end_ := fun he =>
    hk.ne (congrArg Fin.val ((scheduledInstr_eq_end _).1 he))
  have hspc : t.spc.toNat = k + 1 := by
    rw [(exec_stage_effect hi h).counter hend, BitVec.toNat_add, hs.slot, BitVec.toNat_ofNat]
    omega
  have hp := (exec_stage_continues hi hend h).1.trans hs.running
  rw [← exec_stage_frame hi h]
  exact ⟨hs.noRequest, hp, hs.waits, hs.rom, hspc⟩

theorem run_eq_execAll_drop (n : Nat) (hs : InSchedule k s) (hn : k + n = 35) :
    core.run n s = execAll (scheduledProgram.drop k) s := by
  induction n generalizing k s with
  | zero => rw [List.drop_eq_nil_of_le (by rw [length_scheduledProgram]; omega)]; rfl
  | succ n ih =>
    have hk : k < 35 := by omega
    have hcons : scheduledProgram.drop k = scheduledInstr ⟨k, hk⟩ :: scheduledProgram.drop (k + 1) := by
      rw [List.drop_eq_getElem_cons (length_scheduledProgram.symm ▸ hk)]
      exact congrArg (· :: _) (List.getElem_ofFn _)
    rw [hcons, run_succ, hs.step_eq hk, execAll]
    refine andThen_congr fun t h => ?_
    obtain rfl | hlast : k = 34 ∨ k < 34 := by omega
    · obtain rfl : n = 0 := by omega
      rw [List.drop_eq_nil_of_le length_scheduledProgram.le]
      rfl
    · exact ih (hs.next hlast h) (by omega)

/-- From slot 0 on, 35 steps execute the listed program. -/
theorem run_eq_execAll (hs : InSchedule 0 s) : core.run 35 s = execAll scheduledProgram s :=
  run_eq_execAll_drop 35 hs rfl

end

/-! ### The stages on the signal state -/

/-- A unit in the middle of a PROCESS: `s` with the stage counter, the wire file and the signal state it has come to. -/
def State.during (s : State) (k : BitVec 6) (w : Vector (Option Sample) 16) (g : Signal) : State :=
  { s with
    spc := k, wires := w, lfo := g.lfo, dcb := g.dcb, hsh := g.hsh, rings := g.rings, dm := g.dm, fb := g.fb
    draws := g.draws }

/-- The unit in the middle of a PROCESS with an output of R230, its word on wire `rd` and its signal state. -/
def State.holding (s : State) (k : BitVec 6) (w : Vector (Option Sample) 16) (rd : Nibble) (q : Sample × Signal) :
    State := (s.during k w q.2).setWire rd q.1

section
variable {s : State} {k : BitVec 6} {w : Vector (Option Sample) 16} {rd unit ki : Nibble} {q : Sample × Signal}

theorem wire_holding : (s.holding k w rd q).wire rd = some q.1 := State.wire_setWire_same ..

/-- A word written over the one a wire held. -/
theorem setWire_setWire (u : State) (v y : Sample) : (u.setWire rd v).setWire rd y = u.setWire rd y := by
  simp only [State.setWire, Vector.set_set]

/-- A stage that overwrites the word on its wire with the next output of R230 makes the step of R230. -/
theorem replaces_word {i : Instr} {q' : Sample × Signal}
    (h : exec i (s.holding k w rd q) = .next (((s.during (k + 1#6) w q'.2).setWire rd q.1).setWire rd q'.1)) :
    exec i (s.holding k w rd q) = .next (s.holding (k + 1#6) w rd q') := by
  rw [h, setWire_setWire]
  rfl

theorem exec_mulc_holding {c : Sample} (hc : s.params.constOperand ki = some c) :
    exec (.mulc rd rd ki) (s.holding k w rd q) = .next (s.holding (k + 1#6) w rd (q.2.scale q.1 c)) :=
  replaces_word (execMulc_completes (s := s.holding k w rd q) hc wire_holding)

theorem exec_addf_holding :
    exec (.addf rd rd) (s.holding k w rd q) = .next (s.holding (k + 1#6) w rd (q.2.addFeedback q.1)) :=
  replaces_word (State.withWire_some wire_holding _)

theorem exec_dcb_holding :
    exec (.dcb 0#4 rd rd) (s.holding k w rd q) = .next (s.holding (k + 1#6) w rd (q.2.dcBlock s.params q.1)) :=
  replaces_word (execDcb_completes rfl wire_holding rd)

theorem exec_hsh_holding {u : Fin 2} (hu : hshOperand unit = some u) :
    exec (.hsh unit rd rd) (s.holding k w rd q) = .next (s.holding (k + 1#6) w rd (q.2.shelf s.params u q.1)) :=
  replaces_word (execHsh_completes hu wire_holding rd)

theorem exec_dly_holding {r : RingId} (hu : dlyOperand unit = some r) :
    exec (.dly unit rd rd) (s.holding k w rd q) = .next (s.holding (k + 1#6) w rd (q.2.dly s.params r q.1)) :=
  replaces_word (execDly_completes hu wire_holding rd)

theorem exec_ap_holding {r : RingId} {c : Sample} (hu : s.params.apOperand unit = some (r, c)) :
    exec (.ap unit rd rd) (s.holding k w rd q) = .next (s.holding (k + 1#6) w rd (q.2.ap s.params r c q.1)) :=
  replaces_word (execAp_completes (s := s.holding k w rd q) hu wire_holding rd)

theorem exec_vap_holding {r : RingId} {c off : Sample} {rb : Nibble} {q' : Sample × Signal}
    (hu : s.params.vapOperand unit = some (r, c)) (hb : (s.holding k w rd q).wire rb = some off)
    (hq : q.2.vap s.params s.sampleRate r c q.1 off = some q') :
    exec (.vap unit rd rd rb) (s.holding k w rd q) = .next (s.holding (k + 1#6) w rd q') := by
  obtain ⟨i, hi, rfl⟩ := Option.map_eq_some_iff.1 hq
  exact replaces_word (execVap_completes (s := s.holding k w rd q) hu wire_holding hb hi rd)

theorem exec_tap_holding {r : RingId} {t : TapRow} {q' : Sample × Signal} (hu : dlyOperand unit = some r)
    (ht : s.params.tapOperand ki = some t) (hq : q.2.tap s.params s.sampleRate r t q.1 = some q') :
    exec (.tap unit rd ki) (s.holding k w rd q) = .next (s.holding (k + 1#6) w rd q') := by
  obtain ⟨ts, hts, rfl⟩ := Option.map_eq_some_iff.1 hq
  exact replaces_word (execTap_completes (s := s.holding k w rd q) hu ht wire_holding hts)

end

/-! ### The parts of R230 -/

section
variable {s : State} {k : BitVec 6} {w : Vector (Option Sample) 16} {g : Signal}

/-- Which of two wires was written last does not matter. -/
theorem holding_comm {i j : Nibble} (h : i ≠ j) (x y : Sample) :
    s.holding k (w.set j.toNat (some y) j.isLt) i (x, g) = s.holding k (w.set i.toNat (some x) i.isLt) j (y, g) := by
  have hne : j.toNat ≠ i.toNat := fun e => h (BitVec.eq_of_toNat_eq e.symm)
  simp only [State.holding, State.setWire, State.during, Vector.set_comm _ _ hne]

/-- The wire file once `IN` has put the operand on wire 0. -/
def operandWires (x : Sample) : Vector (Option Sample) 16 := noWires.set 0 (some x)

/-- The wire file of the early part and the tank, but for the signal on wire 0: the two modulation values. -/
def modulationWires (m1 m2 : Sample) : Vector (Option Sample) 16 := (noWires.set 1 (some m1)).set 2 (some m2)

/-- Slots 0 to 3. -/
def modulationProgram : List Instr := [.in_ 0#4, .lfo 1#4 2#4, .mulc 1#4 1#4 0#4, .mulc 2#4 2#4 1#4]

/-- The operand goes to wire 0 and the modulation values to wires 1 and 2 (R230, steps 1 and 2). -/
theorem execAll_modulation :
    let o := g.lfoStep
    let m1 := o.2.scale o.1.1 s.params.topology.consts[0]
    let m2 := m1.2.scale o.1.2 s.params.topology.consts[1]
    execAll modulationProgram (s.during 0#6 noWires g) =
      .next (s.holding 4#6 (modulationWires m1.1 m2.1) 0#4 (s.inLatch, m2.2)) := by
  intro o m1 m2
  have hin : exec (.in_ 0#4) (s.during 0#6 noWires g) = .next (s.holding 1#6 noWires 0#4 (s.inLatch, g)) := rfl
  have hlfo : exec (.lfo 1#4 2#4) (s.holding 1#6 noWires 0#4 (s.inLatch, g)) =
      .next (s.holding 2#6 ((operandWires s.inLatch).set 1 (some o.1.1)) 2#4 (o.1.2, o.2)) := rfl
  have hcos : exec (.mulc 1#4 1#4 0#4)
        (s.holding 2#6 ((operandWires s.inLatch).set 2 (some o.1.2)) 1#4 (o.1.1, o.2)) =
      .next (s.holding 3#6 ((operandWires s.inLatch).set 2 (some o.1.2)) 1#4 m1) :=
    exec_mulc_holding (constOperand_index s.params 0)
  have hsin : exec (.mulc 2#4 2#4 1#4)
        (s.holding 3#6 ((operandWires s.inLatch).set 1 (some m1.1)) 2#4 (o.1.2, m1.2)) =
      .next (s.holding 4#6 ((operandWires s.inLatch).set 1 (some m1.1)) 2#4 m2) :=
    exec_mulc_holding (constOperand_index s.params 1)
  have hwires : s.holding 4#6 ((operandWires s.inLatch).set 1 (some m1.1)) 2#4 m2 =
      s.holding 4#6 (modulationWires m1.1 m2.1) 0#4 (s.inLatch, m2.2) := rfl
  have h21 : 2#4 ≠ 1#4 := by decide
  rw [modulationProgram, execAll_cons hin, execAll_cons hlfo, ← hwires]
  exact (congrArg _ (holding_comm h21 ..)).trans <| (execAll_cons hcos _).trans <|
    (congrArg _ (holding_comm h21.symm ..)).trans (execAll_cons hsin _)

/-- Slots 4 to 9. -/
def diffusionProgram : List Instr :=
  [.ap 0#4 0#4 0#4, .ap 1#4 0#4 0#4, .ap 2#4 0#4 0#4, .ap 3#4 0#4 0#4, .addf 0#4 0#4, .dcb 0#4 0#4 0#4]

/-- The early part (R230, steps 1 to 4). -/
theorem execAll_early :
    let e := g.early s.params s.inLatch
    execAll (modulationProgram ++ diffusionProgram) (s.during 0#6 noWires g) =
      .next (s.holding 10#6 (modulationWires e.1.1 e.1.2.1) 0#4 (e.1.2.2, e.2)) := by
  intro e
  rw [execAll_append execAll_modulation, diffusionProgram, execAll_cons (exec_ap_holding rfl),
    execAll_cons (exec_ap_holding rfl), execAll_cons (exec_ap_holding rfl), execAll_cons (exec_ap_holding rfl),
    execAll_cons exec_addf_holding, execAll_cons exec_dcb_holding]
  rfl

/-- The fields of the stage words of one tank half: its units, the wire of its modulation and its constant. -/
structure HalfFields where
  vap : Nibble
  off : Nibble
  dly₁ : Nibble
  ap : Nibble
  dly₂ : Nibble
  hsh : Nibble
  ki : Nibble

/-- The six stages of one tank half (R106). -/
def HalfFields.program (f : HalfFields) : List Instr :=
  [.vap f.vap 0#4 0#4 f.off, .dly f.dly₁ 0#4 0#4, .ap f.ap 0#4 0#4, .dly f.dly₂ 0#4 0#4, .hsh f.hsh 0#4 0#4,
    .mulc 0#4 0#4 f.ki]

/-- The fields select the parameters of a tank half (R102). -/
structure HalfFields.Select (f : HalfFields) (p : Params) (h : Half) : Prop where
  vap : p.vapOperand f.vap = some (h.v, h.vK)
  dly₁ : dlyOperand f.dly₁ = some h.d1
  ap : p.apOperand f.ap = some (h.a, h.aK)
  dly₂ : dlyOperand f.dly₂ = some h.d2
  hsh : hshOperand f.hsh = some h.shelf
  ki : p.constOperand f.ki = some h.att

/-- One tank half (R230, step 5). -/
theorem execAll_tankHalf {f : HalfFields} {h : Half} {off : Sample} {q q' : Sample × Signal}
    (hf : f.Select s.params h) (hoff : (s.holding k w 0#4 q).wire f.off = some off)
    (hq : q.2.tankHalf s.params s.sampleRate h q.1 off = some q') :
    execAll f.program (s.holding k w 0#4 q) = .next (s.holding (k + 6#6) w 0#4 q') := by
  obtain ⟨v, hv, rfl⟩ := Option.map_eq_some_iff.1 hq
  rw [HalfFields.program, execAll_cons (exec_vap_holding hf.vap hoff hv), execAll_cons (exec_dly_holding hf.dly₁),
    execAll_cons (exec_ap_holding hf.ap), execAll_cons (exec_dly_holding hf.dly₂),
    execAll_cons (exec_hsh_holding hf.hsh), execAll_cons (exec_mulc_holding hf.ki)]
  simp only [BitVec.add_assoc]
  rfl

/-- The five stages of one output channel on accumulator wire `rd`, with the taps `k1` to `k4` (R106). -/
def mixProgram (rd k1 k2 k3 k4 : Nibble) : List Instr :=
  [.clr rd, .tap 0#4 rd k1, .tap 1#4 rd k2, .tap 2#4 rd k3, .tap 3#4 rd k4]

theorem mix_eq_some {p : Params} {rate : Sample} {t1 t2 t3 t4 : TapRow} {q : Sample × Signal}
    (h : g.mix p rate t1 t2 t3 t4 = some q) :
    ∃ q1 q2 q3, g.tap p rate 5 t1 plusZero = some q1 ∧ q1.2.tap p rate 7 t2 q1.1 = some q2 ∧
      q2.2.tap p rate 9 t3 q2.1 = some q3 ∧ q3.2.tap p rate 11 t4 q3.1 = some q := by
  obtain ⟨q1, h1, h⟩ := Option.bind_eq_some_iff.1 h
  obtain ⟨q2, h2, h⟩ := Option.bind_eq_some_iff.1 h
  obtain ⟨q3, h3, h⟩ := Option.bind_eq_some_iff.1 h
  exact ⟨q1, q2, q3, h1, h2, h3, h⟩

/-- One output channel (R230, step 6). -/
theorem execAll_mix {rd k1 k2 k3 k4 : Nibble} {t1 t2 t3 t4 : TapRow} {q : Sample × Signal}
    (h1 : s.params.tapOperand k1 = some t1) (h2 : s.params.tapOperand k2 = some t2)
    (h3 : s.params.tapOperand k3 = some t3) (h4 : s.params.tapOperand k4 = some t4)
    (hq : g.mix s.params s.sampleRate t1 t2 t3 t4 = some q) :
    execAll (mixProgram rd k1 k2 k3 k4) (s.during k w g) = .next (s.holding (k + 5#6) w rd q) := by
  obtain ⟨q1, q2, q3, hq1, hq2, hq3, hq4⟩ := mix_eq_some hq
  have hclr : exec (.clr rd) (s.during k w g) = .next (s.holding (k + 1#6) w rd (plusZero, g)) := rfl
  rw [mixProgram, execAll_cons hclr, execAll_cons (exec_tap_holding (q := (plusZero, g)) rfl h1 hq1),
    execAll_cons (exec_tap_holding rfl h2 hq2), execAll_cons (exec_tap_holding rfl h3 hq3),
    execAll_cons (exec_tap_holding rfl h4 hq4)]
  simp only [BitVec.add_assoc]
  rfl

/-! ### The whole call -/

/-- The fields of half 1 (R106, slots 10 to 15). -/
def firstFields : HalfFields := ⟨0#4, 1#4, 0#4, 4#4, 1#4, 0#4, 2#4⟩

/-- The fields of half 2 (R106, slots 16 to 21). -/
def secondFields : HalfFields := ⟨1#4, 2#4, 2#4, 5#4, 3#4, 1#4, 3#4⟩

theorem firstFields_select (p : Params) : firstFields.Select p (firstHalf p) := ⟨rfl, rfl, rfl, rfl, rfl, rfl⟩

theorem secondFields_select (p : Params) : secondFields.Select p (secondHalf p) := ⟨rfl, rfl, rfl, rfl, rfl, rfl⟩

/-- Slots 10 to 22: the two tank halves, and the feedback scalar stored. -/
def tankProgram : List Instr := firstFields.program ++ (secondFields.program ++ [.stf 0#4])

/-- The tank (R230, step 5). -/
theorem execAll_tank {b m1 m2 : Sample} {h1 h2 : Sample × Signal}
    (hh1 : g.tankHalf s.params s.sampleRate (firstHalf s.params) b m1 = some h1)
    (hh2 : h1.2.tankHalf s.params s.sampleRate (secondHalf s.params) h1.1 m2 = some h2) :
    execAll tankProgram (s.holding 10#6 (modulationWires m1 m2) 0#4 (b, g)) =
      .next (s.during 23#6 ((modulationWires m1 m2).set 0 (some h2.1)) { h2.2 with fb := h2.1 }) := by
  have hhalf1 := execAll_tankHalf (k := 10#6) (w := modulationWires m1 m2) (q := (b, g)) (firstFields_select s.params)
    rfl hh1
  have hhalf2 := execAll_tankHalf (k := 16#6) (w := modulationWires m1 m2) (secondFields_select s.params) rfl hh2
  have hstf : exec (.stf 0#4) (s.holding 22#6 (modulationWires m1 m2) 0#4 h2) = .next _ :=
    execStf_completes wire_holding
  exact (execAll_append hhalf1 _).trans <| (execAll_append hhalf2 _).trans <| execAll_cons hstf []

/-- The unit after `END`: the outputs delivered and the signal state left behind. -/
def State.delivered (s : State) (w : Vector (Option Sample) 16) (l r : Sample) (g : Signal) : State :=
  { s.during 0#6 w g with
    outL := l, outR := r, inProgress := false, hostResponse := some (responseWord 0#4 l r) }

/-- Slots 23 to 34: the two output channels, and their delivery. -/
def outputProgram : List Instr :=
  mixProgram 3#4 0#4 1#4 2#4 3#4 ++ (mixProgram 4#4 4#4 5#4 6#4 7#4 ++ [.out 3#4 4#4, .end_])

/-- The two channels (R230, step 6) and their delivery (R215, R216). -/
theorem execAll_output {l r : Sample} {gl g' : Signal}
    (hl : g.mix s.params s.sampleRate s.params.topology.taps[0] s.params.topology.taps[1] s.params.topology.taps[2]
      s.params.topology.taps[3] = some (l, gl))
    (hr : gl.mix s.params s.sampleRate s.params.topology.taps[4] s.params.topology.taps[5] s.params.topology.taps[6]
      s.params.topology.taps[7] = some (r, g')) :
    execAll outputProgram (s.during 23#6 w g) = .next (s.delivered ((w.set 3 (some l)).set 4 (some r)) l r g') := by
  have hleft := execAll_mix (k := 23#6) (w := w) (rd := 3#4) (k1 := 0#4) (k2 := 1#4) (k3 := 2#4) (k4 := 3#4)
    rfl rfl rfl rfl hl
  have hright := execAll_mix (k := 28#6) (w := w.set 3 (some l)) (rd := 4#4) (k1 := 4#4) (k2 := 5#4) (k3 := 6#4)
    (k4 := 7#4) rfl rfl rfl rfl hr
  have hwire : (s.holding 33#6 (w.set 3 (some l)) 4#4 (r, g')).wire 3#4 = some l := by
    rw [State.holding, State.wire_setWire_other _ _ (by decide)]
    exact Vector.getElem_set_self _
  have hout : exec (.out 3#4 4#4) (s.holding 33#6 (w.set 3 (some l)) 4#4 (r, g')) = .next _ :=
    execOut_completes hwire wire_holding
  exact (execAll_append hleft _).trans <| (execAll_append hright _).trans <| execAll_cons hout [.end_]

/-- The schedule is the parts of R230 in their order. -/
theorem scheduledProgram_eq :
    scheduledProgram = modulationProgram ++ diffusionProgram ++ (tankProgram ++ outputProgram) := by decide

/-- The parts of a call that is defined: the two tank halves and the two channels (R230). -/
theorem perSample_eq_some {p : Params} {rate x l r : Sample} {g' : Signal}
    (h : perSample p rate x g = some ((l, r), g')) :
    ∃ h1 h2 gl, (g.early p x).2.tankHalf p rate (firstHalf p) (g.early p x).1.2.2 (g.early p x).1.1 = some h1 ∧
      h1.2.tankHalf p rate (secondHalf p) h1.1 (g.early p x).1.2.1 = some h2 ∧
      { h2.2 with fb := h2.1 }.mix p rate p.topology.taps[0] p.topology.taps[1] p.topology.taps[2]
        p.topology.taps[3] = some (l, gl) ∧
      gl.mix p rate p.topology.taps[4] p.topology.taps[5] p.topology.taps[6] p.topology.taps[7] = some (r, g') := by
  obtain ⟨h1, hh1, h⟩ := Option.bind_eq_some_iff.1 h
  obtain ⟨h2, hh2, h⟩ := Option.bind_eq_some_iff.1 h
  obtain ⟨⟨l, gl⟩, hl, h⟩ := Option.bind_eq_some_iff.1 h
  obtain ⟨⟨r, g'⟩, hr, h⟩ := Option.map_eq_some_iff.1 h
  cases h
  exact ⟨h1, h2, gl, hh1, hh2, hl, hr⟩

/-- The program of the schedule computes R230. -/
theorem execAll_scheduledProgram {l r : Sample} {g' : Signal}
    (h : perSample s.params s.sampleRate s.inLatch g = some ((l, r), g')) :
    ∃ w, execAll scheduledProgram (s.during 0#6 noWires g) = .next (s.delivered w l r g') := by
  obtain ⟨h1, h2, gl, hh1, hh2, hl, hr⟩ := perSample_eq_some h
  rw [scheduledProgram_eq, execAll_append execAll_early, execAll_append (execAll_tank hh1 hh2)]
  exact ⟨_, execAll_output hl hr⟩

end

/-! ### The rings of a call -/

/-- The cursors of the listed rings advanced, one after the other (R173). -/
def advanceRings (rs : List RingId) (v : Vector Ring 12) : Vector Ring 12 :=
  rs.foldl (fun v (r : RingId) => v.set r v[r].advanced) v

theorem advanceRings_append (rs qs : List RingId) (v : Vector Ring 12) :
    advanceRings (rs ++ qs) v = advanceRings qs (advanceRings rs v) := List.foldl_append

theorem getElem_advanceRings (rs : List RingId) (hnd : rs.Nodup) (v : Vector Ring 12) (q : RingId) :
    (advanceRings rs v)[q] = if q ∈ rs then v[q].advanced else v[q] := by
  induction rs generalizing v with
  | nil => rfl
  | cons r rs ih =>
    obtain ⟨hr, hnd⟩ := List.nodup_cons.1 hnd
    have hset : (v.set r v[r].advanced)[q] = if q = r then v[q].advanced else v[q] := by
      split
      · subst q; exact Vector.getElem_set_self _
      · exact Vector.getElem_set_ne _ _ (Fin.val_ne_of_ne (Ne.symm ‹_›))
    rw [advanceRings, List.foldl_cons, ← advanceRings, ih hnd, hset]
    by_cases hq : q = r
    · subst q; simp [hr]
    · simp [hq]

section
variable {p : Params} {rate : Sample} {g : Signal}

/-- The rings of one tank half, in the order it uses them. -/
def Half.rings (h : Half) : List RingId := [h.v, h.d1, h.a, h.d2]

theorem early_rings (x : Sample) : (g.early p x).2.rings = advanceRings [0, 1, 2, 3] g.rings := rfl

theorem tankHalf_rings {h : Half} {x off : Sample} {q : Sample × Signal} (hq : g.tankHalf p rate h x off = some q) :
    q.2.rings = advanceRings h.rings g.rings := by
  obtain ⟨v, hv, rfl⟩ := Option.map_eq_some_iff.1 hq
  obtain ⟨i, -, rfl⟩ := Option.map_eq_some_iff.1 hv
  rfl

theorem tap_rings {r : RingId} {t : TapRow} {acc : Sample} {q : Sample × Signal} (hq : g.tap p rate r t acc = some q) :
    q.2.rings = g.rings := by
  obtain ⟨ts, -, rfl⟩ := Option.map_eq_some_iff.1 hq
  rfl

theorem mix_rings {t1 t2 t3 t4 : TapRow} {q : Sample × Signal} (hq : g.mix p rate t1 t2 t3 t4 = some q) :
    q.2.rings = g.rings := by
  obtain ⟨q1, q2, q3, h1, h2, h3, h4⟩ := mix_eq_some hq
  rw [tap_rings h4, tap_rings h3, tap_rings h2, tap_rings h1]

/-- A call advances every ring once: the early part rings 0 to 3, the halves 4 to 7 and 8 to 11 (R230). -/
theorem perSample_rings {x l r : Sample} {g' : Signal} (h : perSample p rate x g = some ((l, r), g')) (q : RingId) :
    g'.rings[q] = (g.rings[q]).advanced := by
  obtain ⟨h1, h2, gl, hh1, hh2, hl, hr⟩ := perSample_eq_some h
  have hrings : [0, 1, 2, 3] ++ ((firstHalf p).rings ++ (secondHalf p).rings) = allRings := rfl
  have hall : g'.rings = advanceRings allRings g.rings :=
    calc g'.rings = h2.2.rings := (mix_rings hr).trans (mix_rings hl)
      _ = advanceRings allRings g.rings := by
        rw [tankHalf_rings hh2, tankHalf_rings hh1, early_rings, ← advanceRings_append, ← advanceRings_append, hrings]
  rw [hall, getElem_advanceRings _ (by decide), if_pos (mem_allRings q)]

end

/-! ### The 36 steps -/

/-- The unit once it has taken `PROCESS x` (R139). -/
def State.processing (s : State) (x : Sample) : State :=
  { s with inLatch := x, wires := noWires, spc := 0#6, inProgress := true, hostResponse := none }

theorem step_takes_process {s : State} {x : Sample} {h : HostIssue} {rest : List HostIssue} (hls : s.ls = .ready)
    (hidle : s.inProgress = false) (ha : s.allocRequest = none) (hq : s.hostQueue = h :: rest)
    (hw : h.word = 0x2#4 ++ x) : step s = .next (s.takeHost.processing x) := by
  have hd : decode (.host h.word) = .ok (.process x) := by
    rw [hw]
    exact decodeOfEncodeIsTheInstruction (.process x) rfl
  have hfetch := fetch_host ha hq fun hp => Bool.noConfusion (hidle.symm.trans hp)
  exact (step_of_fetch hfetch hd).trans ((State.whenIdle_idle hidle _).trans (State.whenLifecycle_legal hls _))

/-- Settles O7: the step that takes the command, and the 35 steps that execute the program of the schedule, part by part
as R230 lists them. -/
theorem processRunsTheScheduleOnce : Obligations.ProcessRunsTheScheduleOnce := by
  intro s x h rest l r g hls hidle ha hrom hq hw hwaits hcall
  have htail : s.hostQueue.tail = rest := by rw [hq]; rfl
  have hin : InSchedule 0 (s.takeHost.processing x) := ⟨ha, rfl, fun q hm => hwaits q (htail ▸ hm), hrom, rfl⟩
  obtain ⟨w, hprogram⟩ := execAll_scheduledProgram (s := s.takeHost.processing x) hcall
  have hrun : core.run 36 s = .next ((s.takeHost.processing x).delivered w l r g) := by
    rw [run_succ, step_takes_process hls hidle ha hq hw]
    exact (run_eq_execAll hin).trans hprogram
  refine ⟨_, hrun, rfl, rfl, rfl, rfl, rfl, rfl, rfl, htail, rfl, perSample_rings hcall, ?frame⟩
  case frame => rw [← htail]; rfl

end Machine
end Sys2Proof
end

section
/-! PROOFS. The statement drawn from spec/60_exceptions.md: AllocationFailed, which CONSTRUCT takes at the first refused
ring (R133, R251, R257). -/

namespace Sys2Proof
namespace Machine

/-! ### The regions of the granted rings -/

section
variable {bases : Vector (BitVec 32) 12} {rs : List RingId} {s t : State} (h : Granted bases rs s t)
include h

/-- The grants change nothing that the size of a later request depends on. -/
theorem Granted.ringBytes (r : RingId) : t.ringBytes r = s.ringBytes r := by
  rw [State.ringBytes, h.params, h.sampleRate]
  rfl

variable (hp : LegalParams s.params) (hrate : s.params.admittedRate s.sampleRate = true)
include hp hrate

/-- The descriptor of a granted ring stands for the region granted. -/
theorem Granted.region_ring {r : RingId} (hr : r ∈ rs) :
    (t.ring r).region = ⟨bases[r], s.params.ringCapacity s.sampleRate r⟩ := by
  obtain ⟨hbase, hring, -⟩ := h.rings r hr
  have hcap : (t.ring r).capacity = BitVec.ofNat 32 (s.params.ringCapacity s.sampleRate r) := hring.capacity
  have hfit := ringCapacity_fits hp hrate r
  rw [Ring.region, hbase, hcap, BitVec.toNat_ofNat, Nat.mod_eq_of_lt (by omega)]

/-- After the grants the regions of the granted rings are held, the last one first, and those held before. -/
theorem Granted.live_eq_regions : t.live = (rs.reverse.map fun r => (t.ring r).region) ++ s.live := by
  rw [h.live]
  exact congrArg (· ++ s.live)
    (List.map_congr_left fun r hr => (h.region_ring hp hrate (List.mem_reverse.1 hr)).symm)

end

/-! ### The clean-up after a refused request -/

/-- What CONSTRUCT's loop makes of `s` when the rings `rs` are each granted their base of `bases`, the request of `r` is
refused, and the granted rings are released again (R133). -/
structure Unwound (bases : Vector (BitVec 32) 12) (rs : List RingId) (r : RingId) (s t : State) : Prop where
  sampleRate : t.sampleRate = s.sampleRate
  queue : s.allocQueue = rs.map (fun q => some bases[q]) ++ none :: t.allocQueue
  live : t.live = s.live
  traffic : ∃ n, t.allocTraffic =
    s.allocTraffic ++ rs.map (fun q => ⟨allocWordOf 0#1 (s.ringBytes q), some (answerWord 0 (some bases[q]))⟩) ++
      [⟨allocWordOf 0#1 (s.ringBytes r), some (answerWord n none)⟩] ++
      rs.reverse.map fun q => ⟨allocWordOf 1#1 bases[q], none⟩
  memory : ∀ a : BitVec 32,
    (∀ q ∈ rs, s.params.wordAddress a < bases[q].toNat ∨
      bases[q].toNat + s.params.ringCapacity s.sampleRate q ≤ s.params.wordAddress a) → t.memRead a = s.memRead a

/-- A refused request adds no region. -/
theorem State.allocate_live_of_refused {s : State} {size : BitVec 32} (h : s.allocAnswer size = none) :
    (s.allocate size).live = s.live := by
  rw [State.allocate_live, h]

theorem releaseRings_sampleRate (rs : List RingId) (s : State) : (s.releaseRings rs).sampleRate = s.sampleRate := by
  rw [← State.releaseRings_frame]

theorem releaseRings_memRead (rs : List RingId) (s : State) (a : BitVec 32) :
    (s.releaseRings rs).memRead a = s.memRead a := by
  rw [← State.releaseRings_frame]
  rfl

section
variable {bases : Vector (BitVec 32) 12} {rs : List RingId} {r : RingId} {s t : State}

/-- The clean-up finds the regions of the granted rings held, in the order in which it releases them. -/
theorem Granted.unwound {later : List (Option (BitVec 32))} (h : Granted bases rs s t) (hp : LegalParams s.params)
    (hrate : s.params.admittedRate s.sampleRate = true) (hq : t.allocQueue = none :: later) :
    Unwound bases rs r s ((t.allocate (s.ringBytes r)).releaseRings rs.reverse) := by
  have hnull : t.allocAnswer (s.ringBytes r) = none := State.allocAnswer_exhausted (State.allocProposal_cons hq) _
  have hheld : (t.allocate (s.ringBytes r)).live =
      (rs.reverse.map fun q => ((t.allocate (s.ringBytes r)).ring q).region) ++ s.live :=
    (State.allocate_live_of_refused hnull).trans (h.live_eq_regions hp hrate)
  refine ⟨(releaseRings_sampleRate _ _).trans h.sampleRate, ?queue, releaseRings_live _ hheld, ⟨t.draws, ?traffic⟩,
    fun a ha => (releaseRings_memRead _ _ a).trans (h.memRead_other ha)⟩
  case queue => rw [releaseRings_allocQueue _ hheld, State.allocate_allocQueue, hq, List.tail_cons, ← hq, h.queue]
  case traffic =>
    rw [releaseRings_traffic, State.allocate_traffic, hnull, h.traffic]
    refine congrArg (_ ++ ·) (List.map_congr_left fun q hqr => ?_)
    rw [← (h.rings q (List.mem_reverse.1 hqr)).1]
    rfl

/-- The loop of CONSTRUCT over rings that are all granted and a ring that is refused ends there. -/
theorem grantRings_refused (rs more : List RingId) {later : List (Option (BitVec 32))} (hnd : rs.Nodup)
    (hp : LegalParams s.params) (hrate : s.params.admittedRate s.sampleRate = true)
    (hds : ∀ q ∈ rs, ∃ ds, s.params.ringDelaySamples s.sampleRate q = some ds)
    (hq : s.allocQueue = rs.map (fun q => some bases[q]) ++ none :: later)
    (hl : LiveContract s.params.addressSpace
      ((rs.reverse.map fun q => ⟨bases[q], s.params.ringCapacity s.sampleRate q⟩) ++ s.live)) :
    ∃ t, Unwound bases rs r s t ∧ grantRings (rs ++ r :: more) [] s = .refusedAt r t := by
  obtain ⟨u, hu, hloop⟩ := grantRings_granted rs hnd hp hrate hds hq hl []
  have hqueue : u.allocQueue = none :: later := (List.append_cancel_left (hq.symm.trans hu.queue)).symm
  refine ⟨_, hu.unwound hp hrate hqueue, ?_⟩
  rw [hloop, grantRings, State.allocAnswer_exhausted (State.allocProposal_cons hqueue), hu.ringBytes, List.append_nil]

end

/-! ### The exception -/

theorem allRings_eq_take_append (r : RingId) : allRings = allRings.take r.val ++ r :: allRings.drop (r.val + 1) := by
  revert r; decide

theorem nodup_take_allRings (n : Nat) : (allRings.take n).Nodup :=
  (List.take_sublist n allRings).nodup (by decide)

/-- Settles O53: the loop grants the rings before `r` and ends at `r` with the grants undone, where the exception is
taken. -/
theorem constructFailsAtTheFirstRefusedRing : Obligations.ConstructFailsAtTheFirstRefusedRing := by
  intro s rate bases r later hidle halone hempty hp hrate hq cap before hds hl
  rw [toList_eq_map_allRings, ← List.map_take, List.map_map] at hq
  obtain ⟨u, hu, hloop⟩ := grantRings_refused (s := { s with sampleRate := rate }) (r := r) before
    (allRings.drop (r.val + 1)) (nodup_take_allRings r.val) hp hrate hds hq hl
  have hexec : exec (.construct rate) s = .next (u.raiseAllocationFailed r) := by
    rw [← allRings_eq_take_append] at hloop
    exact (execConstruct_admitted hidle halone hempty hrate).trans (congrArg Granting.answer hloop)
  have hrateKept : (u.raiseAllocationFailed r).sampleRate = rate := hu.sampleRate
  have hliveKept : (u.raiseAllocationFailed r).live = s.live := hu.live
  have hlater : (u.raiseAllocationFailed r).allocQueue = later := by
    have htails := List.append_cancel_left (hq.symm.trans hu.queue)
    exact (List.cons.inj htails).2.symm
  have hframe := execConstruct_frame hexec
  rw [frame, hrateKept, hliveKept, hlater] at hframe
  have hbuffer : (u.raiseAllocationFailed r).bufferSize = s.bufferSize := by rw [← hframe]
  obtain ⟨n, htraffic⟩ := hu.traffic
  exact ⟨_, answerWord n none, hexec, rfl, rfl, rfl, hrateKept, hbuffer, rfl, wire_noWires _ rfl, hliveKept,
    toNat_answerWord_none n, htraffic, rfl, hu.memory, hframe⟩

end Machine
end Sys2Proof
end

section
/-! PROOFS. The statement drawn from spec/70_reset_and_hazards.md: the unit after power-on (R280). The registers are read
off `State.reset`, and its three places for a word are empty, so the unit waits. -/

namespace Sys2Proof
namespace Machine

/-- Settles O1: `State.reset` has `noWires`, and with nothing to take the step is the idle one of O6. -/
theorem resetLeavesAnIdleEmptyUnit : Obligations.ResetLeavesAnIdleEmptyUnit := by
  obtain ⟨-, -, -, step_waiting⟩ := stepRunsTheDecodedInstruction
  exact ⟨rfl, rfl, rfl, rfl, rfl, rfl, rfl, wire_noWires _ rfl, step_waiting _ rfl rfl rfl⟩

end Machine
end Sys2Proof
end
